-- ==== Sys2Proof/Word.lean ====
section
/-! DEFINITION. The word types of the block (spec/00_scope.md R12: a byte is 8 bits, a halfword 16, a word 32). -/

namespace Sys2Proof

/-- A byte: 8 bits (R12). -/
abbrev Byte := BitVec 8

/-- A halfword: 16 bits (R12). -/
abbrev Half := BitVec 16

/-- A word: 32 bits (R12). Host registers and logical addresses are words. -/
abbrev Word := BitVec 32

/-- A 7-bit operand or register (R25, R29, R61). -/
abbrev Bits7 := BitVec 7

end Sys2Proof
end

