-- ==== Sys2Proof/Machine/Arith.lean ====
section
/-! DEFINITION. The pseudocode primitives of spec/00_scope.md R13, on mathematical integers. -/

namespace Sys2Proof.Machine

/-- `asr(v, n)`: floor(v / 2^n) for any integer (R13). -/
def asr (v : Int) (n : Nat) : Int := v / (2 ^ n : Nat)

/-- `clamp(v, lo, hi)` (R13). -/
def clamp (v lo hi : Int) : Int := min hi (max lo v)

/-- `sat16(v)` as a mathematical integer (R13). -/
def sat16Int (v : Int) : Int := clamp v (-32768) 32767

/-- `sat16(v)` as the 16-bit two's-complement value of a frame (R13, R134). -/
def sat16 (v : Int) : Half := BitVec.ofInt 16 (sat16Int v)

/-- `sext_8(b)` (R13). -/
def sext8 (b : Byte) : Int := if 128 ≤ b.toNat then (b.toNat : Int) - 256 else b.toNat

/-- The little-endian value of a list of bytes, the lowest address first (R41, R42). -/
def leValue : List Byte → Nat
  | [] => 0
  | b :: rest => b.toNat + 256 * leValue rest

end Sys2Proof.Machine
end

