-- ==== Sys2Proof/Config.lean ====
section
/-! DEFINITION. The parameters of the block (spec/00_scope.md R10) and the one free value of the model. -/

namespace Sys2Proof.Config

/-- NUM_CHANNELS (R10). -/
abbrev numChannels : Nat := 12
/-- MAX_TRACKS (R10). -/
abbrev maxTracks : Nat := 16
/-- CALL_DEPTH (R10). -/
abbrev callDepth : Nat := 3
/-- BEND_RANGE: the semitones of a full bend (R10). -/
abbrev bendRange : Nat := 2
/-- TICKS_PER_QUARTER (R10). -/
abbrev ticksPerQuarter : Nat := 24
/-- ROM_BASE (R10, R38). -/
abbrev romBase : Nat := 0x08000000
/-- The largest ROM_SIZE (R10, R38). -/
abbrev romSizeMax : Nat := 0x02000000
/-- OSC_F1024: 440 Hz times 1024 (R10). -/
abbrev oscF1024 : Nat := 450560
/-- OSC_BASE_KEY (R10). -/
abbrev oscBaseKey : Nat := 69
/-- NOISE_F1024: 14080 Hz times 1024 (R10). -/
abbrev noiseF1024 : Nat := 14417920

/-- THR, the tick threshold, of a SAMPLE_RATE (R10). -/
abbrev thr (sampleRate : Nat) : Nat := 60 * sampleRate

/-- What one frame adds to the tick accumulator per unit of tempo: `48`, which is `2 * TICKS_PER_QUARTER` (R76, R78). -/
abbrev accPerTempo : Nat := 2 * ticksPerQuarter

/-- REVERB_DELAY_FRAMES of a SAMPLE_RATE (R10). -/
abbrev reverbDelayFrames (sampleRate : Nat) : Nat := sampleRate / 60

/-- The SAMPLE_RATE of `State.reset`. DESIGN CHOICE, log entry 1: R10 makes it an argument; its examples use 48000. -/
abbrev resetSampleRate : Nat := 48000

/-- The ROM_SIZE of `State.reset`. DESIGN CHOICE, log entry 2: R10 makes it an argument; the whole window is mapped. -/
abbrev resetRomSize : Nat := romSizeMax

/-- FREE VALUE, log entry 7. What `err_addr` (32 bits, R31) holds after a load error whose address is 2^32 or more,
for which no rule states a value. It has no body: nothing constrains it. It is applied to the counter `freeSeq`. -/
opaque freeErrAddr : Nat → Word

end Sys2Proof.Config
end

