-- ==== Sys2Proof/Machine/State.lean ====
section
/-! DEFINITION. The state of the block (spec/10_state.md) as plain data, the state after power-on reset
(spec/70_reset_and_hazards.md R155), and the reasons a step can stop. -/

namespace Sys2Proof.Machine

/-- The index of a track, 0..MAX_TRACKS-1 (R14, R25): four bits. -/
abbrev TrackIdx := Fin 16

/-- The index of a channel, 0..NUM_CHANNELS-1 (R14, R29). -/
abbrev ChanIdx := Fin 12

/-- A table with one entry for each track. -/
def trackTable {α : Type} (f : TrackIdx → α) : Vector α 16 :=
  #v[f 0, f 1, f 2, f 3, f 4, f 5, f 6, f 7, f 8, f 9, f 10, f 11, f 12, f 13, f 14, f 15]

/-- A table with one entry for each channel. -/
def chanTable {α : Type} (f : ChanIdx → α) : Vector α 12 :=
  #v[f 0, f 1, f 2, f 3, f 4, f 5, f 6, f 7, f 8, f 9, f 10, f 11]

/-- The ROM (R22, R38): its size in bytes and its image. `cells` lists (logical address, byte) pairs with addresses
strictly rising, all mapped, and none equal to the byte 0x00 that an unlisted mapped address reads as (log entry 3). -/
structure Rom where
  size : Nat
  cells : List Host.Cell
deriving DecidableEq, Repr

/-- The six errors (spec/60_exceptions.md R136). -/
inductive ErrKind where
  | outOfRange
  | parse
  | configuration
  | unsupportedOpcode
  | stackOverflow
  | stackUnderflow
deriving DecidableEq, Repr

/-- The registers of one LFO of a track, `vib` or `trem` (R25). -/
structure Lfo where
  depth : Byte
  rate : Byte
  delay : Byte
  delayCnt : Byte
  phase : Byte
  offset : Int
deriving DecidableEq, Repr

/-- The register file of one track (R25). `bend` is a signed 7-bit register. -/
structure Track where
  active : Bool
  halted : Bool
  cursor : Word
  stack : Vector Word 3
  sp : BitVec 2
  due : Byte
  program : Byte
  volume : Bits7
  pan : Bits7
  bend : Bits7
  vib : Lfo
  trem : Lfo
deriving DecidableEq, Repr

/-- The kind of a resolved voice, with what is particular to it (R30). -/
inductive VoiceKind where
  | square (duty : BitVec 2)
  | programmableWave (waveAddr : Word)
  | noise (short : Bool)
  | directSample (baseKey : Bits7) (loop : Bool) (f1024 loopStart length dataAddr : Word)
deriving DecidableEq, Repr

/-- A resolved voice record: its kind and its envelope parameters A, D, S, R (R30). -/
structure Voice where
  kind : VoiceKind
  attack : Byte
  decay : Byte
  sustain : Byte
  release : Byte
deriving DecidableEq, Repr

/-- The envelope phase of a channel (R29, R113). -/
inductive EnvState where
  | idle | attack | decay | sustain | release
deriving DecidableEq, Repr

/-- The register file of one channel (R29). `pos[63:32]` is a sample index, `pos[31:0]` its fraction. -/
structure Channel where
  state : EnvState
  env : Byte
  gate : Half
  track : TrackIdx
  key : Bits7
  vel : Bits7
  voice : Voice
  stamp : Word
  phase : Word
  pos : BitVec 64
  lfsr : BitVec 15
  inc : BitVec 57
  gL : Byte
  gR : Byte
deriving DecidableEq, Repr

/-- The song record (R24). -/
structure SongRecord where
  numTracks : Byte
  priority : Byte
  reverb : Byte
  instTable : Word
deriving DecidableEq, Repr

/-- The error record (R31), less `halted_mask`, which is a view of the tracks' `halted`. -/
structure ErrorRecord where
  code : BitVec 4
  track : TrackIdx
  addr : Word
  opcode : Byte
deriving DecidableEq, Repr

/-- The reverb delay line (R32): REVERB_DELAY_FRAMES signed 16-bit values on each side, and the index. -/
structure ReverbLine where
  dl : List Half
  dr : List Half
  idx : Nat
deriving DecidableEq, Repr

/-- The size of a host register access. The window has whole-word access only (R34). -/
inductive AccessSize where
  | byte | half | word
deriving DecidableEq, Repr

/-- The operations through which the host acts on the block (spec/40_sequencer.md R70). -/
inductive HostOp where
  /-- `ReadReg(off)`. -/
  | readReg (off : Nat) (size : AccessSize)
  /-- `WriteReg(off, v)`. -/
  | writeReg (off : Nat) (size : AccessSize) (v : Word)
  /-- `RenderFrame()`. -/
  | renderFrame
deriving DecidableEq, Repr

/-- What a completed host operation returns (R70): the word a ReadReg read, nothing for a WriteReg, and a frame (L, R)
or NONE for a RenderFrame. -/
inductive Answer where
  | word (v : Word)
  | written
  | frame (l r : Half)
  | noFrame
deriving DecidableEq, Repr

/-- MODEL FIELD, log entry 6. How far the host operation in progress has got. A RenderFrame is cut into steps at the
points its own rules name, because its pull loop has no bound (R83). -/
inductive Control where
  /-- No host operation is in progress. -/
  | idle
  /-- RenderFrame is at the loop test of R76. -/
  | boundary
  /-- Tick phase 1 is about to take the track `cur` (R80). -/
  | enter
  /-- The pull loop of the track `cur` is at its test (R81). -/
  | pull
  /-- Tick phase 1 is done; phases 2 to 6 come next (R80). -/
  | post
deriving DecidableEq, Repr

/-- The state of the block. -/
structure State where
  /-- The parameter SAMPLE_RATE (R10). -/
  sampleRate : Nat
  /-- The parameter ROM, with ROM_SIZE (R10, R22). -/
  rom : Rom
  /-- R23. -/
  playing : Bool
  /-- R23. -/
  ended : Bool
  /-- R23. -/
  aborted : Bool
  /-- R23. -/
  loadErr : Bool
  /-- R23. -/
  trackErr : Bool
  /-- R23. -/
  stopReq : Bool
  /-- R23. -/
  tempo : Byte
  /-- R23. -/
  tickAcc : Word
  /-- R23, R150. -/
  songTicks : Word
  /-- R23. -/
  allocSeq : Word
  /-- The song record (R24). -/
  song : SongRecord
  /-- The track register files (R25). -/
  trk : Vector Track 16
  /-- The channel register files (R29). -/
  ch : Vector Channel 12
  /-- The error record (R31). -/
  err : ErrorRecord
  /-- The reverb delay line (R32). -/
  rv : ReverbLine
  /-- CTRL bit 2, POLICY: false halts the offending track, true aborts the session (R33). -/
  policy : Bool
  /-- The register SONG_TABLE (R33). -/
  songTable : Word
  /-- The register SONG_INDEX (R33). -/
  songIndex : Word
  /-- MODEL FIELD, log entry 5: the host operations still to come, in order. -/
  pending : List HostOp
  /-- MODEL FIELD, log entry 5: what the completed host operations returned, newest first. -/
  answers : List Answer
  /-- MODEL FIELD, log entry 6. -/
  control : Control
  /-- MODEL FIELD, log entry 6: the track that tick phase 1 is at, the `i` of an instruction's rule. -/
  cur : TrackIdx
  /-- MODEL FIELD, log entry 7: the counter `Config.freeErrAddr` is applied to. -/
  freeSeq : Nat
deriving DecidableEq, Repr

/-- An LFO with every field 0. -/
def Lfo.zero : Lfo := ⟨0, 0, 0, 0, 0, 0⟩

/-- A track with every field 0 (R155). -/
def Track.zero : Track :=
  { active := false, halted := false, cursor := 0, stack := #v[0, 0, 0], sp := 0, due := 0, program := 0,
    volume := 0, pan := 0, bend := 0, vib := Lfo.zero, trem := Lfo.zero }

/-- The voice of a channel that was never allocated. DESIGN CHOICE, log entry 4: R29 and R155 leave it unspecified,
and no rule reads it while the channel is Idle. -/
def Voice.zero : Voice := { kind := .square 0, attack := 0, decay := 0, sustain := 0, release := 0 }

/-- An Idle channel with every field 0 (R72, R155). -/
def Channel.zero : Channel :=
  { state := .idle, env := 0, gate := 0, track := 0, key := 0, vel := 0, voice := Voice.zero, stamp := 0,
    phase := 0, pos := 0, lfsr := 0, inc := 0, gL := 0, gR := 0 }

/-- A song record with every field 0 (R155). -/
def SongRecord.zero : SongRecord := ⟨0, 0, 0, 0⟩

/-- An error record with every field 0 (R155). -/
def ErrorRecord.zero : ErrorRecord := ⟨0, 0, 0, 0⟩

/-- A delay line of zeros with index 0 (R32). -/
def ReverbLine.zero (sampleRate : Nat) : ReverbLine :=
  { dl := List.replicate (Config.reverbDelayFrames sampleRate) 0,
    dr := List.replicate (Config.reverbDelayFrames sampleRate) 0, idx := 0 }

/-- The block right after power-on reset (R155) with the given parameters (R10). -/
def State.powerOn (sampleRate : Nat) (rom : Rom) : State :=
  { sampleRate := sampleRate, rom := rom,
    playing := false, ended := false, aborted := false, loadErr := false, trackErr := false, stopReq := false,
    tempo := 0, tickAcc := 0, songTicks := 0, allocSeq := 0, song := SongRecord.zero,
    trk := trackTable fun _ => Track.zero, ch := chanTable fun _ => Channel.zero,
    err := ErrorRecord.zero, rv := ReverbLine.zero sampleRate,
    policy := false, songTable := 0, songIndex := 0,
    pending := [], answers := [], control := .idle, cur := 0, freeSeq := 0 }

/-- The block right after power-on reset (R155), with the parameters of log entries 1, 2 and 3. -/
def State.reset : State := State.powerOn Config.resetSampleRate ⟨Config.resetRomSize, []⟩

/-- Why the machine stops with a fault. -/
inductive Fault where
  /-- Raised by the mixer when a live channel's wave or sample byte is not mapped. R126 and R128 say that this read
  cannot fail, because Resolve checked it: no state that `State.Inv` admits raises it. Safe: the model stops. Log entry 12. -/
  | unmappedSample
deriving DecidableEq, Repr

/-- Why the machine refuses a step. -/
inductive Refusal where
  /-- Raised by `exec` for an instruction that has no meaning yet. Safe: the model stops. No arm raises it now. -/
  | notModelled (mnemonic : String)
  /-- Raised by `step` when SAMPLE_RATE or ROM_SIZE is outside its range: "A model must refuse (not run) a
  configuration whose SAMPLE_RATE or ROM_SIZE lies outside the ranges" (R11). Safe: the model stops. -/
  | badConfiguration
  /-- Raised by `step` for a host register access that is not a whole word at a multiple of 4 inside the window:
  "a model refuses such an access" (R34). Safe: the model stops. -/
  | badRegisterAccess (off : Nat) (size : AccessSize)
deriving DecidableEq, Repr

end Sys2Proof.Machine
end

