-- ==== Sys2Proof/Machine/Ops.lean ====
section
/-! DEFINITION. The named operations over memory and registers: reading the ROM (spec/20_memory.md), the register
files, the channel pool's silencing, and taking an error (spec/60_exceptions.md). -/

namespace Sys2Proof.Machine

/-! ### The ROM -/

/-- `Mapped(a)` (R38, R39), on the mathematical integer `a`. -/
def Rom.mapped (r : Rom) (a : Nat) : Bool := Config.romBase ≤ a && a < Config.romBase + r.size

/-- Every byte of the `n` bytes from `a` is mapped. The mapped addresses are one interval (R38), so the first and the
last decide it. -/
def Rom.mappedRange (r : Rom) (a n : Nat) : Bool := n == 0 || (r.mapped a && r.mapped (a + (n - 1)))

/-- What a mapped address that the image does not list reads as. DESIGN CHOICE, log entry 3. -/
def Rom.unlisted : Byte := 0

/-- The byte a list of cells holds at an address. -/
def lookupCell : List Host.Cell → Nat → Byte
  | [], _ => Rom.unlisted
  | c :: rest, a => if c.1 = a then c.2 else lookupCell rest a

/-- `MemRead(a, 1)` (R41): the byte at a mapped address; `none` stands for OutOfRangeError. -/
def Rom.byte? (r : Rom) (a : Nat) : Option Byte := if r.mapped a then some (lookupCell r.cells a) else none

/-- The `n` bytes from `a`, lowest address first, if all are mapped. -/
def Rom.bytes? (r : Rom) (a : Nat) : Nat → Option (List Byte)
  | 0 => some []
  | n + 1 => do
    let b ← r.byte? a
    let rest ← Rom.bytes? r (a + 1) n
    some (b :: rest)

/-- `MemRead(a, n)` (R41): the little-endian value of the `n` bytes from `a`; `none` stands for OutOfRangeError(a). -/
def Rom.read? (r : Rom) (a n : Nat) : Option Nat := (r.bytes? a n).map leValue

/-- Insert a cell into a rising list of cells, in place of one at the same address. The unlisted byte is not listed. -/
def insertCell (a : Nat) (b : Byte) : List Host.Cell → List Host.Cell
  | [] => if b = Rom.unlisted then [] else [(a, b)]
  | c :: rest =>
    if a < c.1 then (if b = Rom.unlisted then c :: rest else (a, b) :: c :: rest)
    else if a = c.1 then (if b = Rom.unlisted then rest else (a, b) :: rest)
    else c :: insertCell a b rest

/-- The ROM image with the byte at the mapped address `a` replaced. The block never writes its ROM (R45): this is how
an image is given to the machine from outside (R158). An unmapped address holds nothing, and the image is unchanged. -/
def Rom.write (r : Rom) (a : Nat) (b : Byte) : Rom :=
  if r.mapped a then { r with cells := insertCell a b r.cells } else r

/-- The ROM image with the bytes from `a` on replaced. -/
def Rom.writeBytes (r : Rom) (a : Nat) : List Byte → Rom
  | [] => r
  | b :: rest => Rom.writeBytes (r.write a b) (a + 1) rest

/-- The cells are in canonical form: addresses strictly rising, each mapped, no byte equal to the unlisted one. -/
abbrev Rom.wf (r : Rom) : Prop :=
  r.cells.Pairwise (fun x y => x.1 < y.1) ∧ ∀ c ∈ r.cells, c.2 ≠ Rom.unlisted ∧ r.mapped c.1 = true

/-! ### The register files -/

/-- The executing track, `trk[i]`. -/
def State.curTrack (s : State) : Track := s.trk[s.cur]

/-- Write the executing track's register file. -/
def State.setCur (s : State) (t : Track) : State := { s with trk := s.trk.set s.cur.val t s.cur.isLt }

/-- The executing track's cursor as an address. -/
def State.curAddr (s : State) : Nat := s.curTrack.cursor.toNat

/-- Write `cursor + n`: step over an instruction of `n` bytes (R26). -/
def Track.stepOver (t : Track) (n : Nat) : Track := { t with cursor := t.cursor + BitVec.ofNat 32 n }

/-- `stack[k]` of a track. A slot that does not exist (k = 3) is never asked for; it reads as 0 (log entry 11). -/
def Track.stackAt (t : Track) (k : Nat) : Word := t.stack.toList.getD k 0

/-- Write `stack[k]`. A slot that does not exist (k = 3) is never asked for; nothing is written (log
entry 11). -/
def Track.setStackAt (t : Track) (k : Nat) (v : Word) : Track := { t with stack := t.stack.setIfInBounds k v }

/-- The number of loaded tracks, at most MAX_TRACKS (R24). -/
def State.trackCount (s : State) : Nat := min s.song.numTracks.toNat Config.maxTracks

/-- A channel whose `state` becomes Idle; every other field is retained (R29). -/
def Channel.stop (c : Channel) : Channel := { c with state := .idle }

/-- Every channel's `state` <- Idle (R75, R84, R141). -/
def State.silence (s : State) : State := { s with ch := chanTable fun j => s.ch[j].stop }

/-- The completed host operation returns `a`; the block is ready for the next one (R70). -/
def State.answer (s : State) (a : Answer) : State := { s with answers := a :: s.answers, control := .idle }

/-! ### Taking an error in playback (R137 to R142). There is no return from one (R146). -/

/-- The code of an error (R136). -/
def ErrKind.code : ErrKind → BitVec 4
  | .outOfRange => 1
  | .parse => 2
  | .configuration => 3
  | .unsupportedOpcode => 4
  | .stackOverflow => 5
  | .stackUnderflow => 6

/-- Record an error raised by the instruction at the executing track's cursor (R137). -/
def State.recordError (s : State) (e : ErrKind) : State :=
  { s with err := { code := e.code, track := s.cur, addr := s.curTrack.cursor,
                    opcode := (s.rom.byte? s.curAddr).getD 0 } }

/-- `Abort()` (R141). -/
def State.abortSession (s : State) : State :=
  { s.silence with aborted := true, playing := false, stopReq := false }

/-- `Halt(i)` for the executing track (R142). -/
def State.haltTrack (s : State) : State :=
  { s.setCur { s.curTrack with active := false, halted := true } with trackErr := true }

/-- The errors that abort the session whatever POLICY says (R140). -/
def ErrKind.alwaysFatal : ErrKind → Bool
  | .parse => true
  | .stackOverflow => true
  | .stackUnderflow => true
  | .outOfRange => false
  | .configuration => false
  | .unsupportedOpcode => false

/-- The error ends the session under the present POLICY (R140). -/
def State.errorIsFatal (s : State) (e : ErrKind) : Bool := e.alwaysFatal || s.policy

/-- Take an error in playback: record it, then abort the session or halt the track (R140). Nothing else of the failing
instruction happens (R138). -/
def State.takeError (s : State) (e : ErrKind) : State :=
  if s.errorIsFatal e then (s.recordError e).abortSession else (s.recordError e).haltTrack

end Sys2Proof.Machine
end

