-- ==== Sys2Proof/Machine/ControlFlow.lean ====
section
/-! DEFINITION. Control flow: JUMP, CALL, RET and EOT (spec/43_control_flow.md). -/

namespace Sys2Proof.Machine

/-- JUMP (R107). Only the one byte at the target is checked (R106). -/
def execJump (addr : Word) (s : State) : Host.Outcome State Fault Refusal :=
  if s.rom.mapped addr.toNat then .next (s.setCur { s.curTrack with cursor := addr })
  else .next (s.takeError .outOfRange)

/-- Push the return address `cursor + 5` and go to `addr` (R108). -/
def Track.enterCall (t : Track) (addr : Word) : Track :=
  { t.setStackAt t.sp.toNat (t.cursor + 5) with sp := t.sp + 1, cursor := addr }

/-- CALL (R108): the overflow check comes before the target check. -/
def execCall (addr : Word) (s : State) : Host.Outcome State Fault Refusal :=
  if s.curTrack.sp.toNat = Config.callDepth then .next (s.takeError .stackOverflow)
  else if s.rom.mapped addr.toNat then .next (s.setCur (s.curTrack.enterCall addr))
  else .next (s.takeError .outOfRange)

/-- Pop the return address; the popped slot keeps its value (R109). -/
def Track.leaveCall (t : Track) : Track :=
  { t with sp := t.sp - 1, cursor := t.stackAt (t.sp - 1).toNat }

/-- RET (R109). -/
def execRet (s : State) : Host.Outcome State Fault Refusal :=
  if s.curTrack.sp = 0 then .next (s.takeError .stackUnderflow)
  else .next (s.setCur s.curTrack.leaveCall)

/-- EOT (R110): the cursor stays at the EOT. -/
def execEot (s : State) : Host.Outcome State Fault Refusal :=
  .next (s.setCur { s.curTrack with active := false })

end Sys2Proof.Machine
end

