-- ==== Sys2Proof/Machine/Modulation.lean ====
section
/-! DEFINITION. The modulation events PROG, VOL, PAN, BEND, VIB, TREM and TEMPO (spec/42_modulation_events.md). They
write registers of the executing track, or `tempo`, and never a channel (R97). -/

namespace Sys2Proof.Machine

/-- PROG (R98). -/
def execProg (prog : Byte) (s : State) : Host.Outcome State Fault Refusal :=
  .next (s.setCur { s.curTrack.stepOver 2 with program := prog })

/-- VOL (R99). -/
def execVol (vol : Bits7) (s : State) : Host.Outcome State Fault Refusal :=
  .next (s.setCur { s.curTrack.stepOver 2 with volume := vol })

/-- PAN (R100). -/
def execPan (pan : Bits7) (s : State) : Host.Outcome State Fault Refusal :=
  .next (s.setCur { s.curTrack.stepOver 2 with pan := pan })

/-- BEND (R101). -/
def execBend (bend : Bits7) (s : State) : Host.Outcome State Fault Refusal :=
  .next (s.setCur { s.curTrack.stepOver 2 with bend := bend })

/-- Set an LFO's parameters; its delay restarts, and its `offset` is not written (R102, R103). -/
def Lfo.set (l : Lfo) (depth rate delay : Byte) : Lfo :=
  { l with depth := depth, rate := rate, delay := delay, delayCnt := delay, phase := 0 }

/-- VIB (R102). -/
def execVib (depth rate delay : Byte) (s : State) : Host.Outcome State Fault Refusal :=
  .next (s.setCur { s.curTrack.stepOver 4 with vib := s.curTrack.vib.set depth rate delay })

/-- TREM (R103). -/
def execTrem (depth rate delay : Byte) (s : State) : Host.Outcome State Fault Refusal :=
  .next (s.setCur { s.curTrack.stepOver 4 with trem := s.curTrack.trem.set depth rate delay })

/-- TEMPO (R104): `tempo` is global. -/
def execTempo (t : Byte) (s : State) : Host.Outcome State Fault Refusal :=
  .next { s.setCur (s.curTrack.stepOver 2) with tempo := t }

end Sys2Proof.Machine
end

