-- ==== Sys2Proof/Machine/Flags.lean ====
section
/-! DEFINITION. The flags the host reads. The block has no condition codes, and no instruction computes a flag
(spec/10_state.md R28); what it has are the masks and the STATUS word of R33, which are views of the fields. -/

namespace Sys2Proof.Machine

/-- The number whose bit `k` is the `k`-th element of the list. -/
def maskValue : List Bool → Nat
  | [] => 0
  | b :: rest => b.toNat + 2 * maskValue rest

/-- A channel is live: its `state` is not Idle (R88). -/
def Channel.live (c : Channel) : Bool := c.state != .idle

/-- `halted_mask`: bit i is trk[i].halted (R31). -/
def State.haltedMask (s : State) : Nat := maskValue (s.trk.toList.map (·.halted))

/-- ACTIVE_MASK: bit i is trk[i].active (R33). -/
def State.activeMask (s : State) : Nat := maskValue (s.trk.toList.map (·.active))

/-- CHANNEL_MASK: bit j is 1 when ch[j] is live (R33). -/
def State.channelMask (s : State) : Nat := maskValue (s.ch.toList.map (·.live))

/-- The STATUS word (R33), byte by byte: the session flags in bits 5..0, ERR_CODE in bits 11..8, ERR_TRACK in
bits 19..16. -/
def State.statusValue (s : State) : Nat :=
  leValue
    [BitVec.ofNat 8 (maskValue [s.playing, s.ended, s.aborted, s.trackErr, s.stopReq, s.loadErr]),
      BitVec.ofNat 8 s.err.code.toNat, BitVec.ofNat 8 s.err.track.val, 0]

/-- The SONG_INFO word (R33), byte by byte. -/
def State.songInfoValue (s : State) : Nat := leValue [s.song.numTracks, s.song.priority, s.song.reverb, s.tempo]

end Sys2Proof.Machine
end

