-- ==== Sys2Proof/Machine/Voices.lean ====
section
/-! DEFINITION. Voice resolution, the Instrument Resolver (spec/20_memory.md R48 to R54). -/

namespace Sys2Proof.Machine

/-- Byte `k` of a voice descriptor. A descriptor has twelve bytes. -/
def descByte (d : List Byte) (k : Nat) : Byte := d.getD k 0

/-- `u32(d[k..k+3])`, little-endian (R52). -/
def descWord (d : List Byte) (k : Nat) : Nat := leValue [descByte d k, descByte d (k + 1), descByte d (k + 2), descByte d (k + 3)]

/-- The twelve bytes of a descriptor; `none` if any is unmapped (R52). -/
def Rom.descriptor? (r : Rom) (a : Nat) : Option (List Byte) := r.bytes? a 12

/-- The kind code of a KeySplit descriptor (R48). -/
def keySplitCode : Byte := 0x40

/-- The descriptor of program `p` for key `k`: a KeySplit descriptor is replaced by the sub-voice it selects, which may
be no KeySplit itself (R49, R52). -/
def selectDescriptor (r : Rom) (instTable p k : Nat) : Option (List Byte) := do
  let d ← r.descriptor? (instTable + 12 * p)
  if descByte d 0 = keySplitCode then do
    let idx ← r.byte? (descWord d 8 + k)
    let sub ← r.descriptor? (descWord d 4 + 12 * idx.toNat)
    if descByte sub 0 = keySplitCode then none else some sub
  else some d

/-- The DirectSample kind of a sample header at `h` with base key `b`, if the header and every sample are mapped, there
is a sample, and a loop starts inside it (R50, R52). -/
def resolveSample (r : Rom) (h : Nat) (b : Bits7) : Option VoiceKind := do
  let flags ← r.read? (h + 2) 2
  let f ← r.read? (h + 4) 4
  let ls ← r.read? (h + 8) 4
  let len ← r.read? (h + 12) 4
  let loop := flags.testBit 14
  if r.mappedRange h 16 && len != 0 && r.mappedRange (h + 16) len && !(loop && len ≤ ls) then
    some (.directSample b loop (BitVec.ofNat 32 f) (BitVec.ofNat 32 ls) (BitVec.ofNat 32 len) (BitVec.ofNat 32 (h + 16)))
  else none

/-- The kind of the voice a descriptor describes, by its kind code (R48, R52). -/
def resolveKind (r : Rom) (d : List Byte) : Option VoiceKind :=
  let code := descByte d 0
  if code = 0x01 then some (.square (BitVec.ofNat 2 (descByte d 4).toNat))
  else if code = 0x03 then
    if r.mappedRange (descWord d 4) 16 then some (.programmableWave (BitVec.ofNat 32 (descWord d 4))) else none
  else if code = 0x04 then some (.noise ((descByte d 4).getLsbD 0))
  else if code = 0x00 then resolveSample r (descWord d 4) (BitVec.ofNat 7 (descByte d 1).toNat)
  else none

/-- `Resolve(p, k)` (R52): a function of the ROM, the instrument table, the program and the key; `none` stands for
ParseError. -/
def resolve (r : Rom) (instTable p k : Nat) : Option Voice := do
  let d ← selectDescriptor r instTable p k
  let kind ← resolveKind r d
  some { kind := kind, attack := descByte d 8, decay := descByte d 9, sustain := descByte d 10, release := descByte d 11 }

end Sys2Proof.Machine
end

