-- ==== Sys2Proof/Machine/Notes.lean ====
section
/-! DEFINITION. The note events NOTE, REST and TIE, and channel allocation (spec/41_note_events.md). -/

namespace Sys2Proof.Machine

/-! ### The channel pool -/

/-- The channel indices in ascending order. -/
def chanIndices : List ChanIdx := [0, 1, 2, 3, 4, 5, 6, 7, 8, 9, 10, 11]

/-- The class of a channel as a stealing candidate: 0 in Release, 1 otherwise (R90). -/
def Channel.stealClass (c : Channel) : Nat := if c.state = .release then 0 else 1

/-- The stealing key (class, stamp) of a channel, in lexicographic order, as one number (R90). -/
def Channel.stealKey (c : Channel) : Nat := 2 ^ 32 * c.stealClass + c.stamp.toNat

/-- The index with the smallest stealing key among `best` and the list, the earlier one on a tie (R90). -/
def victimFrom (ch : Vector Channel 12) (best : ChanIdx) : List ChanIdx → ChanIdx
  | [] => best
  | j :: rest => victimFrom ch (if ch[j].stealKey < ch[best].stealKey then j else best) rest

/-- `Victim()` (R90). -/
def victim (ch : Vector Channel 12) : ChanIdx := victimFrom ch 0 chanIndices

/-- `Allocate()` (R89): the lowest Idle channel, or else the victim. -/
def allocate (ch : Vector Channel 12) : ChanIdx :=
  match chanIndices.find? (fun j => !ch[j].live) with
  | some j => j
  | none => victim ch

/-- The register file of a channel just allocated (R92). -/
def newChannel (i : TrackIdx) (key vel : Bits7) (gate : Byte) (v : Voice) (stamp : Word) : Channel :=
  { state := .attack, env := 0, gate := BitVec.ofNat 16 gate.toNat, track := i, key := key, vel := vel, voice := v,
    stamp := stamp, phase := 0, pos := 0, lfsr := 0x7FFF, inc := 0, gL := 0, gR := 0 }

/-- Allocate a channel for a note of the executing track (R89, R92). -/
def State.allocateNote (s : State) (key vel : Bits7) (gate : Byte) (v : Voice) : State :=
  let j := allocate s.ch
  { s with ch := s.ch.set j.val (newChannel s.cur key vel gate v s.allocSeq) j.isLt, allocSeq := s.allocSeq + 1 }

/-- A NOTE restarts an LFO: its delay count and its phase (R94). -/
def Lfo.restart (l : Lfo) : Lfo := { l with delayCnt := l.delay, phase := 0 }

/-! ### The instructions -/

/-- NOTE (R94). -/
def execNote (key vel : Bits7) (gate : Byte) (s : State) : Host.Outcome State Fault Refusal :=
  match resolve s.rom s.song.instTable.toNat s.curTrack.program.toNat key.toNat with
  | none => .next (s.takeError .parse)
  | some v =>
    let t := s.curTrack
    .next ((s.allocateNote key vel gate v).setCur
      { t.stepOver 4 with vib := t.vib.restart, trem := t.trem.restart, due := gate })

/-- REST (R95). -/
def execRest (dur : Byte) (s : State) : Host.Outcome State Fault Refusal :=
  .next (s.setCur { s.curTrack.stepOver 2 with due := dur })

/-- A channel whose note can be held longer: in Attack, Decay or Sustain (R96, R114). -/
def Channel.held (c : Channel) : Bool :=
  match c.state with
  | .attack => true
  | .decay => true
  | .sustain => true
  | .release => false
  | .idle => false

/-- Extend a held channel of track `i` by `dur` ticks; the gate saturates at 65535 (R96). -/
def Channel.extend (c : Channel) (i : TrackIdx) (dur : Byte) : Channel :=
  if c.track = i ∧ c.held then { c with gate := BitVec.ofNat 16 (min 65535 (c.gate.toNat + dur.toNat)) } else c

/-- TIE (R96). -/
def execTie (dur : Byte) (s : State) : Host.Outcome State Fault Refusal :=
  .next ({ s with ch := chanTable fun j => s.ch[j].extend s.cur dur }.setCur
    { s.curTrack.stepOver 2 with due := dur })

end Sys2Proof.Machine
end

