-- ==== Sys2Proof/Syntax.lean ====
section
/-! DEFINITION. The abstract syntax of SapPy-SEQ (spec/00_scope.md R3): fourteen instructions with the operands of
spec/30_encoding.md R61, each at the width R61 gives it. -/

namespace Sys2Proof

/-- The fourteen instructions (R3, R62). The two NOTE rows of the opcode table are two match/mask pairs of one
instruction whose meaning does not depend on the opcode byte (R63), so they share the constructor `note`. -/
inductive Instr where
  /-- REST dur (R95). -/
  | rest (dur : Byte)
  /-- EOT (R110). -/
  | eot
  /-- JUMP addr (R107). -/
  | jump (addr : Word)
  /-- CALL addr (R108). -/
  | call (addr : Word)
  /-- RET (R109). -/
  | ret
  /-- TEMPO t (R104). -/
  | tempo (t : Byte)
  /-- PROG prog (R98). -/
  | prog (prog : Byte)
  /-- VOL vol (R99). -/
  | vol (vol : Bits7)
  /-- PAN pan (R100). -/
  | pan (pan : Bits7)
  /-- BEND bend (R101): the signed operand `b1[6:0] - 64`, in two's complement. -/
  | bend (bend : Bits7)
  /-- VIB depth, rate, delay (R102). -/
  | vib (depth rate delay : Byte)
  /-- TREM depth, rate, delay (R103). -/
  | trem (depth rate delay : Byte)
  /-- TIE dur (R96). -/
  | tie (dur : Byte)
  /-- NOTE key, vel, gate (R94). -/
  | note (key vel : Bits7) (gate : Byte)
deriving DecidableEq, Repr

end Sys2Proof
end

