-- ==== Sys2Proof/Machine/Dispatch.lean ====
section
/-! DEFINITION. What each instruction does to the state, executed by the track `cur` at its cursor. -/

namespace Sys2Proof.Machine

def exec (i : Instr) (s : State) : Host.Outcome State Fault Refusal :=
  match i with
  | .rest dur => Sys2Proof.Machine.execRest dur s
  | .eot => Sys2Proof.Machine.execEot s
  | .jump addr => Sys2Proof.Machine.execJump addr s
  | .call addr => Sys2Proof.Machine.execCall addr s
  | .ret => Sys2Proof.Machine.execRet s
  | .tempo t => Sys2Proof.Machine.execTempo t s
  | .prog prog => Sys2Proof.Machine.execProg prog s
  | .vol vol => Sys2Proof.Machine.execVol vol s
  | .pan pan => Sys2Proof.Machine.execPan pan s
  | .bend bend => Sys2Proof.Machine.execBend bend s
  | .vib depth rate delay => Sys2Proof.Machine.execVib depth rate delay s
  | .trem depth rate delay => Sys2Proof.Machine.execTrem depth rate delay s
  | .tie dur => Sys2Proof.Machine.execTie dur s
  | .note key vel gate => Sys2Proof.Machine.execNote key vel gate s

end Sys2Proof.Machine
end

