-- ==== Sys2Proof/Machine/Operands.lean ====
section
/-! DEFINITION. Operand assembly (spec/30_encoding.md R61): how each operand field is read from the instruction's
bytes, and, beside each, the bytes that hold it. -/

namespace Sys2Proof.Machine

/-- `key`, `vel`, `vol`, `pan`: the low seven bits of the byte; bit 7 is ignored (R61). -/
def operand7 (b : Byte) : Bits7 := BitVec.ofNat 7 b.toNat

/-- The byte that holds a 7-bit operand, its ignored bit 0. -/
def operand7Byte (x : Bits7) : Byte := BitVec.ofNat 8 x.toNat

/-- `bend`: `b1[6:0] - 64`, so -64..63, in two's complement; bit 7 is ignored (R61). -/
def operandBend (b : Byte) : Bits7 := operand7 b - 64#7

/-- The excess-64 byte that holds a bend, its ignored bit 0. -/
def operandBendByte (x : Bits7) : Byte := operand7Byte (x + 64#7)

/-- `addr`: `b1 + (b2 << 8) + (b3 << 16) + (b4 << 24)` (R61). -/
def operandAddr (b1 b2 b3 b4 : Byte) : Word := BitVec.ofNat 32 (leValue [b1, b2, b3, b4])

/-- Byte `k` of an address operand, the least significant first. -/
def operandAddrByte (a : Word) (k : Nat) : Byte := BitVec.ofNat 8 (a.toNat / 256 ^ k)

end Sys2Proof.Machine
end

