-- ==== Sys2Proof/WellFormed.lean ====
section
/-! DEFINITION. What is well formed: an instruction, and a configuration of the block. -/

namespace Sys2Proof

/-- An instruction is well formed. Every operand has exactly the width of its field (R61), and within a supported
instruction no operand value is illegal (spec/30_encoding.md R65), so no instruction is ill formed. -/
def Instr.wellFormed : Instr → Bool
  | .rest _ => true
  | .eot => true
  | .jump _ => true
  | .call _ => true
  | .ret => true
  | .tempo _ => true
  | .prog _ => true
  | .vol _ => true
  | .pan _ => true
  | .bend _ => true
  | .vib _ _ _ => true
  | .trem _ _ _ => true
  | .tie _ => true
  | .note _ _ _ => true

/-- The ranges of SAMPLE_RATE and ROM_SIZE (spec/00_scope.md R10). A model refuses any other configuration (R11). -/
def Config.wellFormed (sampleRate romSize : Nat) : Bool :=
  256 ≤ sampleRate && sampleRate ≤ 2 ^ 20 && 1 ≤ romSize && romSize ≤ Config.romSizeMax

end Sys2Proof
end

