-- ==== Sys2Proof/Decode.lean ====
section
/-! DEFINITION. Decoding (spec/30_encoding.md R59 to R67), total on any bytes and rejecting by name, and after it the
encoder, written from the same tables. -/

namespace Sys2Proof

open Sys2Proof.Machine

/-- Why no instruction is read (R67, R139): a byte it needs is missing, or the opcode byte is unsupported (R64). -/
inductive DecodeError where
  /-- The opcode byte or an operand byte is not there. -/
  | missingByte
  /-- The opcode byte `b0` is one of the 195 values of R64. -/
  | unsupportedOpcode (b0 : Byte)
deriving DecidableEq, Repr

/-- The instruction an opcode byte selects (R62). -/
inductive Opcode where
  | rest | eot | jump | call | ret | tempo | prog | vol | pan | bend | vib | trem | tie | note
deriving DecidableEq, Repr

/-- The four formats (R59). -/
inductive Format where
  | f0 | f1 | f3 | fa
deriving DecidableEq, Repr

/-- The length in bytes of a format, the opcode byte included (R59). -/
def Format.byteLength : Format → Nat
  | .f0 => 1
  | .f1 => 2
  | .f3 => 4
  | .fa => 5

/-- The format of each instruction (R62, R66). -/
def Opcode.format : Opcode → Format
  | .eot | .ret => .f0
  | .rest | .tie | .prog | .vol | .pan | .bend | .tempo => .f1
  | .vib | .trem | .note => .f3
  | .jump | .call => .fa

/-- A row of the opcode map: the byte selects `op` when its bits under `mask` are `pattern` (R62). -/
structure OpcodeRow where
  mask : Byte
  pattern : Byte
  op : Opcode
deriving DecidableEq, Repr

/-- The opcode byte fits the row. -/
def OpcodeRow.fits (r : OpcodeRow) (b0 : Byte) : Bool := b0 &&& r.mask == r.pattern

/-- The opcode map (R62); NOTE needs two masks. -/
def opcodeMap : List OpcodeRow :=
  [ ⟨0xFF, 0x80, .rest⟩, ⟨0xFF, 0xB1, .eot⟩, ⟨0xFF, 0xB2, .jump⟩, ⟨0xFF, 0xB3, .call⟩, ⟨0xFF, 0xB4, .ret⟩,
    ⟨0xFF, 0xBB, .tempo⟩, ⟨0xFF, 0xBD, .prog⟩, ⟨0xFF, 0xBE, .vol⟩, ⟨0xFF, 0xBF, .pan⟩, ⟨0xFF, 0xC0, .bend⟩,
    ⟨0xFF, 0xC4, .vib⟩, ⟨0xFF, 0xC6, .trem⟩, ⟨0xFF, 0xCF, .tie⟩, ⟨0xF0, 0xD0, .note⟩, ⟨0xE0, 0xE0, .note⟩ ]

/-- The instruction the opcode byte selects, if it is a supported one (R62, R64). -/
def opcodeOf (b0 : Byte) : Option Opcode := (opcodeMap.find? (·.fits b0)).map (·.op)

/-- Read one operand byte (format F1, R59). -/
def decodeF1 (mk : Byte → Instr) : List Byte → Except DecodeError (Instr × List Byte)
  | x :: rest => .ok (mk x, rest)
  | [] => .error .missingByte

/-- Read three operand bytes (format F3, R59). -/
def decodeF3 (mk : Byte → Byte → Byte → Instr) : List Byte → Except DecodeError (Instr × List Byte)
  | x :: y :: z :: rest => .ok (mk x y z, rest)
  | _ => .error .missingByte

/-- Read a four-byte address operand (format FA, R59). -/
def decodeFA (mk : Word → Instr) : List Byte → Except DecodeError (Instr × List Byte)
  | b1 :: b2 :: b3 :: b4 :: rest => .ok (mk (operandAddr b1 b2 b3 b4), rest)
  | _ => .error .missingByte

/-- Read the operands of the instruction `op` from the bytes after its opcode byte (R59, R61). -/
def decodeOperands (op : Opcode) (bs : List Byte) : Except DecodeError (Instr × List Byte) :=
  match op with
  | .eot => .ok (.eot, bs)
  | .ret => .ok (.ret, bs)
  | .rest => decodeF1 .rest bs
  | .tie => decodeF1 .tie bs
  | .prog => decodeF1 .prog bs
  | .tempo => decodeF1 .tempo bs
  | .vol => decodeF1 (fun x => .vol (operand7 x)) bs
  | .pan => decodeF1 (fun x => .pan (operand7 x)) bs
  | .bend => decodeF1 (fun x => .bend (operandBend x)) bs
  | .vib => decodeF3 .vib bs
  | .trem => decodeF3 .trem bs
  | .note => decodeF3 (fun x y z => .note (operand7 x) (operand7 y) z) bs
  | .jump => decodeFA .jump bs
  | .call => decodeFA .call bs

/-- Decode the instruction at the front of a byte sequence, with the bytes after it (R67): the opcode byte first,
the unsupported check before any operand byte, then the operand bytes. -/
def decode : List Byte → Except DecodeError (Instr × List Byte)
  | [] => .error .missingByte
  | b0 :: rest =>
    match opcodeOf b0 with
    | none => .error (.unsupportedOpcode b0)
    | some op => decodeOperands op rest

/-- The opcode of an instruction. -/
def Instr.opcode : Instr → Opcode
  | .rest _ => .rest
  | .eot => .eot
  | .jump _ => .jump
  | .call _ => .call
  | .ret => .ret
  | .tempo _ => .tempo
  | .prog _ => .prog
  | .vol _ => .vol
  | .pan _ => .pan
  | .bend _ => .bend
  | .vib _ _ _ => .vib
  | .trem _ _ _ => .trem
  | .tie _ => .tie
  | .note _ _ _ => .note

/-- The length of an instruction in bytes: a function of its opcode alone (R66). -/
def Instr.byteLength (i : Instr) : Nat := i.opcode.format.byteLength

/-- The longest instruction, in bytes (R59). -/
def maxInstrBytes : Nat := 5

/-- The canonical opcode byte of an instruction (R62, R68: a NOTE is written with 0xD0). -/
def Opcode.byte : Opcode → Byte
  | .rest => 0x80
  | .eot => 0xB1
  | .jump => 0xB2
  | .call => 0xB3
  | .ret => 0xB4
  | .tempo => 0xBB
  | .prog => 0xBD
  | .vol => 0xBE
  | .pan => 0xBF
  | .bend => 0xC0
  | .vib => 0xC4
  | .trem => 0xC6
  | .tie => 0xCF
  | .note => 0xD0

/-- The four bytes of an address operand, least significant first (R59). -/
def encodeAddr (a : Word) : List Byte :=
  [operandAddrByte a 0, operandAddrByte a 1, operandAddrByte a 2, operandAddrByte a 3]

/-- The operand bytes of an instruction (R59, R61, R68). -/
def encodeOperands : Instr → List Byte
  | .rest dur => [dur]
  | .eot => []
  | .jump addr => encodeAddr addr
  | .call addr => encodeAddr addr
  | .ret => []
  | .tempo t => [t]
  | .prog p => [p]
  | .vol v => [operand7Byte v]
  | .pan p => [operand7Byte p]
  | .bend b => [operandBendByte b]
  | .vib depth rate delay => [depth, rate, delay]
  | .trem depth rate delay => [depth, rate, delay]
  | .tie dur => [dur]
  | .note key vel gate => [operand7Byte key, operand7Byte vel, gate]

/-- The canonical bytes of an instruction (R68). -/
def encode (i : Instr) : List Byte := i.opcode.byte :: encodeOperands i

/-- The bytes of an instruction whose bits are `w`, numbered as spec/opcode_table.json numbers them: byte `k` is bits
`8k+7..8k`, and every bit from `nbits` up is 0. -/
def tableBytes (nbits w : Nat) : List Byte :=
  (List.range maxInstrBytes).map fun k => BitVec.ofNat 8 (w % 2 ^ nbits / 256 ^ k)

/-- The instruction the decoder reads from the bits `w` of an opcode-table row. -/
def decodeTableWord (nbits w : Nat) : Option Instr :=
  match decode (tableBytes nbits w) with
  | .ok (i, _) => some i
  | .error _ => none

end Sys2Proof
end

