-- ==== Sys2Proof/Machine/Loader.lean ====
section
/-! DEFINITION. Starting a session: the load of a song and its initial state (spec/40_sequencer.md R72 to R74). -/

namespace Sys2Proof.Machine

/-- An error of the load: its kind and the address that goes with it (R73). -/
structure LoadError where
  kind : ErrKind
  addr : Nat
deriving DecidableEq, Repr

/-- What a successful load resolves (R73). -/
structure Loaded where
  numTracks : Byte
  tempo : Byte
  priority : Byte
  reverb : Byte
  instTable : Word
  tracks : List Word
deriving DecidableEq, Repr

/-- A ROM read of the load that fails with the error given. -/
def loadRead (r : Rom) (a n : Nat) (e : LoadError) : Except LoadError Nat :=
  match r.read? a n with
  | none => .error e
  | some v => .ok v

/-- A check of the load that fails with the error given. -/
def loadCheck (ok : Bool) (e : LoadError) : Except LoadError Unit := if ok then .ok () else .error e

/-- The track pointers of the header at `h`, from track `i` on, `n` of them, each checked in turn (R73). -/
def loadPointers (r : Rom) (h i : Nat) : Nat → Except LoadError (List Word)
  | 0 => .ok []
  | n + 1 => do
    let pa := h + 8 + 4 * i
    let p ← loadRead r pa 4 ⟨.configuration, pa⟩
    loadCheck (p != 0 && r.mapped p) ⟨.configuration, pa⟩
    let rest ← loadPointers r h (i + 1) n
    .ok (BitVec.ofNat 32 p :: rest)

/-- The load of song `k` of the song table at `t` (R46, R47, R73): the checks in the order of R73. -/
def loadSong (r : Rom) (t k : Nat) : Except LoadError Loaded := do
  let count ← loadRead r t 4 ⟨.outOfRange, t⟩
  loadCheck (k < count) ⟨.configuration, t⟩
  let e := t + 4 + 8 * k
  let h ← loadRead r e 4 ⟨.outOfRange, e⟩
  let prio ← loadRead r (e + 4) 1 ⟨.outOfRange, e + 4⟩
  let rev ← loadRead r (e + 5) 1 ⟨.outOfRange, e + 5⟩
  loadCheck (h != 0 && r.mappedRange h 8) ⟨.configuration, e⟩
  let nTr ← loadRead r h 1 ⟨.configuration, e⟩
  let t0 ← loadRead r (h + 1) 1 ⟨.configuration, e⟩
  let inst ← loadRead r (h + 4) 4 ⟨.configuration, e⟩
  loadCheck (nTr != 0 && nTr ≤ Config.maxTracks) ⟨.configuration, h⟩
  let tracks ← loadPointers r h 0 nTr
  loadCheck (r.mapped inst) ⟨.parse, h + 4⟩
  .ok { numTracks := BitVec.ofNat 8 nTr, tempo := BitVec.ofNat 8 t0, priority := BitVec.ofNat 8 prio,
        reverb := BitVec.ofNat 8 rev, instTable := BitVec.ofNat 32 inst, tracks := tracks }

/-- Step 1 of `Start()` (R72): the session state is cleared. The reverb line and `song_ticks` are zeroed at every START
(R32, R132, R150). That `tempo`, `tick_acc` and `alloc_seq` are too is read from R157: log entry 8. -/
def State.clearSession (s : State) : State :=
  { s with
    playing := false, ended := false, aborted := false, loadErr := false, trackErr := false, stopReq := false,
    tempo := 0, tickAcc := 0, songTicks := 0, allocSeq := 0, song := SongRecord.zero,
    trk := trackTable fun _ => Track.zero, ch := chanTable fun _ => Channel.zero,
    err := ErrorRecord.zero, rv := ReverbLine.zero s.sampleRate }

/-- Step 2 of `Start()` when the load raises an error (R72). An address of 2^32 or more does not fit `err_addr`, and no
rule states what is recorded then: the free value of log entry 7. -/
def State.failLoad (s : State) (e : LoadError) : State :=
  { s with
    err := { code := e.kind.code, track := 0,
             addr := if e.addr < 2 ^ 32 then BitVec.ofNat 32 e.addr else Config.freeErrAddr s.freeSeq, opcode := 0 },
    freeSeq := if e.addr < 2 ^ 32 then s.freeSeq else s.freeSeq + 1,
    loadErr := true, aborted := true }

/-- A loaded track at its first instruction (R74). -/
def Track.loaded (cursor : Word) : Track :=
  { Track.zero with active := true, cursor := cursor, volume := 127, pan := 64 }

/-- The track table of a session: the loaded tracks, and zeros above them (R74). -/
def loadedTracks (ptrs : List Word) : Vector Track 16 :=
  trackTable fun i => match ptrs[i.val]? with
    | some p => Track.loaded p
    | none => Track.zero

/-- Step 3 of `Start()`: the initial state of the session (R72, R74). -/
def State.beginSession (s : State) (l : Loaded) : State :=
  { s with
    song := { numTracks := l.numTracks, priority := l.priority, reverb := l.reverb, instTable := l.instTable },
    tempo := l.tempo, trk := loadedTracks l.tracks, tickAcc := BitVec.ofNat 32 (Config.thr s.sampleRate),
    playing := true }

/-- `Start()` (R72). -/
def State.start (s : State) : State :=
  match loadSong s.rom s.songTable.toNat s.songIndex.toNat with
  | .error e => s.clearSession.failLoad e
  | .ok l => s.clearSession.beginSession l

end Sys2Proof.Machine
end

