-- ==== Sys2Proof/Machine/HostPort.lean ====
section
/-! DEFINITION. The host register window (spec/10_state.md R33 to R35, spec/40_sequencer.md R71). -/

namespace Sys2Proof.Machine

/-- The last word offset of the register window (R34). -/
def lastRegOffset : Nat := 0x3C

/-- A host register access the window has: a whole word, at a multiple of 4, at most 0x3C (R34; log entry 9 for an
offset above the window). -/
def regAccessOk (off : Nat) (size : AccessSize) : Bool := size == .word && off % 4 == 0 && off ≤ lastRegOffset

/-- A well-formed host operation: one that a model may run (R34). -/
def HostOp.wellFormed : HostOp → Bool
  | .readReg off size => regAccessOk off size
  | .writeReg off size _ => regAccessOk off size
  | .renderFrame => true

/-- The value of CTRL: POLICY in bit 2; START and STOP read 0 (R33). -/
def State.ctrlValue (s : State) : Nat := s.policy.toNat * 4

/-- `ReadReg(off)` at a word offset of the window; an unlisted one reads 0 (R33, R34). -/
def State.readReg (s : State) (off : Nat) : Word :=
  match off with
  | 0x00 => BitVec.ofNat 32 s.ctrlValue
  | 0x04 => BitVec.ofNat 32 s.statusValue
  | 0x08 => s.songTable
  | 0x0C => s.songIndex
  | 0x10 => s.err.addr
  | 0x14 => BitVec.ofNat 32 s.err.opcode.toNat
  | 0x18 => s.songTicks
  | 0x1C => BitVec.ofNat 32 s.haltedMask
  | 0x20 => BitVec.ofNat 32 s.songInfoValue
  | 0x24 => BitVec.ofNat 32 s.activeMask
  | 0x28 => BitVec.ofNat 32 s.channelMask
  | _ => 0

/-- `WriteReg(0x00, v)` (R71): POLICY first, then START, or else STOP while playing. -/
def State.writeCtrl (s : State) (v : Word) : State :=
  let s := { s with policy := v.getLsbD 2 }
  if v.getLsbD 0 then s.start
  else if v.getLsbD 1 && s.playing then { s with stopReq := true }
  else s

/-- `WriteReg(off, v)` at a word offset of the window: a write to a read-only or unlisted register is ignored
(R33, R34). -/
def State.writeReg (s : State) (off : Nat) (v : Word) : State :=
  match off with
  | 0x00 => s.writeCtrl v
  | 0x08 => { s with songTable := v }
  | 0x0C => { s with songIndex := v }
  | _ => s

end Sys2Proof.Machine
end

