-- ==== Sys2Proof/Machine/Channels.lean ====
section
/-! DEFINITION. The channel engine: envelope, LFOs, pitch and gain, oscillators (spec/44_channel_engine.md). -/

namespace Sys2Proof.Machine

/-! ### Envelope -/

/-- Step (a) of `ChannelTick(j)`: the gate countdown (R114). -/
def Channel.gateStep (c : Channel) : Channel :=
  match c.state with
  | .idle => c
  | .release => c
  | .attack => if c.gate = 0 then { c with state := .release } else { c with gate := c.gate - 1 }
  | .decay => if c.gate = 0 then { c with state := .release } else { c with gate := c.gate - 1 }
  | .sustain => if c.gate = 0 then { c with state := .release } else { c with gate := c.gate - 1 }

/-- The level after one Attack step (R115). -/
def attackLevel (env a : Nat) : Nat := min 255 (env + a)

/-- The level after one Decay step; the difference does not go below 0, nor the level below S (R115). -/
def decayLevel (env d sus : Nat) : Nat := max sus (env - d)

/-- The level after one Release step; R = 0 releases at once (R115). -/
def releaseLevel (env r : Nat) : Nat := if r = 0 then 0 else env - r

/-- Step (b) of `ChannelTick(j)`: the level step (R115). -/
def Channel.levelStep (c : Channel) : Channel :=
  match c.state with
  | .idle => c
  | .attack =>
    let e := attackLevel c.env.toNat c.voice.attack.toNat
    { c with env := BitVec.ofNat 8 e, state := if e = 255 then .decay else .attack }
  | .decay =>
    let e := decayLevel c.env.toNat c.voice.decay.toNat c.voice.sustain.toNat
    { c with env := BitVec.ofNat 8 e, state := if e = c.voice.sustain.toNat then .sustain else .decay }
  | .sustain => c
  | .release =>
    let e := releaseLevel c.env.toNat c.voice.release.toNat
    { c with env := BitVec.ofNat 8 e, state := if e = 0 then .idle else .release }

/-- `ChannelTick(j)` (R114, R115); an Idle channel is not ticked (R80). -/
def Channel.tick (c : Channel) : Channel := if c.live then c.gateStep.levelStep else c

/-! ### LFOs -/

/-- The triangle `tri(phi)` of an 8-bit phase (R119). -/
def tri (phi : Byte) : Int :=
  if phi.toNat < 64 then phi.toNat else if phi.toNat < 192 then 128 - (phi.toNat : Int) else (phi.toNat : Int) - 256

/-- One LFO's part of `LfoStep(i)` (R120). -/
def Lfo.step (l : Lfo) : Lfo :=
  if l.depth = 0 then { l with offset := 0 }
  else if 0 < l.delayCnt.toNat then { l with delayCnt := l.delayCnt - 1, offset := 0 }
  else { l with phase := l.phase + l.rate, offset := asr (tri (l.phase + l.rate) * l.depth.toNat) 6 }

/-- `LfoStep(i)`: both LFOs of a track (R120). -/
def Track.lfoStep (t : Track) : Track := { t with vib := t.vib.step, trem := t.trem.step }

/-! ### Pitch and gain -/

/-- The semitone table T[0..12] (R122). -/
def semitoneTable : List Nat :=
  [65536, 69433, 73562, 77936, 82570, 87480, 92682, 98193, 104032, 110218, 116772, 123715, 131072]

/-- T[n] (R122). -/
def semitone (n : Nat) : Nat := semitoneTable.getD n 0

/-- The multiplier m of semitone `n` and 1/64 fraction `f` (R123). -/
def pitchMultiplier (n f : Nat) : Nat := semitone n + (semitone (n + 1) - semitone n) * f / 64

/-- `PitchInc(F, B, P)` at a SAMPLE_RATE (R123). -/
def pitchInc (sampleRate f b p : Nat) : Nat :=
  let q := p + 8448 - 64 * b
  let s := q / 64
  f * pitchMultiplier (s % 12) (q % 64) * 2 ^ (s / 12) / (32 * sampleRate)

/-- F and B of a voice (R121). -/
def VoiceKind.pitchBase : VoiceKind → Nat × Nat
  | .directSample b _ f _ _ _ => (f.toNat, b.toNat)
  | .noise _ => (Config.noiseF1024, Config.oscBaseKey)
  | .square _ => (Config.oscF1024, Config.oscBaseKey)
  | .programmableWave _ => (Config.oscF1024, Config.oscBaseKey)

/-- The pitch position P of a key under a track's bend and vibrato, in 1/64 semitone (R121). -/
def pitchPosition (t : Track) (key : Bits7) : Nat :=
  (clamp (64 * (key.toNat : Int) + Config.bendRange * t.bend.toInt + t.vib.offset) 0 8191).toNat

/-- The volume `ve` of a track under its tremolo (R121). -/
def effectiveVolume (t : Track) : Nat := (clamp ((t.volume.toNat : Int) + t.trem.offset) 0 127).toNat

/-- `amp` (R121). -/
def amplitude (env vel ve : Nat) : Nat := env * vel * ve / 2 ^ 14

/-- The right gain of an amplitude (R121). -/
def gainRight (amp pan : Nat) : Nat := amp * pan / 2 ^ 7

/-- The left gain of an amplitude (R121). -/
def gainLeft (amp pan : Nat) : Nat := amp * (128 - pan) / 2 ^ 7

/-- The amplitude of a channel under its owning track (R121). -/
def Channel.amp (c : Channel) (t : Track) : Nat := amplitude c.env.toNat c.vel.toNat (effectiveVolume t)

/-- `Recompute(j)` under the owning track `t` (R121). -/
def Channel.recompute (c : Channel) (sampleRate : Nat) (t : Track) : Channel :=
  { c with
    inc := BitVec.ofNat 57
      (pitchInc sampleRate c.voice.kind.pitchBase.1 c.voice.kind.pitchBase.2 (pitchPosition t c.key)),
    gR := BitVec.ofNat 8 (gainRight (c.amp t) t.pan.toNat),
    gL := BitVec.ofNat 8 (gainLeft (c.amp t) t.pan.toNat) }

/-! ### Oscillators and sample player -/

/-- The eighths of a cycle for which each duty is high (R125). -/
def dutyEighths : List Nat := [1, 2, 4, 6]

/-- Square `Sample(j)` (R125). -/
def squareSample (duty : BitVec 2) (phase : Word) : Int :=
  if phase.toNat / 2 ^ 29 < dutyEighths.getD duty.toNat 0 then 127 else -128

/-- ProgrammableWave `Sample(j)`; `none` if the wave byte is unmapped (R51, R126). -/
def waveSample (r : Rom) (waveAddr phase : Word) : Option Int :=
  let x := phase.toNat / 2 ^ 27
  match r.byte? (waveAddr.toNat + x / 2) with
  | none => none
  | some b => some (16 * ((if x % 2 = 0 then b.toNat / 16 else b.toNat % 16 : Nat) : Int) - 128)

/-- Noise `Sample(j)` (R127). -/
def noiseSample (lfsr : BitVec 15) : Int := if lfsr.getLsbD 0 then -128 else 127

/-- One shift of the noise register (R127). -/
def lfsrShift (short : Bool) (x : BitVec 15) : BitVec 15 :=
  let b := x.getLsbD 0 != x.getLsbD 1
  let y := (x >>> 1) ||| (BitVec.ofNat 15 b.toNat <<< 14)
  if short then (y &&& ~~~(1#15 <<< 6)) ||| (BitVec.ofNat 15 b.toNat <<< 6) else y

/-- `n` shifts of the noise register (R127). -/
def lfsrShifts (short : Bool) : Nat → BitVec 15 → BitVec 15
  | 0, x => x
  | n + 1, x => lfsrShifts short n (lfsrShift short x)

/-- The sample index pos[63:32] (R128). -/
def sampleIndex (pos : BitVec 64) : Nat := pos.toNat / 2 ^ 32

/-- DirectSample `Sample(j)`; `none` if the sample byte is unmapped (R128). -/
def directSample (r : Rom) (dataAddr : Word) (pos : BitVec 64) : Option Int :=
  (r.byte? (dataAddr.toNat + sampleIndex pos)).map sext8

/-- `Sample(j)` (R125 to R128). -/
def Channel.sample (c : Channel) (r : Rom) : Option Int :=
  match c.voice.kind with
  | .square duty => some (squareSample duty c.phase)
  | .programmableWave w => waveSample r w c.phase
  | .noise _ => some (noiseSample c.lfsr)
  | .directSample _ _ _ _ _ dataAddr => directSample r dataAddr c.pos

/-- Advance the phase by `inc`, modulo 2^32 (R125, R126). -/
def Channel.advancePhase (c : Channel) : Channel :=
  { c with phase := BitVec.ofNat 32 (c.phase.toNat + c.inc.toNat) }

/-- Noise `Advance(j)` (R127). -/
def Channel.advanceNoise (c : Channel) (short : Bool) : Channel :=
  { c.advancePhase with lfsr := lfsrShifts short ((c.phase.toNat + c.inc.toNat) / 2 ^ 32) c.lfsr }

/-- DirectSample `Advance(j)`: a loop wraps into [loop_start, length) and keeps the fraction; a one-shot sample that
runs out frees the channel (R128). -/
def Channel.advanceSample (c : Channel) (loop : Bool) (loopStart length : Nat) : Channel :=
  let pos := c.pos.toNat + c.inc.toNat
  let x := pos / 2 ^ 32
  if x < length then { c with pos := BitVec.ofNat 64 pos }
  else if loop then
    { c with pos := BitVec.ofNat 64 (2 ^ 32 * (loopStart + (x - length) % (length - loopStart)) + pos % 2 ^ 32) }
  else { c with pos := BitVec.ofNat 64 pos, state := .idle }

/-- `Advance(j)` (R125 to R128). -/
def Channel.advance (c : Channel) : Channel :=
  match c.voice.kind with
  | .square _ => c.advancePhase
  | .programmableWave _ => c.advancePhase
  | .noise short => c.advanceNoise short
  | .directSample _ loop _ loopStart length _ => c.advanceSample loop loopStart.toNat length.toNat

end Sys2Proof.Machine
end

