-- ==== Sys2Proof/Machine/Mixer.lean ====
section
/-! DEFINITION. The mixer, the reverb and the output clip (spec/45_mixer.md). -/

namespace Sys2Proof.Machine

/-- The accumulators (accL, accR) after the channels of the list, each that is live adding its sample times its gains;
`none` if a live channel's sample is unmapped (R129). -/
def mixSum (r : Rom) : List Channel → Option (Int × Int)
  | [] => some (0, 0)
  | c :: rest =>
    match mixSum r rest with
    | none => none
    | some (accL, accR) =>
      if c.live then
        match c.sample r with
        | none => none
        | some x => some (x * c.gL.toNat + accL, x * c.gR.toNat + accR)
      else some (accL, accR)

/-- Advance a channel that is live at the start of the frame (R129). -/
def Channel.frameAdvance (c : Channel) : Channel := if c.live then c.advance else c

/-- Bit 7 of the song's reverb byte enables the reverb (R131). -/
def SongRecord.reverbOn (g : SongRecord) : Bool := g.reverb.getLsbD 7

/-- The reverb amount d, bits 6..0 of the reverb byte (R131). -/
def SongRecord.reverbAmount (g : SongRecord) : Nat := g.reverb.toNat % 128

/-- One side of the reverb: the output, which is also the new delay-line entry (R131). -/
def reverbSide (acc : Int) (line : Half) (d : Nat) : Half := sat16 (acc + asr (line.toInt * d) 7)

/-- `Reverb(accL, accR)` with amount `d` on a line of `n` frames: (L, R) and the new line (R131). -/
def ReverbLine.apply (v : ReverbLine) (n d : Nat) (accL accR : Int) : Half × Half × ReverbLine :=
  let l := reverbSide accL (v.dl.getD v.idx 0) d
  let r := reverbSide accR (v.dr.getD v.idx 0) d
  (l, r, { dl := v.dl.set v.idx l, dr := v.dr.set v.idx r, idx := (v.idx + 1) % n })

/-- (L, R) and the reverb line after a frame with the accumulators given (R129). -/
def State.outputFrame (s : State) (accL accR : Int) : Half × Half × ReverbLine :=
  if s.song.reverbOn then
    s.rv.apply (Config.reverbDelayFrames s.sampleRate) s.song.reverbAmount accL accR
  else (sat16 accL, sat16 accR, s.rv)

/-- `Mix()` (R129): the state after it, and the frame (L, R); `none` if a live channel's sample is unmapped. Every
channel's sample and advance depend on that channel alone, so the samples are summed first. -/
def State.mix (s : State) : Option (State × Half × Half) :=
  match mixSum s.rom s.ch.toList with
  | none => none
  | some (accL, accR) =>
    let out := s.outputFrame accL accR
    some ({ s with ch := chanTable fun j => s.ch[j].frameAdvance, rv := out.2.2 }, out.1, out.2.1)

end Sys2Proof.Machine
end

