-- ==== Sys2Proof/Machine/Sequencer.lean ====
section
/-! DEFINITION. The host operations, the frame step and the tick step, cut into steps at the points their rules name
(spec/40_sequencer.md R70, R76, R80, R81, R84; log entry 6). -/

namespace Sys2Proof.Machine

/-! ### Fetch (R67) -/

/-- The mapped bytes from `a` on, up to the first unmapped one and at most `n`. -/
def fetchBytes (r : Rom) (a : Nat) : Nat → List Byte
  | 0 => []
  | n + 1 => match r.byte? a with
    | none => []
    | some b => b :: fetchBytes r (a + 1) n

/-- The error a failed decode raises (R67, R139): a byte that is not there is unmapped. -/
def decodeErrKind : DecodeError → ErrKind
  | .missingByte => .outOfRange
  | .unsupportedOpcode _ => .unsupportedOpcode

/-- Decode the instruction at the address `a` (R67). -/
def fetchAt (r : Rom) (a : Nat) : Except ErrKind Instr :=
  match decode (fetchBytes r a maxInstrBytes) with
  | .ok (i, _) => .ok i
  | .error e => .error (decodeErrKind e)

/-- Decode the instruction at the executing track's cursor (R67). -/
def State.fetch (s : State) : Except ErrKind Instr := fetchAt s.rom s.curAddr

/-! ### The tick step (R80) -/

/-- Phase 1 goes on to the next track, or is done (R80). -/
def State.nextTrack (s : State) : State :=
  if h : s.cur.val + 1 < s.trackCount then
    { s with cur := ⟨s.cur.val + 1, by unfold State.trackCount Config.maxTracks at h; omega⟩, control := .enter }
  else { s with control := .post }

/-- The start of `TrackStep(i)`: the due counter (R81). -/
def Track.countDown (t : Track) : Track := if 0 < t.due.toNat then { t with due := t.due - 1 } else t

/-- Phase 1 takes the track `cur`: an active one is stepped, from its due counter on (R80, R81). -/
def State.enterTrack (s : State) : State :=
  if s.cur.val < s.trackCount then
    if s.curTrack.active then { s.setCur s.curTrack.countDown with control := .pull } else s.nextTrack
  else { s with control := .post }

/-- The pull loop of the track `cur` takes another instruction (R81). -/
def State.pulls (s : State) : Bool := s.curTrack.active && s.curTrack.due == 0

/-- Phase 2: the LFOs of every loaded track, active or not (R80). -/
def State.lfoPhase (s : State) : State :=
  { s with trk := trackTable fun i => if i.val < s.song.numTracks.toNat then s.trk[i].lfoStep else s.trk[i] }

/-- Phase 3: the envelope step of every live channel (R80). -/
def State.envelopePhase (s : State) : State := { s with ch := chanTable fun j => s.ch[j].tick }

/-- Phase 4: the recompute of every live channel, under its owning track (R80, R121). -/
def State.recomputePhase (s : State) : State :=
  { s with ch := chanTable fun j =>
      if s.ch[j].live then s.ch[j].recompute s.sampleRate s.trk[s.ch[j].track] else s.ch[j] }

/-- Phase 5: count the tick, modulo 2^32 (R80, R150). -/
def State.countPhase (s : State) : State := { s with songTicks := s.songTicks + 1 }

/-- The track indices in ascending order. -/
def trackIndices : List TrackIdx := [0, 1, 2, 3, 4, 5, 6, 7, 8, 9, 10, 11, 12, 13, 14, 15]

/-- No loaded track is active (R80). -/
def State.allInactive (s : State) : Bool :=
  trackIndices.all fun i => !(decide (i.val < s.song.numTracks.toNat) && s.trk[i].active)

/-- `SongEnd()` (R84). -/
def State.songEnd (s : State) : State := { s.silence with ended := true, playing := false }

/-- Phase 6: the song ends when no loaded track is active (R80, R84). -/
def State.endPhase (s : State) : State := if s.allInactive then s.songEnd else s

/-- Phases 2 to 6 of `Tick()`; RenderFrame is then at its loop test again (R76, R80). -/
def State.finishTick (s : State) : State :=
  { s.lfoPhase.envelopePhase.recomputePhase.countPhase.endPhase with control := .boundary }

/-! ### The frame step (R76) -/

/-- A tick is due: `tick_acc >= THR` (R76). -/
def State.tickDue (s : State) : Bool := Config.thr s.sampleRate ≤ s.tickAcc.toNat

/-- A pending STOP is honoured (R75, R76). -/
def State.honourStop (s : State) : State := { s.silence with stopReq := false, playing := false }

/-- A tick begins: THR is taken from the accumulator, and phase 1 starts at track 0 (R76, R80). -/
def State.beginTick (s : State) : State :=
  { s with tickAcc := BitVec.ofNat 32 (s.tickAcc.toNat - Config.thr s.sampleRate), cur := 0, control := .enter }

/-- `tick_acc <- tick_acc + 48 * tempo` (R76). -/
def State.accumulate (s : State) : State :=
  { s with tickAcc := BitVec.ofNat 32 (s.tickAcc.toNat + Config.accPerTempo * s.tempo.toNat) }

/-- RenderFrame at its loop test (R76): NONE when nothing plays, a tick boundary, or a frame. -/
def stepBoundary (s : State) : Host.Outcome State Fault Refusal :=
  if !s.playing then .next (s.answer .noFrame)
  else if s.tickDue then
    if s.stopReq then .next (s.honourStop.answer .noFrame) else .next s.beginTick
  else match s.mix with
    | none => .fault .unmappedSample
    | some (t, l, r) => .next (t.accumulate.answer (.frame l r))

/-! ### The host operations (R70) -/

/-- A whole-word host register operation, or the start of a RenderFrame (R70). -/
def State.perform (s : State) : HostOp → State
  | .readReg off _ => s.answer (.word (s.readReg off))
  | .writeReg off _ v => (s.writeReg off v).answer .written
  | .renderFrame => { s with control := .boundary }

/-- The refusal of an operation that is not well formed (R34). -/
def HostOp.refusal : HostOp → Refusal
  | .readReg off size => .badRegisterAccess off size
  | .writeReg off size _ => .badRegisterAccess off size
  | .renderFrame => .badConfiguration

/-- Between host operations: the next one begins. With none to come the block does nothing and holds its state
(R70, R154). -/
def stepIdle (s : State) : Host.Outcome State Fault Refusal :=
  match s.pending with
  | [] => .next s
  | op :: rest => if op.wellFormed then .next ({ s with pending := rest }.perform op) else .refused op.refusal

end Sys2Proof.Machine
end

