-- ==== Sys2Proof/Machine/Step.lean ====
section
/-! DEFINITION. One step of the machine, and how one instruction is placed for it to run. -/

namespace Sys2Proof.Machine

/-- One turn of the pull loop (R81): an abort ends the tick and the RenderFrame in progress, which returns NONE
(R80, R141); else the next instruction of the track is decoded and executed, or its decode error is taken (R67, R140);
else phase 1 goes on. -/
def stepPull (s : State) : Host.Outcome State Fault Refusal :=
  if !s.playing then .next (s.answer .noFrame)
  else if s.pulls then
    match s.fetch with
    | .ok i => exec i s
    | .error e => .next (s.takeError e)
  else .next s.nextTrack

/-- One step of the machine. A configuration outside its ranges is refused (R11). -/
def step (s : State) : Host.Outcome State Fault Refusal :=
  if Config.wellFormed s.sampleRate s.rom.size then
    match s.control with
    | .idle => stepIdle s
    | .boundary => stepBoundary s
    | .enter => .next s.enterTrack
    | .pull => stepPull s
    | .post => .next s.finishTick
  else .refused .badConfiguration

/-- The address `withFetchWord` stores at: the executing track's cursor, or ROM_BASE when the longest instruction does
not fit into the ROM there. -/
def State.fetchSlot (s : State) : Nat :=
  if s.rom.mappedRange s.curAddr maxInstrBytes then s.curAddr else Config.romBase

/-- `s` with the instruction whose bits are `w` stored where the next step fetches, and all set that the fetch takes
(log entry 10): the executing track is active and due and its cursor is at the bytes, a session plays, and its pull
loop is at its test. A configuration that no step would run, or a ROM shorter than the longest instruction, is replaced
by that of `State.reset`. -/
def State.withFetchWord (s : State) (nbits w : Nat) : State :=
  let s :=
    if Config.wellFormed s.sampleRate s.rom.size && maxInstrBytes ≤ s.rom.size then s
    else { s with sampleRate := Config.resetSampleRate, rom := ⟨Config.resetRomSize, []⟩ }
  let a := s.fetchSlot
  { s.setCur { s.curTrack with active := true, due := 0, cursor := BitVec.ofNat 32 a } with
    rom := s.rom.writeBytes a (tableBytes nbits w), playing := true, control := .pull }

end Sys2Proof.Machine
end

