-- ==== Sys2Proof/Safety.lean ====
section
/-! DEFINITION. What the statements about the machine speak of: what an instruction leaves alone, and the invariant that
every step keeps, in named parts. -/

namespace Sys2Proof.Machine

/-! ### Frames -/

/-- Everything outside the track files, the channel pool, `tempo` and `alloc_seq` is the same in `t` as in `s`: the
parameters, every byte of memory, the session flags, the tick clock, the song record, the error record, the reverb
line, the host registers, and the model's own fields. -/
structure SameElsewhere (s t : State) : Prop where
  sampleRate : t.sampleRate = s.sampleRate
  romSize : t.rom.size = s.rom.size
  memory : ∀ a, t.rom.byte? a = s.rom.byte? a
  playing : t.playing = s.playing
  ended : t.ended = s.ended
  aborted : t.aborted = s.aborted
  loadErr : t.loadErr = s.loadErr
  trackErr : t.trackErr = s.trackErr
  stopReq : t.stopReq = s.stopReq
  tickAcc : t.tickAcc = s.tickAcc
  songTicks : t.songTicks = s.songTicks
  song : t.song = s.song
  err : t.err = s.err
  rv : t.rv = s.rv
  policy : t.policy = s.policy
  songTable : t.songTable = s.songTable
  songIndex : t.songIndex = s.songIndex
  pending : t.pending = s.pending
  answers : t.answers = s.answers
  control : t.control = s.control
  cur : t.cur = s.cur
  freeSeq : t.freeSeq = s.freeSeq

/-- The executing track's register file in `t` is `u`, and every other track's is as in `s`. -/
def CurTrackBecomes (s t : State) (u : Track) : Prop :=
  t.trk[s.cur] = u ∧ ∀ j : TrackIdx, j ≠ s.cur → t.trk[j] = s.trk[j]

/-- Only the executing track's register file changes, and it becomes `u`. -/
def OnlyCurTrack (s t : State) (u : Track) : Prop :=
  CurTrackBecomes s t u ∧ t.ch = s.ch ∧ t.tempo = s.tempo ∧ t.allocSeq = s.allocSeq ∧ SameElsewhere s t

/-- The outcome is a next state with the property `p`. -/
def AnswersNext (o : Host.Outcome State Fault Refusal) (p : State → Prop) : Prop := ∃ t, o = .next t ∧ p t

/-- The state is at the pull loop of an active, due track of a session that plays, under a configuration that runs:
the next step takes an instruction (R81). -/
def State.AtPull (s : State) : Prop :=
  Config.wellFormed s.sampleRate s.rom.size = true ∧ s.control = .pull ∧ s.playing = true ∧ s.pulls = true

/-- The bytes `bs` are mapped and stored from the address `a` on. -/
def Rom.holds (r : Rom) (a : Nat) (bs : List Byte) : Prop := ∀ k, (h : k < bs.length) → r.byte? (a + k) = some bs[k]

/-- The opcode byte is one of the unsupported ones, as R64 lists them. -/
def IsUnsupported (b : Byte) : Prop :=
  b.toNat ≤ 0x7F ∨ (0x81 ≤ b.toNat ∧ b.toNat ≤ 0xB0) ∨ (0xB5 ≤ b.toNat ∧ b.toNat ≤ 0xBA) ∨ b.toNat = 0xBC ∨
    (0xC1 ≤ b.toNat ∧ b.toNat ≤ 0xC3) ∨ b.toNat = 0xC5 ∨ (0xC7 ≤ b.toNat ∧ b.toNat ≤ 0xCE)

/-- The channel with index `j` comes before or is the one with index `i` in the stealing order (class, stamp, index),
class 0 being Release (R90). -/
def StealBefore (ch : Vector Channel 12) (j i : ChanIdx) : Prop :=
  (ch[j].state = .release ∧ ch[i].state ≠ .release) ∨
    ((ch[j].state = .release ↔ ch[i].state = .release) ∧
      (ch[j].stamp.toNat < ch[i].stamp.toNat ∨ (ch[j].stamp = ch[i].stamp ∧ j ≤ i)))

/-- The envelope phase `b` may follow `a` within one step (R113): by the transitions of R113, a gate expiry and a last
release step falling into one tick included. -/
def EnvFollows (a b : EnvState) : Prop :=
  a = b ∨ b = .idle ∨ b = .attack ∨ (a = .attack ∧ b = .decay) ∨ (a = .decay ∧ b = .sustain) ∨
    ((a = .attack ∨ a = .decay ∨ a = .sustain) ∧ b = .release)

/-- The track pointer `i` of the header at `h` is `p`: readable, not 0 and mapped (R73). -/
def PointerGood (r : Rom) (h i p : Nat) : Prop := r.read? (h + 8 + 4 * i) 4 = some p ∧ p ≠ 0 ∧ r.mapped p = true

/-- The track pointer `i` of the header at `h` is unreadable, 0 or unmapped (R73). -/
def PointerBad (r : Rom) (h i : Nat) : Prop := ∀ p, ¬PointerGood r h i p

/-- The song table at `t` has an entry `k` that reads as header `h`, priority `prio` and reverb `rev` (R46, R73). -/
def EntryReads (r : Rom) (t k h prio rev : Nat) : Prop :=
  (∃ count, r.read? t 4 = some count ∧ k < count) ∧ r.read? (t + 4 + 8 * k) 4 = some h ∧
    r.read? (t + 4 + 8 * k + 4) 1 = some prio ∧ r.read? (t + 4 + 8 * k + 5) 1 = some rev

/-- The header at `h` is not null and mapped, and reads as `n` tracks, tempo `t0` and instrument table `inst`
(R47, R73). -/
def HeaderReads (r : Rom) (h n t0 inst : Nat) : Prop :=
  h ≠ 0 ∧ (∀ k, k < 8 → r.mapped (h + k) = true) ∧ r.read? h 1 = some n ∧ r.read? (h + 1) 1 = some t0 ∧
    r.read? (h + 4) 4 = some inst

/-- The number of live channels (R88). -/
def liveCount (ch : Vector Channel 12) : Nat := (ch.toList.filter (·.live)).length

/-! ### What a rule gives, in the rule's own terms -/

/-- `u32(d[i..i+3])`, the little-endian value of four descriptor bytes (R52). -/
def u32At (d : List Byte) (i : Nat) : Nat :=
  (d.getD i 0).toNat + (d.getD (i + 1) 0).toNat * 2 ^ 8 + (d.getD (i + 2) 0).toNat * 2 ^ 16 +
    (d.getD (i + 3) 0).toNat * 2 ^ 24

/-- What the case of R52 on the kind byte gives for a descriptor `d` that is no KeySplit is `o`; `none` is ParseError.
The sample header is at `w = u32(d[4..7])`, laid out by R50. -/
def DescriptorGives (r : Rom) (d : List Byte) (o : Option Voice) : Prop :=
  let w := u32At d 4
  let voice := fun kind : VoiceKind => some (Voice.mk kind (d.getD 8 0) (d.getD 9 0) (d.getD 10 0) (d.getD 11 0))
  (d.getD 0 0 = 0x01 → o = voice (.square ((d.getD 4 0).setWidth 2))) ∧
  (d.getD 0 0 = 0x04 → o = voice (.noise ((d.getD 4 0).getLsbD 0))) ∧
  (d.getD 0 0 = 0x03 → (∀ n, n < 16 → r.mapped (w + n) = true) → o = voice (.programmableWave (BitVec.ofNat 32 w))) ∧
  (d.getD 0 0 = 0x03 → (∃ n, n < 16 ∧ r.mapped (w + n) = false) → o = none) ∧
  (d.getD 0 0 = 0x00 → (∃ n, n < 16 ∧ r.mapped (w + n) = false) → o = none) ∧
  (d.getD 0 0 = 0x00 → (∀ n, n < 16 → r.mapped (w + n) = true) →
    ∃ flags f ls len : Nat, r.read? (w + 2) 2 = some flags ∧ r.read? (w + 4) 4 = some f ∧
      r.read? (w + 8) 4 = some ls ∧ r.read? (w + 12) 4 = some len ∧
      (len = 0 → o = none) ∧
      ((∃ n, n < len ∧ r.mapped (w + 16 + n) = false) → o = none) ∧
      (flags.testBit 14 = true → len ≤ ls → o = none) ∧
      (0 < len → (∀ n, n < len → r.mapped (w + 16 + n) = true) → (flags.testBit 14 = true → ls < len) →
        o = voice (.directSample ((d.getD 1 0).setWidth 7) (flags.testBit 14) (BitVec.ofNat 32 f)
          (BitVec.ofNat 32 ls) (BitVec.ofNat 32 len) (BitVec.ofNat 32 (w + 16))))) ∧
  (d.getD 0 0 ≠ 0x00 → d.getD 0 0 ≠ 0x01 → d.getD 0 0 ≠ 0x03 → d.getD 0 0 ≠ 0x04 → o = none)

/-- (F, B) of a voice, with the constants OSC_F1024, NOISE_F1024 and OSC_BASE_KEY written out (R10, R121). -/
def pitchParameters : VoiceKind → Nat × Nat
  | .directSample b _ f _ _ _ => (f.toNat, b.toNat)
  | .noise _ => (14417920, 69)
  | .square _ => (450560, 69)
  | .programmableWave _ => (450560, 69)

/-- `Recompute` of R121 takes the channel `c`, owned by the track `u`, to `d`. -/
def RecomputesTo (sampleRate : Nat) (u : Track) (c d : Channel) : Prop :=
  ∃ p ve : Nat,
    (p : Int) = min 8191 (max 0 (64 * (c.key.toNat : Int) + 2 * u.bend.toInt + u.vib.offset)) ∧
    (ve : Int) = min 127 (max 0 ((u.volume.toNat : Int) + u.trem.offset)) ∧
    d = { c with inc := d.inc, gL := d.gL, gR := d.gR } ∧
    d.inc.toNat = pitchInc sampleRate (pitchParameters c.voice.kind).1 (pitchParameters c.voice.kind).2 p ∧
    d.gR.toNat = c.env.toNat * c.vel.toNat * ve / 2 ^ 14 * u.pan.toNat / 2 ^ 7 ∧
    d.gL.toNat = c.env.toNat * c.vel.toNat * ve / 2 ^ 14 * (128 - u.pan.toNat) / 2 ^ 7

/-- Advancing adds `inc` to `phase`, modulo 2^32 (R125, R126, R127). -/
def PhaseAdvances (c d : Channel) : Prop := d.phase.toNat = (c.phase.toNat + c.inc.toNat) % 2 ^ 32

/-- Phase 1 of the tick goes on from `s` to `t`: to the next loaded track, or from the last one to phases 2 to 6, and
nothing but the model's control fields changes (R80; log entry 6). -/
def PhaseOneGoesOn (s t : State) : Prop :=
  t = { s with control := t.control, cur := t.cur } ∧
    if s.cur.val + 1 < min s.song.numTracks.toNat 16 then t.control = .enter ∧ t.cur.val = s.cur.val + 1
    else t.control = .post

/-! ### The invariant -/

/-- No cursor and no return address is above this bound (R27). -/
def Rom.cursorBound (r : Rom) : Nat := Config.romBase + r.size + 5

/-- An LFO offset lies in -255..255 (R25, R120). -/
def Lfo.InRange (l : Lfo) : Prop := -255 ≤ l.offset ∧ l.offset ≤ 255

/-- What holds of every track. -/
structure Track.Inv (r : Rom) (t : Track) : Prop where
  /-- R27. -/
  cursor : t.cursor.toNat < r.cursorBound
  /-- R27: a Return restores a value a Call wrote. -/
  stack : ∀ k, k < 3 → (t.stackAt k).toNat < r.cursorBound
  /-- R120. -/
  vib : t.vib.InRange
  /-- R120. -/
  trem : t.trem.InRange
  /-- A halted track is not active (R142, R146). -/
  flags : ¬(t.active = true ∧ t.halted = true)

/-- Every byte that the oscillator or sample player of the voice can read is mapped, and a loop starts inside the
sample (R52). -/
def VoiceKind.Playable (r : Rom) : VoiceKind → Prop
  | .square _ => True
  | .noise _ => True
  | .programmableWave w => ∀ n, n < 16 → r.mapped (w.toNat + n) = true
  | .directSample _ loop _ loopStart length dataAddr =>
    0 < length.toNat ∧ (∀ n, n < length.toNat → r.mapped (dataAddr.toNat + n) = true) ∧
      (loop = true → loopStart.toNat < length.toNat)

/-- The noise register is in its cycle: not 0, and in the 7-bit mode its low seven bits are not all 0 (R127). -/
def LfsrRunning (short : Bool) (x : BitVec 15) : Prop := if short then x.toNat % 128 ≠ 0 else x ≠ 0

/-- The position of a live channel is one its voice allows: a sample index below the length (R128), a noise register
that has not reached 0 (R127). -/
def Channel.PositionOk (c : Channel) : Prop :=
  match c.voice.kind with
  | .square _ => True
  | .programmableWave _ => True
  | .noise short => LfsrRunning short c.lfsr
  | .directSample _ _ _ _ length _ => sampleIndex c.pos < length.toNat

/-- What holds of every channel. -/
structure Channel.Inv (r : Rom) (c : Channel) : Prop where
  /-- R52, R53. -/
  playable : c.live = true → c.voice.kind.Playable r
  /-- R127, R128. -/
  position : c.live = true → c.PositionOk
  /-- R130. -/
  gains : c.gL.toNat + c.gR.toNat ≤ 251

/-- What holds of the session's flags, clock and records. -/
structure State.SessionInv (s : State) : Prop where
  /-- R23: `tick_acc < THR + 48*255`. -/
  tickAcc : s.tickAcc.toNat < Config.thr s.sampleRate + Config.accPerTempo * 255
  /-- R24. -/
  maxTracks : s.song.numTracks.toNat ≤ Config.maxTracks
  /-- R24. -/
  someTrack : s.playing = true → 1 ≤ s.song.numTracks.toNat
  /-- R87: a session that plays has neither ended nor been aborted. -/
  playing : s.playing = true → s.ended = false ∧ s.aborted = false
  /-- R87: at most one of the two. -/
  outcome : ¬(s.ended = true ∧ s.aborted = true)
  /-- R72, R144. -/
  loadErr : s.loadErr = true → s.aborted = true
  /-- R71: a STOP is pending only while a session plays. -/
  stopReq : s.stopReq = true → s.playing = true
  /-- R157: when no session plays, every channel is Idle. -/
  silent : s.playing = false → ∀ j : ChanIdx, s.ch[j].live = false
  /-- R74: the tracks above `num_tracks` are never active. -/
  unloaded : ∀ i : TrackIdx, s.song.numTracks.toNat ≤ i.val → s.trk[i].active = false
  /-- R23, R142. -/
  trackErr : s.trackErr = true ↔ ∃ i : TrackIdx, s.trk[i].halted = true
  /-- R136: the codes 7 to 15 are never produced. -/
  errCode : s.err.code.toNat ≤ 6
  /-- R32. -/
  lineL : s.rv.dl.length = Config.reverbDelayFrames s.sampleRate
  /-- R32. -/
  lineR : s.rv.dr.length = Config.reverbDelayFrames s.sampleRate
  /-- R32. -/
  lineIdx : s.rv.idx < Config.reverbDelayFrames s.sampleRate

/-- What holds of the model's control fields (log entry 6). -/
structure State.ControlInv (s : State) : Prop where
  /-- Phase 1 of a tick is at a loaded track. -/
  loaded : s.control = .enter ∨ s.control = .pull → s.cur.val < s.song.numTracks.toNat
  /-- A tick that an abort has not cut short runs in a session that plays. -/
  playing : s.control = .enter ∨ s.control = .post → s.playing = true
  /-- A tick begins only when no STOP is pending, and no host operation comes inside it (R70, R76). -/
  noStop : s.control = .enter ∨ s.control = .pull ∨ s.control = .post → s.stopReq = false

/-- The invariant: it holds after power-on reset, and every step keeps it. -/
structure State.Inv (s : State) : Prop where
  /-- R10, R11. -/
  config : Config.wellFormed s.sampleRate s.rom.size = true
  /-- The memory is in canonical form. -/
  rom : s.rom.wf
  tracks : ∀ i : TrackIdx, s.trk[i].Inv s.rom
  channels : ∀ j : ChanIdx, s.ch[j].Inv s.rom
  session : s.SessionInv
  control : s.ControlInv

end Sys2Proof.Machine
end

