-- ==== Sys2Proof/Certificates/Slice0/Obligations.lean ====
section
/-! DEFINITION. The statements for the provers. Each docstring names the rule of spec/ it formalises or rests on. -/

open Sys2Proof Sys2Proof.Machine

/-! ### Encoding (spec/30_encoding.md) -/

/-- Decoding the canonical bytes of any instruction, whatever follows them, gives the instruction and the rest. -/
def Obligations.DecodeOfEncode : Prop :=
  ∀ (i : Instr) (rest : List Byte), i.wellFormed = true → decode (encode i ++ rest) = .ok (i, rest)

/-- R66: the length of a decoded instruction is fixed by its opcode byte alone, is what the rule says for each
instruction, and is what decoding consumes. -/
def Obligations.LengthFixedByOpcodeByte : Prop :=
  (∀ b0 tail₁ tail₂ i₁ i₂ rest₁ rest₂, decode (b0 :: tail₁) = .ok (i₁, rest₁) →
      decode (b0 :: tail₂) = .ok (i₂, rest₂) → i₁.byteLength = i₂.byteLength) ∧
    (∀ bs i rest, decode bs = .ok (i, rest) → bs.drop i.byteLength = rest ∧ bs.length = i.byteLength + rest.length) ∧
    (∀ i : Instr, i.byteLength = match i with
      | .eot | .ret => 1
      | .rest _ | .tie _ | .prog _ | .vol _ | .pan _ | .bend _ | .tempo _ => 2
      | .vib _ _ _ | .trem _ _ _ | .note _ _ _ => 4
      | .jump _ | .call _ => 5)

/-- R64: the opcode bytes the rule lists, 195 of them, and no others are rejected as unsupported, whatever bytes
follow; executing one takes UnsupportedOpcodeError, also where no operand byte is mapped. -/
def Obligations.UnsupportedOpcodesAreRejected : Prop :=
  (∀ b0 rest, decode (b0 :: rest) = .error (.unsupportedOpcode b0) ↔ IsUnsupported b0) ∧
    ((List.range 256).filter fun n => (opcodeOf (BitVec.ofNat 8 n)).isNone).length = 195 ∧
    ∀ (s : State) b0, s.AtPull → s.rom.byte? s.curAddr = some b0 → IsUnsupported b0 →
      step s = .next (s.takeError .unsupportedOpcode) ∧
        ∀ j : TrackIdx, (s.takeError .unsupportedOpcode).trk[j] = s.trk[j] ∨
          (j = s.cur ∧ s.policy = false ∧
            (s.takeError .unsupportedOpcode).trk[j] = { s.trk[j] with active := false, halted := true })

/-- R63: all 48 opcode bytes 0xD0 to 0xFF decode to the same NOTE with the same operands, and no other byte does. -/
def Obligations.AllNoteOpcodesAreOneNote : Prop :=
  (∀ b0 b1 b2 b3 : Byte, ∀ rest, 0xD0 ≤ b0.toNat →
      decode (b0 :: b1 :: b2 :: b3 :: rest) = .ok (.note (b1.setWidth 7) (b2.setWidth 7) b3, rest)) ∧
    ∀ b0 tail key vel gate rest, decode (b0 :: tail) = .ok (.note key vel gate, rest) → 0xD0 ≤ b0.toNat

/-- Instruction words written out from the spec's encoding tables (R61, R62) and its examples (95_test_vectors.md
section 2.1) decode to the instructions they stand for. -/
def Obligations.SpecWordsDecode : Prop :=
  decode [0x80, 0x04] = .ok (.rest 4, []) ∧ decode [0xCF, 0x02] = .ok (.tie 2, []) ∧
    decode [0xD0, 0x3C, 0x7F, 0x04] = .ok (.note 60 127 4, []) ∧
    decode [0xE7, 0xBC, 0xFF, 0x04] = .ok (.note 60 127 4, []) ∧
    decode [0xC0, 0x00] = .ok (.bend (BitVec.ofInt 7 (-64)), []) ∧ decode [0xC0, 0xC0] = .ok (.bend 0, []) ∧
    decode [0xBE, 0xFF] = .ok (.vol 127, []) ∧ decode [0xC6, 0x20, 0x40, 0x02] = .ok (.trem 32 64 2, []) ∧
    decode [0xB2, 0x40, 0x01, 0x00, 0x08] = .ok (.jump 0x08000140, []) ∧
    decode [0xB3, 0x30, 0x01, 0x00, 0x08] = .ok (.call 0x08000130, []) ∧
    decode [0xB4] = .ok (.ret, []) ∧ decode [0xB1] = .ok (.eot, [])

/-! ### Memory (spec/20_memory.md) -/

/-- R41: MemRead answers the sum of the bytes, each shifted by 8 bits more, when all are mapped, and fails when one is
not. -/
def Obligations.MemReadIsLittleEndian : Prop :=
  ∀ (r : Rom) (a n : Nat),
    ((∀ k, k < n → r.mapped (a + k) = true) →
      r.read? a n = some (((List.range n).map fun k => ((r.byte? (a + k)).getD 0).toNat * 2 ^ (8 * k)).sum)) ∧
    ((∃ k, k < n ∧ r.mapped (a + k) = false) → r.read? a n = none)

/-- The block never writes its ROM and never changes its parameters (20_memory.md sections 3 and 7). -/
def Obligations.NoStepWritesTheRom : Prop :=
  ∀ s t : State, step s = .next t → t.sampleRate = s.sampleRate ∧ t.rom.size = s.rom.size ∧
    ∀ a, t.rom.byte? a = s.rom.byte? a

/-- Voice resolution (20_memory.md sections 4 and 5): an unmapped descriptor; a descriptor that is no KeySplit, by its
kind code; and a KeySplit one, whose key map selects a sub-voice that is resolved by its own kind code. -/
def Obligations.ResolveByKindCode : Prop :=
  ∀ (r : Rom) (inst p k : Nat),
    (r.bytes? (inst + 12 * p) 12 = none → resolve r inst p k = none) ∧
    ∀ d, r.bytes? (inst + 12 * p) 12 = some d →
      (d.getD 0 0 ≠ 0x40 → DescriptorGives r d (resolve r inst p k)) ∧
      (d.getD 0 0 = 0x40 →
        (r.byte? (u32At d 8 + k) = none → resolve r inst p k = none) ∧
        ∀ idx, r.byte? (u32At d 8 + k) = some idx →
          (r.bytes? (u32At d 4 + 12 * idx.toNat) 12 = none → resolve r inst p k = none) ∧
          ∀ sub, r.bytes? (u32At d 4 + 12 * idx.toNat) 12 = some sub →
            (sub.getD 0 0 = 0x40 → resolve r inst p k = none) ∧
            (sub.getD 0 0 ≠ 0x40 → DescriptorGives r sub (resolve r inst p k)))

/-- Whatever Resolve answers can be played: each byte the oscillator or sample player can read is mapped, a sample is
not empty, and a loop starts inside it (20_memory.md section 5). -/
def Obligations.ResolvedVoicesArePlayable : Prop :=
  ∀ (r : Rom) (inst p k : Nat) (v : Voice), r.size ≤ Config.romSizeMax → resolve r inst p k = some v →
    v.kind.Playable r

/-! ### One step and one instruction -/

/-- When the bytes at the executing track's cursor are those of an instruction, the step is exactly its meaning. -/
def Obligations.StepRunsTheDecodedInstruction : Prop :=
  ∀ (s : State) (bs : List Byte) (i : Instr), s.AtPull → s.rom.holds s.curAddr bs → decode bs = .ok (i, []) →
    i.wellFormed = true → step s = exec i s

/-- The errors of decoding, in their order (60_exceptions.md section 2): an unmapped opcode byte, an unsupported opcode
byte whatever is mapped after it, then an unmapped operand byte. -/
def Obligations.DecodeErrorsInOrder : Prop :=
  ∀ s : State, s.AtPull →
    (s.rom.byte? s.curAddr = none → step s = .next (s.takeError .outOfRange)) ∧
    (∀ b0, s.rom.byte? s.curAddr = some b0 → opcodeOf b0 = none → step s = .next (s.takeError .unsupportedOpcode)) ∧
    (∀ b0 op k, s.rom.byte? s.curAddr = some b0 → opcodeOf b0 = some op → 1 ≤ k → k < op.format.byteLength →
      s.rom.mapped (s.curAddr + k) = false → step s = .next (s.takeError .outOfRange))

/-- REST (41_note_events.md section 3). -/
def Obligations.RestWaits : Prop :=
  ∀ (dur : Byte) (s : State), AnswersNext (exec (.rest dur) s) fun t =>
    OnlyCurTrack s t { s.trk[s.cur] with due := dur, cursor := s.trk[s.cur].cursor + 2 }

/-- TIE (41_note_events.md section 4): the held channels of the track, and no others, are extended; the gate saturates. -/
def Obligations.TieExtendsHeldNotes : Prop :=
  ∀ (dur : Byte) (s : State), AnswersNext (exec (.tie dur) s) fun t =>
    CurTrackBecomes s t { s.trk[s.cur] with due := dur, cursor := s.trk[s.cur].cursor + 2 } ∧
    (∀ j : ChanIdx,
      (s.ch[j].track = s.cur →
        s.ch[j].state = .attack ∨ s.ch[j].state = .decay ∨ s.ch[j].state = .sustain →
          ∃ g : Half, t.ch[j] = { s.ch[j] with gate := g } ∧
            g.toNat = min 65535 (s.ch[j].gate.toNat + dur.toNat)) ∧
      (s.ch[j].track ≠ s.cur ∨ s.ch[j].state = .release ∨ s.ch[j].state = .idle → t.ch[j] = s.ch[j])) ∧
    t.tempo = s.tempo ∧ t.allocSeq = s.allocSeq ∧ SameElsewhere s t

/-- NOTE with a voice that resolves (41_note_events.md sections 1 and 2). -/
def Obligations.NoteStartsAChannel : Prop :=
  ∀ (key vel : Bits7) (gate : Byte) (s : State) (v : Voice),
    resolve s.rom s.song.instTable.toNat s.trk[s.cur].program.toNat key.toNat = some v →
    AnswersNext (exec (.note key vel gate) s) fun t =>
      CurTrackBecomes s t
        { s.trk[s.cur] with
          vib := { s.trk[s.cur].vib with delayCnt := s.trk[s.cur].vib.delay, phase := 0 },
          trem := { s.trk[s.cur].trem with delayCnt := s.trk[s.cur].trem.delay, phase := 0 },
          due := gate, cursor := s.trk[s.cur].cursor + 4 } ∧
      t.ch[allocate s.ch] =
        { state := .attack, env := 0, gate := gate.setWidth 16, track := s.cur, key := key, vel := vel, voice := v,
          stamp := s.allocSeq, phase := 0, pos := 0, lfsr := 0x7FFF, inc := 0, gL := 0, gR := 0 } ∧
      (∀ j : ChanIdx, j ≠ allocate s.ch → t.ch[j] = s.ch[j]) ∧
      t.allocSeq = s.allocSeq + 1 ∧ t.tempo = s.tempo ∧ SameElsewhere s t

/-- NOTE with a voice that does not resolve takes ParseError, which aborts the session; no channel is allocated, no
stamp is used and the cursor stays (41_note_events.md section 2, 60_exceptions.md section 3). -/
def Obligations.NoteParseErrorAborts : Prop :=
  ∀ (key vel : Bits7) (gate : Byte) (s : State),
    resolve s.rom s.song.instTable.toNat s.trk[s.cur].program.toNat key.toNat = none →
    AnswersNext (exec (.note key vel gate) s) fun t =>
      t.err.code = 2 ∧ t.err.track = s.cur ∧ t.err.addr = s.trk[s.cur].cursor ∧ t.aborted = true ∧
        t.playing = false ∧ t.allocSeq = s.allocSeq ∧ t.trk = s.trk ∧
        ∀ j : ChanIdx, t.ch[j] = { s.ch[j] with state := .idle }

/-- PROG, VOL, PAN and BEND (42_modulation_events.md sections 2 to 5): each writes its own register of the track. -/
def Obligations.ParameterEventsWriteTheTrack : Prop :=
  ∀ s : State,
    (∀ p : Byte, AnswersNext (exec (.prog p) s) fun t =>
      OnlyCurTrack s t { s.trk[s.cur] with program := p, cursor := s.trk[s.cur].cursor + 2 }) ∧
    (∀ v : Bits7, AnswersNext (exec (.vol v) s) fun t =>
      OnlyCurTrack s t { s.trk[s.cur] with volume := v, cursor := s.trk[s.cur].cursor + 2 }) ∧
    (∀ p : Bits7, AnswersNext (exec (.pan p) s) fun t =>
      OnlyCurTrack s t { s.trk[s.cur] with pan := p, cursor := s.trk[s.cur].cursor + 2 }) ∧
    (∀ b : Bits7, AnswersNext (exec (.bend b) s) fun t =>
      OnlyCurTrack s t { s.trk[s.cur] with bend := b, cursor := s.trk[s.cur].cursor + 2 })

/-- VIB and TREM (42_modulation_events.md sections 6 and 7): the delay restarts, the offset stays. -/
def Obligations.LfoEventsSetTheLfo : Prop :=
  ∀ (depth rate delay : Byte) (s : State),
    (AnswersNext (exec (.vib depth rate delay) s) fun t =>
      OnlyCurTrack s t { s.trk[s.cur] with
        vib := ⟨depth, rate, delay, delay, 0, s.trk[s.cur].vib.offset⟩, cursor := s.trk[s.cur].cursor + 4 }) ∧
    (AnswersNext (exec (.trem depth rate delay) s) fun t =>
      OnlyCurTrack s t { s.trk[s.cur] with
        trem := ⟨depth, rate, delay, delay, 0, s.trk[s.cur].trem.offset⟩, cursor := s.trk[s.cur].cursor + 4 })

/-- TEMPO (42_modulation_events.md section 8). -/
def Obligations.TempoIsGlobal : Prop :=
  ∀ (v : Byte) (s : State), AnswersNext (exec (.tempo v) s) fun t =>
    t.tempo = v ∧ CurTrackBecomes s t { s.trk[s.cur] with cursor := s.trk[s.cur].cursor + 2 } ∧
      t.ch = s.ch ∧ t.allocSeq = s.allocSeq ∧ SameElsewhere s t

/-- JUMP to a mapped target (43_control_flow.md section 2). -/
def Obligations.JumpSetsTheCursor : Prop :=
  ∀ (addr : Word) (s : State), s.rom.mapped addr.toNat = true →
    AnswersNext (exec (.jump addr) s) fun t => OnlyCurTrack s t { s.trk[s.cur] with cursor := addr }

/-- JUMP, and CALL with room on the stack, to an unmapped target take OutOfRangeError (43_control_flow.md sections 1
to 3). -/
def Obligations.UnmappedTargetsAreErrors : Prop :=
  ∀ (addr : Word) (s : State), s.rom.mapped addr.toNat = false →
    exec (.jump addr) s = .next (s.takeError .outOfRange) ∧
      (s.trk[s.cur].sp.toNat < Config.callDepth → exec (.call addr) s = .next (s.takeError .outOfRange))

/-- CALL with room on the stack to a mapped target (43_control_flow.md section 3): the return address goes into the
slot at `sp`, every other slot stays. -/
def Obligations.CallPushesTheReturnAddress : Prop :=
  ∀ (addr : Word) (s : State), s.trk[s.cur].sp.toNat < Config.callDepth → s.rom.mapped addr.toNat = true →
    AnswersNext (exec (.call addr) s) fun t =>
      OnlyCurTrack s t { s.trk[s.cur] with
        stack := t.trk[s.cur].stack, sp := t.trk[s.cur].sp, cursor := addr } ∧
      t.trk[s.cur].sp.toNat = s.trk[s.cur].sp.toNat + 1 ∧
      ∀ k : Fin 3, t.trk[s.cur].stack[k] =
        if k.val = s.trk[s.cur].sp.toNat then s.trk[s.cur].cursor + 5 else s.trk[s.cur].stack[k]

/-- RET with a return address on the stack (43_control_flow.md section 4): the popped slot keeps its value. -/
def Obligations.RetPopsTheReturnAddress : Prop :=
  ∀ (s : State) (k : Fin 3), s.trk[s.cur].sp.toNat = k.val + 1 →
    AnswersNext (exec .ret s) fun t =>
      OnlyCurTrack s t { s.trk[s.cur] with sp := BitVec.ofNat 2 k.val, cursor := s.trk[s.cur].stack[k] }

/-- CALL on a full stack and RET on an empty one take the stack errors, the overflow before any check of the target
(43_control_flow.md sections 3 and 4). -/
def Obligations.StackErrors : Prop :=
  ∀ (addr : Word) (s : State),
    (s.trk[s.cur].sp.toNat = Config.callDepth → exec (.call addr) s = .next (s.takeError .stackOverflow)) ∧
    (s.trk[s.cur].sp.toNat = 0 → exec .ret s = .next (s.takeError .stackUnderflow))

/-- EOT (43_control_flow.md section 5): the cursor stays, and no error is recorded. -/
def Obligations.EotEndsTheTrack : Prop :=
  ∀ s : State, AnswersNext (exec .eot s) fun t => OnlyCurTrack s t { s.trk[s.cur] with active := false }

/-- R111: a CALL to a RET leaves the cursor after the CALL and `sp` as it was, in the same pull round. Only the stack
slot that is free again differs. -/
def Obligations.CallThenRetIsTransparent : Prop :=
  ∀ (s : State) (x : Word), s.AtPull → s.trk[s.cur].sp.toNat < Config.callDepth →
    s.rom.holds s.curAddr (encode (.call x)) → s.rom.byte? x.toNat = some 0xB4 →
    ∃ t : State, Sys2Proof.core.run 2 s = .next t ∧ t.AtPull ∧
      OnlyCurTrack s t { s.trk[s.cur] with
        stack := t.trk[s.cur].stack, cursor := s.trk[s.cur].cursor + 5 } ∧
      ∀ k : Fin 3, k.val ≠ s.trk[s.cur].sp.toNat → t.trk[s.cur].stack[k] = s.trk[s.cur].stack[k]

/-- R112: `sp` is never above CALL_DEPTH; CALL alone increments it, when it is below, and RET alone decrements it, when
it is above 0. -/
def Obligations.OnlyCallAndRetMoveTheStack : Prop :=
  (∀ (s : State) (j : TrackIdx), s.trk[j].sp.toNat ≤ Config.callDepth) ∧
    ∀ (i : Instr) (s t : State) (j : TrackIdx), exec i s = .next t →
      t.trk[j].sp = s.trk[j].sp ∨
      (j = s.cur ∧ (∃ a, i = .call a) ∧ s.trk[j].sp.toNat < Config.callDepth ∧
        t.trk[j].sp.toNat = s.trk[j].sp.toNat + 1) ∨
      (j = s.cur ∧ i = .ret ∧ 0 < s.trk[j].sp.toNat ∧ t.trk[j].sp.toNat + 1 = s.trk[j].sp.toNat)

/-- No instruction reads or writes the registers of a track that does not execute it (10_state.md section 3): with
other contents of another track, it does the same, and leaves those contents. -/
def Obligations.TracksArePrivate : Prop :=
  ∀ (i : Instr) (s t : State) (j : TrackIdx) (u : Track), j ≠ s.cur → exec i s = .next t →
    exec i { s with trk := s.trk.set j.val u j.isLt } = .next { t with trk := t.trk.set j.val u j.isLt }

/-! ### Errors (spec/60_exceptions.md) -/

/-- Taking an error in playback (60_exceptions.md sections 1 to 3): the record, the outcome by kind and POLICY, and
that nothing else changes. -/
def Obligations.ErrorsRecordThenHaltOrAbort : Prop :=
  ∀ (s : State) (e : ErrKind),
    let t := s.takeError e
    let fatal := e = .parse ∨ e = .stackOverflow ∨ e = .stackUnderflow ∨ s.policy = true
    (t.err.code.toNat = match e with
      | .outOfRange => 1
      | .parse => 2
      | .configuration => 3
      | .unsupportedOpcode => 4
      | .stackOverflow => 5
      | .stackUnderflow => 6) ∧
    t.err.track = s.cur ∧ t.err.addr = s.trk[s.cur].cursor ∧
    t.err.opcode = (s.rom.byte? s.trk[s.cur].cursor.toNat).getD 0 ∧
    (fatal → t.aborted = true ∧ t.playing = false ∧ t.stopReq = false ∧ t.trk = s.trk ∧ t.trackErr = s.trackErr ∧
      ∀ j : ChanIdx, t.ch[j] = { s.ch[j] with state := .idle }) ∧
    (¬fatal → t.trackErr = true ∧ t.aborted = s.aborted ∧ t.playing = s.playing ∧ t.stopReq = s.stopReq ∧
      t.ch = s.ch ∧ CurTrackBecomes s t { s.trk[s.cur] with active := false, halted := true }) ∧
    t.sampleRate = s.sampleRate ∧ t.rom.size = s.rom.size ∧ (∀ a, t.rom.byte? a = s.rom.byte? a) ∧
    t.ended = s.ended ∧ t.loadErr = s.loadErr ∧ t.tempo = s.tempo ∧ t.tickAcc = s.tickAcc ∧
    t.songTicks = s.songTicks ∧ t.allocSeq = s.allocSeq ∧ t.song = s.song ∧ t.rv = s.rv ∧ t.policy = s.policy ∧
    t.songTable = s.songTable ∧ t.songIndex = s.songIndex ∧ t.pending = s.pending ∧ t.answers = s.answers ∧
    t.control = s.control ∧ t.cur = s.cur ∧ t.freeSeq = s.freeSeq

/-- A halted track does not come back (60_exceptions.md section 4), and a session begins (70_reset_and_hazards.md
section 1), only by a write to CTRL with START set: any other step leaves a halted track halted and inactive, and a
block that does not play as it is. -/
def Obligations.OnlyStartRevives : Prop :=
  ∀ s t : State, s.Inv → step s = .next t →
    (∃ size v rest, s.control = .idle ∧ s.pending = .writeReg 0 size v :: rest ∧ v.getLsbD 0 = true) ∨
      ((∀ i : TrackIdx, s.trk[i].halted = true → t.trk[i].halted = true ∧ t.trk[i].active = false) ∧
        (s.playing = false → t.playing = false))

/-! ### Channel allocation (spec/41_note_events.md) -/

/-- R89, with the order of R90: the lowest Idle channel, or else the first in the stealing order. -/
def Obligations.AllocateTakesIdleElseVictim : Prop :=
  ∀ ch : Vector Channel 12,
    ((∃ i : ChanIdx, ch[i].state = .idle) →
      ch[allocate ch].state = .idle ∧ ∀ i : ChanIdx, ch[i].state = .idle → allocate ch ≤ i) ∧
    ((∀ i : ChanIdx, ch[i].state ≠ .idle) → ∀ i : ChanIdx, StealBefore ch (allocate ch) i)

/-- A NOTE whose voice resolves is never dropped: one more channel is live, up to twelve, its note is on a channel, and
at most one live channel loses its note, none if a channel was free (41_note_events.md section 1). -/
def Obligations.NotesAreNeverDropped : Prop :=
  ∀ (key vel : Bits7) (gate : Byte) (s t : State) (v : Voice),
    resolve s.rom s.song.instTable.toNat s.trk[s.cur].program.toNat key.toNat = some v →
    exec (.note key vel gate) s = .next t →
    liveCount t.ch = min 12 (liveCount s.ch + 1) ∧
    (liveCount s.ch < 12 → ∀ j : ChanIdx, s.ch[j].live = true → t.ch[j] = s.ch[j]) ∧
    ∃ j : ChanIdx, t.ch[j].live = true ∧ t.ch[j].key = key ∧ t.ch[j].stamp = s.allocSeq ∧
      ∀ i : ChanIdx, i ≠ j → t.ch[i] = s.ch[i]

/-! ### The channel engine (spec/44_channel_engine.md) -/

/-- R118, the closed form of the envelope: the level and the phase of a note at the end of tick `t0 + n`. -/
def Obligations.EnvelopeClosedForm : Prop :=
  ∀ (i : TrackIdx) (key vel : Bits7) (g : Byte) (v : Voice) (stamp : Word),
    let A := v.attack.toNat
    let D := v.decay.toNat
    let S := v.sustain.toNat
    let R := v.release.toNat
    let nA := (255 + A - 1) / A
    let c := fun n : Nat => Channel.tick^[n + 1] (newChannel i key vel g v stamp)
    (1 ≤ g.toNat → 1 ≤ A → ∀ n : Nat,
      (n < g.toNat → n < nA →
        (c n).env.toNat = min 255 ((n + 1) * A) ∧
        (c n).state = if (c n).env.toNat = 255 then .decay else .attack) ∧
      (nA ≤ n → n < g.toNat →
        (c n).env.toNat = max S (255 - (n - nA + 1) * D) ∧
        (c n).state = if (c n).env.toNat = S then .sustain else .decay) ∧
      (g.toNat ≤ n →
        (c n).env.toNat =
          (if 1 ≤ R then (c (g.toNat - 1)).env.toNat - (n - g.toNat + 1) * R else 0) ∧
        (c n).state = if (c n).env.toNat = 0 then .idle else .release)) ∧
    (g.toNat = 0 → (c 0).state = .idle ∧ (c 0).env.toNat = 0)

/-- R117: the level is within 0..255, does not rise in Release, and reaches 0 within ceil(255 / R) ticks, or one when R
is 0. -/
def Obligations.ReleaseFallsToZero : Prop :=
  ∀ c : Channel, c.env.toNat ≤ 255 ∧ (c.state = .release →
    c.tick.env.toNat ≤ c.env.toNat ∧
    ∃ n, n ≤ (if c.voice.release.toNat = 0 then 1 else (255 + c.voice.release.toNat - 1) / c.voice.release.toNat) ∧
      (Channel.tick^[n] c).env.toNat = 0 ∧ (Channel.tick^[n] c).state = .idle)

/-- The envelope phases follow one another only as 44_channel_engine.md section 1 lists, over every step of the
machine; a channel enters Attack only in the pull loop. -/
def Obligations.EnvelopeTransitionsAreListed : Prop :=
  ∀ (s t : State) (j : ChanIdx), step s = .next t →
    EnvFollows s.ch[j].state t.ch[j].state ∧
      (t.ch[j].state = .attack → s.ch[j].state ≠ .attack → s.control = .pull)

/-- R119, R120: the triangle is in -64..64 and the offset in -255..255; depth 0 and a running delay give offset 0, else
the phase advances by `rate` modulo 256, so a cycle lasts 256 / rate steps; the tick steps both LFOs of every loaded
track, active or not, and no other. -/
def Obligations.LfoStepStaysInRange : Prop :=
  (∀ phi : Byte, -64 ≤ tri phi ∧ tri phi ≤ 64 ∧
    tri phi = if phi.toNat < 64 then (phi.toNat : Int) else if phi.toNat < 192 then 128 - phi.toNat else phi.toNat - 256) ∧
  (∀ l : Lfo,
    l.step.InRange ∧
    (l.depth = 0 → l.step = { l with offset := 0 }) ∧
    (l.depth ≠ 0 → 1 ≤ l.delayCnt.toNat →
      l.step.offset = 0 ∧ l.step.delayCnt.toNat = l.delayCnt.toNat - 1 ∧ l.step.phase = l.phase) ∧
    (l.depth ≠ 0 → l.delayCnt.toNat = 0 →
      l.step.phase.toNat = (l.phase.toNat + l.rate.toNat) % 256 ∧ l.step.delayCnt = l.delayCnt ∧
      l.step.offset = Int.fdiv (tri l.step.phase * l.depth.toNat) 64 ∧
      ∀ n : Nat, (Lfo.step^[n] l).phase.toNat = (l.phase.toNat + n * l.rate.toNat) % 256) ∧
    l.step.depth = l.depth ∧ l.step.rate = l.rate ∧ l.step.delay = l.delay) ∧
  ∀ s : State, Config.wellFormed s.sampleRate s.rom.size = true → s.control = .post →
    AnswersNext (step s) fun t => ∀ i : TrackIdx, t.trk[i] = if i.val < s.song.numTracks.toNat then
      { s.trk[i] with vib := s.trk[i].vib.step, trem := s.trk[i].trem.step } else s.trk[i]

/-- R124: an increment fits 57 bits, and can exceed 2^32 for the fixed F of an oscillator or of the noise at a low
SAMPLE_RATE. -/
def Obligations.PitchIncrementFits57Bits : Prop :=
  (∀ sampleRate f b p : Nat, 256 ≤ sampleRate → f < 2 ^ 32 → b ≤ 127 → p ≤ 8191 →
      pitchInc sampleRate f b p < 2 ^ 57) ∧
    (∃ p, p ≤ 8191 ∧ 2 ^ 32 < pitchInc 256 Config.oscF1024 Config.oscBaseKey p) ∧
    ∃ p, p ≤ 8191 ∧ 2 ^ 32 < pitchInc 256 Config.noiseF1024 Config.oscBaseKey p

/-- The pitch increment (44_channel_engine.md section 3): its procedure with the semitone table written out; at a
voice's own key it is floor(F * 2^22 / SAMPLE_RATE), and it doubles per octave, up to rounding. -/
def Obligations.PitchAtBaseKeyAndOctave : Prop :=
  ∀ sampleRate f b : Nat, 1 ≤ sampleRate → b ≤ 127 →
    (∀ p,
      let semi := fun n => [65536, 69433, 73562, 77936, 82570, 87480, 92682, 98193, 104032, 110218, 116772, 123715,
        131072].getD n 0
      let q := p + 8448 - 64 * b
      let n := q / 64 % 12
      pitchInc sampleRate f b p =
        f * (semi n + (semi (n + 1) - semi n) * (q % 64) / 64) * 2 ^ (q / 64 / 12) / (32 * sampleRate)) ∧
    pitchInc sampleRate f b (64 * b) = f * 2 ^ 22 / sampleRate ∧
    ∀ p, 2 * pitchInc sampleRate f b p ≤ pitchInc sampleRate f b (p + 768) ∧
      pitchInc sampleRate f b (p + 768) ≤ 2 * pitchInc sampleRate f b p + 1

/-- R130: the bounds of the amplitude, the gains, a channel's contribution and the frame sums. -/
def Obligations.GainsAndSumsAreBounded : Prop :=
  (∀ env vel ve pan : Nat, env ≤ 255 → vel ≤ 127 → ve ≤ 127 → pan ≤ 127 →
    amplitude env vel ve ≤ 251 ∧ gainLeft (amplitude env vel ve) pan ≤ 251 ∧
    gainRight (amplitude env vel ve) pan ≤ 251 ∧
    gainLeft (amplitude env vel ve) pan + gainRight (amplitude env vel ve) pan ≤ amplitude env vel ve) ∧
  (∀ (r : Rom) (c : Channel) (x : Int) (g : Nat), c.sample r = some x → g ≤ 251 →
    -32128 ≤ x * g ∧ x * g ≤ 31877) ∧
  (∀ (r : Rom) (ch : Vector Channel 12) (accL accR : Int),
    (∀ j : ChanIdx, ch[j].gL.toNat ≤ 251 ∧ ch[j].gR.toNat ≤ 251) → mixSum r ch.toList = some (accL, accR) →
    (-385536 ≤ accL ∧ accL ≤ 382524) ∧ -385536 ≤ accR ∧ accR ≤ 382524)

/-- Noise (44_channel_engine.md section 4): the sample is bit 0 of the register inverted; an advance adds `inc` to
`phase` and shifts the register once per carry; a shift moves every bit down and feeds back bit 0 xor bit 1, in the
7-bit mode at bit 6 too. Started at 0x7FFF the register never reaches 0, in either mode, and the 7-bit mode is in a
cycle of 127 states from its first shift on. -/
def Obligations.NoiseRegisterNeverZero : Prop :=
  (∀ (r : Rom) (c : Channel) (short : Bool), c.voice.kind = .noise short →
    c.sample r = some (if c.lfsr.getLsbD 0 = false then 127 else -128) ∧ PhaseAdvances c c.advance ∧
    c.advance = { c with
      phase := c.advance.phase, lfsr := (lfsrShift short)^[(c.phase.toNat + c.inc.toNat) / 2 ^ 32] c.lfsr }) ∧
  (∀ (short : Bool) (x : BitVec 15) (k : Nat), k < 15 →
    (lfsrShift short x).getLsbD k =
      if k = 14 ∨ (short = true ∧ k = 6) then x.getLsbD 0 != x.getLsbD 1 else x.getLsbD (k + 1)) ∧
  (∀ (short : Bool) (n : Nat), (lfsrShift short)^[n] 0x7FFF ≠ 0) ∧
    ∀ n, (lfsrShift true)^[n + 1 + 127] 0x7FFF = (lfsrShift true)^[n + 1] 0x7FFF

/-- Sample and Advance of the other voices (44_channel_engine.md section 4). Square: high for 1, 2, 4 or 6 eighths of a
cycle. ProgrammableWave: 32 nibbles, the high one of a byte first. DirectSample: a signed byte at the sample index,
which stays below the length; a loop wraps into it and keeps the fraction, and a one-shot that runs out frees the
channel. -/
def Obligations.SamplePlayerStaysInside : Prop :=
  (∀ (r : Rom) (c : Channel) (duty : BitVec 2), c.voice.kind = .square duty →
    c.sample r = some (if c.phase.toNat / 2 ^ 29 <
      (if duty = 0 then 1 else if duty = 1 then 2 else if duty = 2 then 4 else 6) then 127 else -128) ∧
    PhaseAdvances c c.advance ∧ c.advance = { c with phase := c.advance.phase }) ∧
  (∀ (r : Rom) (c : Channel) (w : Word), c.voice.kind = .programmableWave w →
    let x := c.phase.toNat / 2 ^ 27
    (∀ b : Byte, r.byte? (w.toNat + x / 2) = some b →
      c.sample r = some (16 * ((if x % 2 = 0 then b.toNat / 16 else b.toNat % 16 : Nat) : Int) - 128)) ∧
    PhaseAdvances c c.advance ∧ c.advance = { c with phase := c.advance.phase }) ∧
  ∀ (c : Channel) (b : Bits7) (loop : Bool) (f loopStart length dataAddr : Word),
    c.voice.kind = .directSample b loop f loopStart length dataAddr →
    (∀ (r : Rom) (y : Byte), r.byte? (dataAddr.toNat + c.pos.toNat / 2 ^ 32) = some y → c.sample r = some y.toInt) ∧
    c.advance = { c with pos := c.advance.pos, state := c.advance.state } ∧
    ((loop = true → loopStart.toNat < length.toNat) → sampleIndex c.pos < length.toNat →
      let x := (c.pos.toNat + c.inc.toNat) / 2 ^ 32
      let frac := (c.pos.toNat + c.inc.toNat) % 2 ^ 32
      (x < length.toNat → c.advance.state = c.state ∧ sampleIndex c.advance.pos = x ∧
        c.advance.pos.toNat % 2 ^ 32 = frac) ∧
      (length.toNat ≤ x → loop = true → c.advance.state = c.state ∧ c.advance.pos.toNat % 2 ^ 32 = frac ∧
        sampleIndex c.advance.pos = loopStart.toNat + (x - length.toNat) % (length.toNat - loopStart.toNat) ∧
        sampleIndex c.advance.pos < length.toNat) ∧
      (length.toNat ≤ x → loop = false → c.advance.state = .idle ∧
        c.advance.pos.toNat = (c.pos.toNat + c.inc.toNat) % 2 ^ 64))

/-- The reverb (45_mixer.md section 2): each side's output is the saturated sum of the dry sum and d/128 of the delayed
output, rounded toward minus infinity; it replaces that entry of the line alone, and the index goes round. A tail of -1
stays. -/
def Obligations.ReverbFeedsBack : Prop :=
  (∀ (v w : ReverbLine) (n d : Nat) (accL accR : Int) (l r : Half), v.idx < v.dl.length → v.idx < v.dr.length →
    v.apply n d accL accR = (l, r, w) →
    l.toInt = min 32767 (max (-32768) (accL + Int.fdiv ((v.dl.getD v.idx 0).toInt * d) 128)) ∧
    r.toInt = min 32767 (max (-32768) (accR + Int.fdiv ((v.dr.getD v.idx 0).toInt * d) 128)) ∧
    w.idx = (v.idx + 1) % n ∧ w.dl.length = v.dl.length ∧ w.dr.length = v.dr.length ∧
    ∀ k, w.dl.getD k 0 = (if k = v.idx then l else v.dl.getD k 0) ∧
      w.dr.getD k 0 = (if k = v.idx then r else v.dr.getD k 0)) ∧
  ∀ d, 1 ≤ d → d ≤ 127 → (reverbSide 0 (BitVec.ofInt 16 (-1)) d).toInt = -1

/-! ### The host interface (spec/10_state.md section 7, spec/40_sequencer.md sections 1 and 2) -/

/-- The fields of the host registers (10_state.md section 7). -/
def Obligations.RegisterMapReadsTheFields : Prop :=
  ∀ s : State,
    (s.readReg 0x00).toNat = (if s.policy then 4 else 0) ∧
    ((s.readReg 0x04).getLsbD 0 = s.playing ∧ (s.readReg 0x04).getLsbD 1 = s.ended ∧
      (s.readReg 0x04).getLsbD 2 = s.aborted ∧ (s.readReg 0x04).getLsbD 3 = s.trackErr ∧
      (s.readReg 0x04).getLsbD 4 = s.stopReq ∧ (s.readReg 0x04).getLsbD 5 = s.loadErr ∧
      (s.readReg 0x04).extractLsb' 6 2 = 0 ∧ (s.readReg 0x04).extractLsb' 8 4 = s.err.code ∧
      (s.readReg 0x04).extractLsb' 12 4 = 0 ∧ ((s.readReg 0x04).extractLsb' 16 4).toNat = s.err.track.val ∧
      (s.readReg 0x04).extractLsb' 20 12 = 0) ∧
    s.readReg 0x08 = s.songTable ∧ s.readReg 0x0C = s.songIndex ∧ s.readReg 0x10 = s.err.addr ∧
    (s.readReg 0x14).toNat = s.err.opcode.toNat ∧ s.readReg 0x18 = s.songTicks ∧
    (∀ k, (s.readReg 0x1C).getLsbD k = if h : k < 16 then s.trk[k].halted else false) ∧
    ((s.readReg 0x20).extractLsb' 0 8 = s.song.numTracks ∧ (s.readReg 0x20).extractLsb' 8 8 = s.song.priority ∧
      (s.readReg 0x20).extractLsb' 16 8 = s.song.reverb ∧ (s.readReg 0x20).extractLsb' 24 8 = s.tempo) ∧
    (∀ k, (s.readReg 0x24).getLsbD k = if h : k < 16 then s.trk[k].active else false) ∧
    (∀ k, (s.readReg 0x28).getLsbD k = if h : k < 12 then decide (s.ch[k].state ≠ .idle) else false)

/-- The register window (10_state.md section 7). A write to SONG_TABLE or SONG_INDEX sets that register alone, to any
value; one to CTRL leaves it reading POLICY from bit 2 and its other bits 0; one to a read-only register changes
nothing; an unlisted word reads 0 and ignores writes. A byte, halfword or misaligned access is refused; a whole-word
one is performed and answered, and no read has a side effect. -/
def Obligations.RegisterWindowIsWholeWords : Prop :=
  (∀ (s : State) (v : Word), s.writeReg 0x08 v = { s with songTable := v } ∧
    s.writeReg 0x0C v = { s with songIndex := v } ∧
    ((s.writeReg 0x00 v).readReg 0x00).toNat = if v.getLsbD 2 then 4 else 0) ∧
  (∀ (s : State) (off : Nat) (v : Word), off = 0x04 ∨ (0x10 ≤ off ∧ off ≤ 0x28 ∧ off % 4 = 0) →
    s.writeReg off v = s) ∧
  (∀ (s : State) (off : Nat) (v : Word), 0x2C ≤ off → off ≤ 0x3C → off % 4 = 0 →
    s.readReg off = 0 ∧ s.writeReg off v = s) ∧
  (∀ (s : State) (off : Nat) (size : AccessSize) (v : Word) (rest : List HostOp),
    Config.wellFormed s.sampleRate s.rom.size = true → s.control = .idle → size ≠ .word ∨ off % 4 ≠ 0 →
    (s.pending = .readReg off size :: rest → step s = .refused (.badRegisterAccess off size)) ∧
    (s.pending = .writeReg off size v :: rest → step s = .refused (.badRegisterAccess off size))) ∧
  (∀ (s : State) (off : Nat) (v : Word) (rest : List HostOp),
    Config.wellFormed s.sampleRate s.rom.size = true → s.control = .idle → off ≤ 0x3C → off % 4 = 0 →
    (s.pending = .readReg off .word :: rest →
      step s = .next { s with pending := rest, answers := .word (s.readReg off) :: s.answers }) ∧
    (s.pending = .writeReg off .word v :: rest →
      step s = .next { s.writeReg off v with pending := rest, answers := .written :: s.answers }))

/-- R71: a write to CTRL sets POLICY, then starts a session, or else requests a stop while one plays. -/
def Obligations.CtrlWriteActsInOrder : Prop :=
  ∀ (s : State) (v : Word),
    let p : State := { s with policy := v.getLsbD 2 }
    (v.getLsbD 0 = true → s.writeReg 0x00 v = p.start) ∧
    (v.getLsbD 0 = false → v.getLsbD 1 = true → s.playing = true → s.writeReg 0x00 v = { p with stopReq := true }) ∧
    (v.getLsbD 0 = false → v.getLsbD 1 = true → s.playing = false → s.writeReg 0x00 v = p) ∧
    (v.getLsbD 0 = false → v.getLsbD 1 = false → s.writeReg 0x00 v = p)

/-- R73: the load checks in its order, each failing check with its error and address; past all of them the load gives
what it read. -/
def Obligations.LoadChecksInOrder : Prop :=
  ∀ (r : Rom) (t k : Nat),
    let e := t + 4 + 8 * k
    (r.read? t 4 = none → loadSong r t k = .error ⟨.outOfRange, t⟩) ∧
    (∀ count, r.read? t 4 = some count → count ≤ k → loadSong r t k = .error ⟨.configuration, t⟩) ∧
    (∀ count, r.read? t 4 = some count → k < count → r.read? e 4 = none →
      loadSong r t k = .error ⟨.outOfRange, e⟩) ∧
    (∀ count h, r.read? t 4 = some count → k < count → r.read? e 4 = some h → r.read? (e + 4) 1 = none →
      loadSong r t k = .error ⟨.outOfRange, e + 4⟩) ∧
    (∀ count h prio, r.read? t 4 = some count → k < count → r.read? e 4 = some h → r.read? (e + 4) 1 = some prio →
      r.read? (e + 5) 1 = none → loadSong r t k = .error ⟨.outOfRange, e + 5⟩) ∧
    (∀ h prio rev, EntryReads r t k h prio rev → h = 0 ∨ (∃ n, n < 8 ∧ r.mapped (h + n) = false) →
      loadSong r t k = .error ⟨.configuration, e⟩) ∧
    (∀ h prio rev n t0 inst, EntryReads r t k h prio rev → HeaderReads r h n t0 inst →
      (n = 0 ∨ 16 < n → loadSong r t k = .error ⟨.configuration, h⟩) ∧
      (1 ≤ n → n ≤ 16 →
        (∀ i, i < n → PointerBad r h i → (∀ j, j < i → ∃ p, PointerGood r h j p) →
          loadSong r t k = .error ⟨.configuration, h + 8 + 4 * i⟩) ∧
        (∀ p : Nat → Nat, (∀ i, i < n → PointerGood r h i (p i)) →
          (r.mapped inst = false → loadSong r t k = .error ⟨.parse, h + 4⟩) ∧
          (r.mapped inst = true →
            loadSong r t k = .ok ⟨BitVec.ofNat 8 n, BitVec.ofNat 8 t0, BitVec.ofNat 8 prio, BitVec.ofNat 8 rev,
              BitVec.ofNat 32 inst, (List.range n).map fun i => BitVec.ofNat 32 (p i)⟩))))

/-- The state a START leaves when its load succeeds (40_sequencer.md section 2): the song record, the tempo, the loaded
tracks at their pointers, the others zero, every channel Idle and every field of it but its voice 0, a first tick due
at once, and the host registers and parameters as they were. (The voice of an Idle channel is not stated.) -/
def Obligations.StartBeginsTheSession : Prop :=
  ∀ (s : State) (l : Loaded), Config.wellFormed s.sampleRate s.rom.size = true →
    loadSong s.rom s.songTable.toNat s.songIndex.toNat = .ok l →
    let t := s.start
    t.playing = true ∧ t.ended = false ∧ t.aborted = false ∧ t.loadErr = false ∧ t.trackErr = false ∧
    t.stopReq = false ∧ t.song = ⟨l.numTracks, l.priority, l.reverb, l.instTable⟩ ∧ t.tempo = l.tempo ∧
    (∀ i : TrackIdx, t.trk[i] = match l.tracks[i.val]? with
      | some p => { Track.zero with active := true, cursor := p, volume := 127, pan := 64 }
      | none => Track.zero) ∧
    (∀ j : ChanIdx, t.ch[j] = ⟨.idle, 0, 0, 0, 0, 0, t.ch[j].voice, 0, 0, 0, 0, 0, 0, 0⟩) ∧ t.err = ⟨0, 0, 0, 0⟩ ∧ t.songTicks = 0 ∧ t.allocSeq = 0 ∧
    t.tickAcc.toNat = 60 * s.sampleRate ∧ t.tickDue = true ∧ t.rv.idx = 0 ∧
    t.rv.dl = List.replicate (s.sampleRate / 60) 0 ∧ t.rv.dr = List.replicate (s.sampleRate / 60) 0 ∧
    t.policy = s.policy ∧ t.songTable = s.songTable ∧ t.songIndex = s.songIndex ∧ t.rom = s.rom ∧
    t.sampleRate = s.sampleRate

/-- R144: after a load error STATUS has PLAYING 0, ABORTED 1, LOAD_ERR 1 and ERR_CODE 1, 2 or 3, and RenderFrame
returns NONE. -/
def Obligations.LoadErrorIsReported : Prop :=
  ∀ (s : State) (e : LoadError) (rest : List HostOp), Config.wellFormed s.sampleRate s.rom.size = true →
    loadSong s.rom s.songTable.toNat s.songIndex.toNat = .error e →
    let t := s.start
    ((t.readReg 0x04).getLsbD 0 = false ∧ (t.readReg 0x04).getLsbD 2 = true ∧ (t.readReg 0x04).getLsbD 5 = true ∧
      (t.readReg 0x04).extractLsb' 8 4 = e.kind.code ∧
      (e.kind = .outOfRange ∨ e.kind = .parse ∨ e.kind = .configuration)) ∧
    t.err.track = 0 ∧ t.err.opcode = 0 ∧ (e.addr < 2 ^ 32 → t.err.addr.toNat = e.addr) ∧
    AnswersNext (Sys2Proof.core.run 2 { t with control := .idle, pending := .renderFrame :: rest }) fun u =>
      u.answers = .noFrame :: s.answers ∧ u.control = .idle ∧ u.pending = rest

/-- R155: power-on reset leaves every field 0 and every channel Idle, whatever the parameters; every register of the
window reads 0, and each of any number of RenderFrames returns NONE. From a state without a session, between host
operations or in a RenderFrame, a step is that of a successful START, or there is still no session after it, and a
RenderFrame that it completes returned NONE. (The voice of an Idle channel is unspecified and not stated.) -/
def Obligations.PowerOnResetValues : Prop :=
  ∀ (sampleRate : Nat) (rom : Rom),
    let s := State.powerOn sampleRate rom
    (s.playing = false ∧ s.ended = false ∧ s.aborted = false ∧ s.loadErr = false ∧ s.trackErr = false ∧
      s.stopReq = false ∧ s.tempo = 0 ∧ s.tickAcc = 0 ∧ s.songTicks = 0 ∧ s.allocSeq = 0) ∧
    s.song = ⟨0, 0, 0, 0⟩ ∧ s.err = ⟨0, 0, 0, 0⟩ ∧
    (∀ i : TrackIdx, s.trk[i] = ⟨false, false, 0, #v[0, 0, 0], 0, 0, 0, 0, 0, 0, ⟨0, 0, 0, 0, 0, 0⟩, ⟨0, 0, 0, 0, 0, 0⟩⟩) ∧
    (∀ j : ChanIdx, s.ch[j] = ⟨.idle, 0, 0, 0, 0, 0, s.ch[j].voice, 0, 0, 0, 0, 0, 0, 0⟩) ∧
    s.rv.idx = 0 ∧ s.rv.dl = List.replicate (sampleRate / 60) 0 ∧ s.rv.dr = List.replicate (sampleRate / 60) 0 ∧
    s.policy = false ∧ s.songTable = 0 ∧ s.songIndex = 0 ∧ (∀ off, s.readReg off = 0) ∧
    (∀ n rest, Config.wellFormed sampleRate rom.size = true →
      AnswersNext (Sys2Proof.core.run (2 * n) { s with pending := List.replicate n .renderFrame ++ rest }) fun u =>
        u.answers = List.replicate n .noFrame ∧ u.control = .idle ∧ u.playing = false ∧ u.pending = rest) ∧
    ∀ u t : State, u.playing = false → u.control = .idle ∨ u.control = .boundary → step u = .next t →
      (∃ size v rest l, u.control = .idle ∧ u.pending = .writeReg 0 size v :: rest ∧ v.getLsbD 0 = true ∧
        loadSong u.rom u.songTable.toNat u.songIndex.toNat = .ok l) ∨
      (t.playing = false ∧ (t.control = .idle ∨ t.control = .boundary) ∧
        (u.control = .boundary → t.control = .idle ∧ t.answers = .noFrame :: u.answers))

/-- Host operations are taken in order, one at a time, and each answers at most once (20_memory.md section 7,
40_sequencer.md section 1): a step takes the next one only when none is in progress, and answers by ending it. -/
def Obligations.HostOperationsInOrder : Prop :=
  ∀ s t : State, step s = .next t →
    (t.pending = s.pending ∨ (s.control = .idle ∧ ∃ op, s.pending = op :: t.pending)) ∧
    (t.answers = s.answers ∨ (t.control = .idle ∧ ∃ a, t.answers = a :: s.answers))

/-! ### The frame step and the tick (spec/40_sequencer.md, spec/45_mixer.md) -/

/-- RenderFrame at its loop test (40_sequencer.md section 3): NONE without a session, a pending stop honoured at a tick
boundary, a tick, or a frame after which the accumulator grows by 48 times the tempo. The frame is made of the sums over
the live channels of sample times gain (45_mixer.md section 1): saturated, or put through the reverb when it is on. -/
def Obligations.FrameStepCases : Prop :=
  ∀ s : State, Config.wellFormed s.sampleRate s.rom.size = true → s.control = .boundary →
    (s.playing = false → step s = .next { s with answers := .noFrame :: s.answers, control := .idle }) ∧
    (s.playing = true → 60 * s.sampleRate ≤ s.tickAcc.toNat → s.stopReq = true →
      AnswersNext (step s) fun t => t.playing = false ∧ t.stopReq = false ∧ t.ended = s.ended ∧
        t.aborted = s.aborted ∧ t.answers = .noFrame :: s.answers ∧ t.control = .idle ∧ t.trk = s.trk ∧
        t.songTicks = s.songTicks ∧ ∀ j : ChanIdx, t.ch[j] = { s.ch[j] with state := .idle }) ∧
    (s.playing = true → 60 * s.sampleRate ≤ s.tickAcc.toNat → s.stopReq = false →
      AnswersNext (step s) fun t => t.tickAcc.toNat = s.tickAcc.toNat - 60 * s.sampleRate ∧ t.control = .enter ∧
        t.cur = 0 ∧ t.trk = s.trk ∧ t.ch = s.ch ∧ t.answers = s.answers ∧ t.playing = true) ∧
    (s.playing = true → s.tickAcc.toNat < 60 * s.sampleRate →
      ∀ x : ChanIdx → Int, (∀ j, s.ch[j].state ≠ .idle → s.ch[j].sample s.rom = some (x j)) →
      let accL := ∑ j : ChanIdx, if s.ch[j].state = .idle then 0 else x j * s.ch[j].gL.toNat
      let accR := ∑ j : ChanIdx, if s.ch[j].state = .idle then 0 else x j * s.ch[j].gR.toNat
      AnswersNext (step s) fun t => t.playing = true ∧ t.control = .idle ∧
        t.tickAcc.toNat = s.tickAcc.toNat + 48 * s.tempo.toNat ∧ t.trk = s.trk ∧ t.songTicks = s.songTicks ∧
        (∃ l r : Half, t.answers = .frame l r :: s.answers ∧
          (s.song.reverb.getLsbD 7 = false → t.rv = s.rv ∧
            l.toInt = min 32767 (max (-32768) accL) ∧ r.toInt = min 32767 (max (-32768) accR)) ∧
          (s.song.reverb.getLsbD 7 = true →
            s.rv.apply (s.sampleRate / 60) (s.song.reverb.toNat % 128) accL accR = (l, r, t.rv))) ∧
        ∀ j : ChanIdx, t.ch[j] = if s.ch[j].state = .idle then s.ch[j] else s.ch[j].advance)

/-- R135: while a session plays, a RenderFrame that no tick cuts short produces a frame, also with no channel live; that
frame is (0, 0) when the reverb is off. Without a session it returns NONE. And however a RenderFrame completes, it
returned a frame exactly if the session still plays, and NONE exactly if it does not. -/
def Obligations.PlayingAlwaysGivesAFrame : Prop :=
  (∀ s : State, s.Inv → s.control = .boundary →
    (s.playing = true → s.tickDue = false →
      AnswersNext (step s) fun t => t.control = .idle ∧ t.playing = true ∧
        ∃ l r : Half, t.answers = .frame l r :: s.answers ∧
          ((∀ j : ChanIdx, s.ch[j].live = false) → s.song.reverbOn = false → l = 0 ∧ r = 0)) ∧
    (s.playing = false → AnswersNext (step s) fun t => t.control = .idle ∧ t.answers = .noFrame :: s.answers)) ∧
  ∀ s t : State, s.control ≠ .idle → step s = .next t → t.control = .idle →
    (t.playing = true ∧ ∃ l r : Half, t.answers = .frame l r :: s.answers) ∨
      (t.playing = false ∧ t.answers = .noFrame :: s.answers)

/-- At most one tick runs in a RenderFrame (40_sequencer.md section 3): a tick that begins leaves the accumulator below
the threshold, and no step inside a tick changes it. -/
def Obligations.AtMostOneTickPerFrame : Prop :=
  (∀ s t : State, s.Inv → s.control = .boundary → step s = .next t → t.control = .enter → t.tickDue = false) ∧
    ∀ s t : State, s.control = .enter ∨ s.control = .pull ∨ s.control = .post → step s = .next t →
      t.tickAcc = s.tickAcc ∧ t.sampleRate = s.sampleRate ∧
        (t.control = .enter ∨ t.control = .pull ∨ t.control = .post ∨ t.control = .boundary ∨
          (t.control = .idle ∧ t.answers = .noFrame :: s.answers))

/-- Phase 1 of a tick at a track (40_sequencer.md section 5): an inactive track is passed over; one that is due after
its count goes to its pull loop; one that waits only counts down, and the next track follows. The pull loop of a track
that is inactive or has a wait ahead is left for the next track, and that of a session that an error aborted ends the
RenderFrame with NONE. -/
def Obligations.DueCounterDrivesTheTrack : Prop :=
  (∀ s : State, Config.wellFormed s.sampleRate s.rom.size = true → s.control = .enter → s.playing = true →
    s.cur.val < s.song.numTracks.toNat →
    (s.trk[s.cur].active = false → AnswersNext (step s) fun t => PhaseOneGoesOn s t) ∧
    (s.trk[s.cur].active = true → s.trk[s.cur].due.toNat ≤ 1 →
      AnswersNext (step s) fun t => t.AtPull ∧
        CurTrackBecomes s t { s.trk[s.cur] with due := 0 } ∧ t.cur = s.cur ∧ t.ch = s.ch) ∧
    (s.trk[s.cur].active = true → 2 ≤ s.trk[s.cur].due.toNat →
      AnswersNext (Sys2Proof.core.run 2 s) fun t =>
        (∃ d : Byte, d.toNat + 1 = s.trk[s.cur].due.toNat ∧
          CurTrackBecomes s t { s.trk[s.cur] with due := d }) ∧
        PhaseOneGoesOn { s with trk := t.trk } t)) ∧
  ∀ s : State, Config.wellFormed s.sampleRate s.rom.size = true → s.control = .pull →
    (s.playing = true → s.trk[s.cur].active = false ∨ 1 ≤ s.trk[s.cur].due.toNat →
      AnswersNext (step s) fun t => PhaseOneGoesOn s t) ∧
    (s.playing = false → step s = .next { s with answers := .noFrame :: s.answers, control := .idle })

/-- Phases 2 to 6 of a tick (40_sequencer.md sections 5 and 6): the LFOs of the loaded tracks, then the envelopes, then
the recompute of the live channels under their owning tracks (44_channel_engine.md section 3), the tick count, and the
end of a song that has no active track. -/
def Obligations.TickPhasesTwoToSix : Prop :=
  ∀ s : State, Config.wellFormed s.sampleRate s.rom.size = true → s.control = .post →
    AnswersNext (step s) fun t =>
      (∀ i : TrackIdx, t.trk[i] = if i.val < s.song.numTracks.toNat then
        { s.trk[i] with vib := s.trk[i].vib.step, trem := s.trk[i].trem.step } else s.trk[i]) ∧
      t.songTicks = s.songTicks + 1 ∧ t.control = .boundary ∧ t.answers = s.answers ∧ t.tickAcc = s.tickAcc ∧
      ((∃ i : TrackIdx, i.val < s.song.numTracks.toNat ∧ s.trk[i].active = true) →
        t.playing = s.playing ∧ t.ended = s.ended ∧
        ∀ j : ChanIdx,
          (s.ch[j].tick.state = .idle → t.ch[j] = s.ch[j].tick) ∧
          (s.ch[j].tick.state ≠ .idle →
            RecomputesTo s.sampleRate t.trk[s.ch[j].track] s.ch[j].tick t.ch[j])) ∧
      ((∀ i : TrackIdx, i.val < s.song.numTracks.toNat → s.trk[i].active = false) →
        t.playing = false ∧ t.ended = true ∧ ∀ j : ChanIdx, t.ch[j].state = .idle)

/-- A track that jumps to itself hangs the block (40_sequencer.md section 5): no number of steps gets past it, and the
RenderFrame in progress never answers. -/
def Obligations.SelfJumpHangs : Prop :=
  ∀ (s : State) (k : Nat), s.AtPull → s.rom.holds s.curAddr (encode (.jump s.trk[s.cur].cursor)) →
    Sys2Proof.core.run k s = .next s

/-- At tempo 0 between ticks the block produces frames for ever (70_reset_and_hazards.md section 3): however many are
asked for, each is produced, nothing is stepped, no envelope or gain moves, and a stop is not honoured. -/
def Obligations.TempoZeroFreezesTheSong : Prop :=
  ∀ (n : Nat) (s : State) (rest : List HostOp), s.Inv → s.control = .idle → s.playing = true → s.tempo = 0 →
    s.tickDue = false → s.pending = List.replicate n .renderFrame ++ rest →
    AnswersNext (Sys2Proof.core.run (2 * n) s) fun t =>
      t.playing = true ∧ t.control = .idle ∧ t.pending = rest ∧ t.trk = s.trk ∧ t.songTicks = s.songTicks ∧
      t.stopReq = s.stopReq ∧ t.tickDue = false ∧
      (∀ j : ChanIdx, t.ch[j].env = s.ch[j].env ∧ t.ch[j].gL = s.ch[j].gL ∧ t.ch[j].gR = s.ch[j].gR ∧
        t.ch[j].inc = s.ch[j].inc) ∧
      ∃ frames : List (Half × Half), frames.length = n ∧
        t.answers = (frames.map fun f => Answer.frame f.1 f.2) ++ s.answers

/-! ### The invariant of the machine -/

/-- The invariant holds after power-on reset with any parameters in range and any image in canonical form. -/
def Obligations.PowerOnHasTheInvariant : Prop :=
  State.reset.Inv ∧
    ∀ (sampleRate : Nat) (rom : Rom) (ops : List HostOp), Config.wellFormed sampleRate rom.size = true → rom.wf →
      State.Inv { State.powerOn sampleRate rom with pending := ops }

/-- Every step keeps the invariant. -/
def Obligations.EveryStepKeepsTheInvariant : Prop :=
  ∀ s t : State, s.Inv → step s = .next t → t.Inv

/-- Under the invariant no step faults, and the only refusal is of a host register access the window does not have. -/
def Obligations.InvariantStatesRun : Prop :=
  ∀ s : State, s.Inv →
    (∃ t, step s = .next t) ∨
      ∃ op rest off size, s.control = .idle ∧ s.pending = op :: rest ∧ op.wellFormed = false ∧
        step s = .refused (.badRegisterAccess off size)

/-- Whatever the host asks for, a run from power-on never faults, and what it reaches has the invariant. -/
def Obligations.RunsFromPowerOnAreSafe : Prop :=
  ∀ (sampleRate : Nat) (rom : Rom) (ops : List HostOp) (k : Nat),
    Config.wellFormed sampleRate rom.size = true → rom.wf → (∀ op ∈ ops, op.wellFormed = true) →
    AnswersNext (Sys2Proof.core.run k { State.powerOn sampleRate rom with pending := ops }) fun t => t.Inv
end

