-- ==== Sys2Proof/Laws/Channels.lean ====
section
/-! SUPPORT. The channel engine: what a tick, an advance and a recompute do to a channel, said once each. -/

namespace Sys2Proof.Machine

/-! ### The envelope step -/

/-- A tick of a channel in Attack whose gate runs (R114, R115). -/
theorem Channel.tick_attack {c : Channel} (hs : c.state = .attack) (hg : c.gate ≠ 0) :
    c.tick = { c with
      gate := c.gate - 1, env := BitVec.ofNat 8 (attackLevel c.env.toNat c.voice.attack.toNat),
      state := if attackLevel c.env.toNat c.voice.attack.toNat = 255 then .decay else .attack } := by
  have hg' : ¬c.gate = 0#16 := hg
  simp [Channel.tick, Channel.live, hs, Channel.gateStep, hg', Channel.levelStep]

/-- A tick of a channel in Decay whose gate runs (R114, R115). -/
theorem Channel.tick_decay {c : Channel} (hs : c.state = .decay) (hg : c.gate ≠ 0) :
    c.tick = { c with
      gate := c.gate - 1, env := BitVec.ofNat 8 (decayLevel c.env.toNat c.voice.decay.toNat c.voice.sustain.toNat),
      state := if decayLevel c.env.toNat c.voice.decay.toNat c.voice.sustain.toNat = c.voice.sustain.toNat
        then .sustain else .decay } := by
  have hg' : ¬c.gate = 0#16 := hg
  simp [Channel.tick, Channel.live, hs, Channel.gateStep, hg', Channel.levelStep]

/-- A tick of a channel in Sustain whose gate runs (R114, R115). -/
theorem Channel.tick_sustain {c : Channel} (hs : c.state = .sustain) (hg : c.gate ≠ 0) :
    c.tick = { c with gate := c.gate - 1 } := by
  have hg' : ¬c.gate = 0#16 := hg
  simp [Channel.tick, Channel.live, hs, Channel.gateStep, hg', Channel.levelStep]

/-- A tick of a live channel that is in Release or whose gate has expired (R114, R115). -/
theorem Channel.tick_release {c : Channel} (h : c.state = .release ∨ (c.state ≠ .idle ∧ c.gate = 0)) :
    c.tick = { c with
      env := BitVec.ofNat 8 (releaseLevel c.env.toNat c.voice.release.toNat),
      state := if releaseLevel c.env.toNat c.voice.release.toNat = 0 then .idle else .release } := by
  rcases h with hs | ⟨hs, hg⟩
  · simp [Channel.tick, Channel.live, hs, Channel.gateStep, Channel.levelStep]
  · have : c.state = .attack ∨ c.state = .decay ∨ c.state = .sustain ∨ c.state = .release := by
      cases h : c.state <;> simp_all
    rcases this with h | h | h | h <;> simp [Channel.tick, Channel.live, h, Channel.gateStep, hg, Channel.levelStep]

/-- An Idle channel is not ticked (R80). -/
theorem Channel.tick_idle {c : Channel} (h : c.state = .idle) : c.tick = c := by simp [Channel.tick, Channel.live, h]

theorem Channel.gateStep_keeps (c : Channel) :
    c.gateStep = { c with state := c.gateStep.state, gate := c.gateStep.gate } := by
  unfold Channel.gateStep; split <;> (try split) <;> rfl

theorem Channel.levelStep_keeps (c : Channel) :
    c.levelStep = { c with state := c.levelStep.state, env := c.levelStep.env } := by
  unfold Channel.levelStep; split <;> rfl

/-- A tick changes `state`, `env` and `gate` alone (R114, R115). -/
theorem Channel.tick_keeps (c : Channel) :
    c.tick = { c with state := c.tick.state, env := c.tick.env, gate := c.tick.gate } := by
  unfold Channel.tick
  split
  · rw [Channel.levelStep_keeps, Channel.gateStep_keeps]
  · rfl

@[simp] theorem Channel.tick_track (c : Channel) : c.tick.track = c.track := by rw [Channel.tick_keeps]
@[simp] theorem Channel.tick_key (c : Channel) : c.tick.key = c.key := by rw [Channel.tick_keeps]
@[simp] theorem Channel.tick_vel (c : Channel) : c.tick.vel = c.vel := by rw [Channel.tick_keeps]
@[simp] theorem Channel.tick_voice (c : Channel) : c.tick.voice = c.voice := by rw [Channel.tick_keeps]
@[simp] theorem Channel.tick_phase (c : Channel) : c.tick.phase = c.phase := by rw [Channel.tick_keeps]
@[simp] theorem Channel.tick_pos (c : Channel) : c.tick.pos = c.pos := by rw [Channel.tick_keeps]
@[simp] theorem Channel.tick_lfsr (c : Channel) : c.tick.lfsr = c.lfsr := by rw [Channel.tick_keeps]
@[simp] theorem Channel.tick_inc (c : Channel) : c.tick.inc = c.inc := by rw [Channel.tick_keeps]
@[simp] theorem Channel.tick_gL (c : Channel) : c.tick.gL = c.gL := by rw [Channel.tick_keeps]
@[simp] theorem Channel.tick_gR (c : Channel) : c.tick.gR = c.gR := by rw [Channel.tick_keeps]

/-- A channel that is live after a tick was live before it. -/
theorem Channel.live_of_tick_live {c : Channel} (h : c.tick.live = true) : c.live = true := by
  by_contra hc
  have : c.tick = c := by unfold Channel.tick; simp [hc]
  exact hc (this ▸ h)

/-! ### The advance -/

/-- An advance changes `state`, `phase`, `pos` and `lfsr` alone (R125 to R128). -/
theorem Channel.advance_keeps (c : Channel) :
    c.advance = { c with
      state := c.advance.state, phase := c.advance.phase, pos := c.advance.pos, lfsr := c.advance.lfsr } := by
  unfold Channel.advance
  split
  · rfl
  · rfl
  · rfl
  · unfold Channel.advanceSample
    simp only
    split
    · rfl
    · split <;> rfl

/-- An advance leaves the phase of the envelope, or frees the channel (R128). -/
theorem Channel.frameAdvance_state (c : Channel) : c.frameAdvance.state = c.state ∨ c.frameAdvance.state = .idle := by
  unfold Channel.frameAdvance
  split
  · unfold Channel.advance
    split
    · exact .inl rfl
    · exact .inl rfl
    · exact .inl rfl
    · unfold Channel.advanceSample
      simp only
      split
      · exact .inl rfl
      · split
        · exact .inl rfl
        · exact .inr rfl
  · exact .inl rfl

@[simp] theorem Channel.advance_voice (c : Channel) : c.advance.voice = c.voice := by rw [Channel.advance_keeps]
@[simp] theorem Channel.advance_env (c : Channel) : c.advance.env = c.env := by rw [Channel.advance_keeps]
@[simp] theorem Channel.advance_inc (c : Channel) : c.advance.inc = c.inc := by rw [Channel.advance_keeps]
@[simp] theorem Channel.advance_gL (c : Channel) : c.advance.gL = c.gL := by rw [Channel.advance_keeps]
@[simp] theorem Channel.advance_gR (c : Channel) : c.advance.gR = c.gR := by rw [Channel.advance_keeps]

/-- The shifts of the noise register compose. -/
theorem lfsrShifts_add (short : Bool) (m n : Nat) (x : BitVec 15) :
    lfsrShifts short (m + n) x = lfsrShifts short n (lfsrShifts short m x) := by
  induction m generalizing x with
  | zero => simp [lfsrShifts]
  | succ m ih => rw [Nat.succ_add]; exact ih _

/-- A bit of the noise register after a shift, below the top one (R127). -/
theorem lfsrShift_bit (short : Bool) (x : BitVec 15) {k : Nat} (hk : k < 14) :
    (lfsrShift short x).getLsbD k =
      if short && decide (k = 6) then x.getLsbD 0 != x.getLsbD 1 else x.getLsbD (k + 1) := by
  unfold lfsrShift
  cases hb : (x.getLsbD 0 != x.getLsbD 1) <;> cases short <;> interval_cases k <;> simp

/-- The top bit of the noise register after a shift (R127). -/
theorem lfsrShift_top (short : Bool) (x : BitVec 15) :
    (lfsrShift short x).getLsbD 14 = (x.getLsbD 0 != x.getLsbD 1) := by
  unfold lfsrShift
  cases hb : (x.getLsbD 0 != x.getLsbD 1) <;> cases short <;> simp

/-! ### Mix -/

/-- The value of `sat16` (R13). -/
theorem sat16_toInt (v : Int) : (sat16 v).toInt = min 32767 (max (-32768) v) := by
  unfold sat16
  rw [BitVec.toInt_ofInt]
  simp only [sat16Int, clamp]
  rw [Int.bmod_eq_of_le] <;> norm_num

/-- Without a live channel the frame sums are 0. -/
theorem mixSum_idle (r : Rom) (l : List Channel) (h : ∀ c ∈ l, c.live = false) : mixSum r l = some (0, 0) := by
  induction l with
  | nil => rfl
  | cons c rest ih => simp [mixSum, ih fun c hc => h c (by simp [hc]), h c (by simp)]

/-! ### The statements' words and the model's functions -/

/-- The descriptor word of the statements is the resolver's (R52). -/
theorem u32At_eq_descWord (d : List Byte) (k : Nat) : u32At d k = descWord d k := by
  simp only [u32At, descWord, leValue, descByte]
  ring

/-- F and B written out are those of the model (R10, R121). -/
theorem pitchParameters_eq_pitchBase (v : VoiceKind) : pitchParameters v = v.pitchBase := by cases v <;> rfl

/-- The repeated shift of R127 is the iterate of one shift. -/
theorem lfsrShift_iterate (short : Bool) (n : Nat) (x : BitVec 15) : (lfsrShift short)^[n] x = lfsrShifts short n x := by
  induction n generalizing x with
  | zero => rfl
  | succ n ih => rw [Function.iterate_succ_apply, ih]; rfl

/-- Advancing the phase wraps it at 2^32 (R125). -/
theorem Channel.advancePhase_phaseAdvances (c : Channel) : PhaseAdvances c c.advancePhase := by
  show (BitVec.ofNat 32 (c.phase.toNat + c.inc.toNat)).toNat = _
  rw [BitVec.toNat_ofNat]

/-- `sext_8` is the signed value of the byte (R13). -/
theorem sext8_eq_toInt (b : Byte) : sext8 b = b.toInt := by
  have := b.isLt
  rw [BitVec.toInt_eq_toNat_cond]
  unfold sext8
  split <;> split <;> omega

end Sys2Proof.Machine
end

