-- ==== Sys2Proof/Laws/State.lean ====
section
/-! SUPPORT. One lemma per field per update of the state, each true by rfl, so that no proof unfolds a record update. -/

namespace Sys2Proof.Machine

section setCur

variable (s : State) (t : Track)

@[simp] theorem State.setCur_sampleRate : (s.setCur t).sampleRate = s.sampleRate := rfl
@[simp] theorem State.setCur_rom : (s.setCur t).rom = s.rom := rfl
@[simp] theorem State.setCur_playing : (s.setCur t).playing = s.playing := rfl
@[simp] theorem State.setCur_ended : (s.setCur t).ended = s.ended := rfl
@[simp] theorem State.setCur_aborted : (s.setCur t).aborted = s.aborted := rfl
@[simp] theorem State.setCur_loadErr : (s.setCur t).loadErr = s.loadErr := rfl
@[simp] theorem State.setCur_trackErr : (s.setCur t).trackErr = s.trackErr := rfl
@[simp] theorem State.setCur_stopReq : (s.setCur t).stopReq = s.stopReq := rfl
@[simp] theorem State.setCur_tempo : (s.setCur t).tempo = s.tempo := rfl
@[simp] theorem State.setCur_tickAcc : (s.setCur t).tickAcc = s.tickAcc := rfl
@[simp] theorem State.setCur_songTicks : (s.setCur t).songTicks = s.songTicks := rfl
@[simp] theorem State.setCur_allocSeq : (s.setCur t).allocSeq = s.allocSeq := rfl
@[simp] theorem State.setCur_song : (s.setCur t).song = s.song := rfl
@[simp] theorem State.setCur_trk : (s.setCur t).trk = s.trk.set s.cur.val t s.cur.isLt := rfl
@[simp] theorem State.setCur_ch : (s.setCur t).ch = s.ch := rfl
@[simp] theorem State.setCur_err : (s.setCur t).err = s.err := rfl
@[simp] theorem State.setCur_rv : (s.setCur t).rv = s.rv := rfl
@[simp] theorem State.setCur_policy : (s.setCur t).policy = s.policy := rfl
@[simp] theorem State.setCur_songTable : (s.setCur t).songTable = s.songTable := rfl
@[simp] theorem State.setCur_songIndex : (s.setCur t).songIndex = s.songIndex := rfl
@[simp] theorem State.setCur_pending : (s.setCur t).pending = s.pending := rfl
@[simp] theorem State.setCur_answers : (s.setCur t).answers = s.answers := rfl
@[simp] theorem State.setCur_control : (s.setCur t).control = s.control := rfl
@[simp] theorem State.setCur_cur : (s.setCur t).cur = s.cur := rfl
@[simp] theorem State.setCur_freeSeq : (s.setCur t).freeSeq = s.freeSeq := rfl

end setCur

section silence

variable (s : State)

@[simp] theorem State.silence_sampleRate : s.silence.sampleRate = s.sampleRate := rfl
@[simp] theorem State.silence_rom : s.silence.rom = s.rom := rfl
@[simp] theorem State.silence_playing : s.silence.playing = s.playing := rfl
@[simp] theorem State.silence_ended : s.silence.ended = s.ended := rfl
@[simp] theorem State.silence_aborted : s.silence.aborted = s.aborted := rfl
@[simp] theorem State.silence_loadErr : s.silence.loadErr = s.loadErr := rfl
@[simp] theorem State.silence_trackErr : s.silence.trackErr = s.trackErr := rfl
@[simp] theorem State.silence_stopReq : s.silence.stopReq = s.stopReq := rfl
@[simp] theorem State.silence_tempo : s.silence.tempo = s.tempo := rfl
@[simp] theorem State.silence_tickAcc : s.silence.tickAcc = s.tickAcc := rfl
@[simp] theorem State.silence_songTicks : s.silence.songTicks = s.songTicks := rfl
@[simp] theorem State.silence_allocSeq : s.silence.allocSeq = s.allocSeq := rfl
@[simp] theorem State.silence_song : s.silence.song = s.song := rfl
@[simp] theorem State.silence_trk : s.silence.trk = s.trk := rfl
@[simp] theorem State.silence_ch : s.silence.ch = chanTable fun j => s.ch[j].stop := rfl
@[simp] theorem State.silence_err : s.silence.err = s.err := rfl
@[simp] theorem State.silence_rv : s.silence.rv = s.rv := rfl
@[simp] theorem State.silence_policy : s.silence.policy = s.policy := rfl
@[simp] theorem State.silence_songTable : s.silence.songTable = s.songTable := rfl
@[simp] theorem State.silence_songIndex : s.silence.songIndex = s.songIndex := rfl
@[simp] theorem State.silence_pending : s.silence.pending = s.pending := rfl
@[simp] theorem State.silence_answers : s.silence.answers = s.answers := rfl
@[simp] theorem State.silence_control : s.silence.control = s.control := rfl
@[simp] theorem State.silence_cur : s.silence.cur = s.cur := rfl
@[simp] theorem State.silence_freeSeq : s.silence.freeSeq = s.freeSeq := rfl

end silence

section answer

variable (s : State) (a : Answer)

@[simp] theorem State.answer_sampleRate : (s.answer a).sampleRate = s.sampleRate := rfl
@[simp] theorem State.answer_rom : (s.answer a).rom = s.rom := rfl
@[simp] theorem State.answer_playing : (s.answer a).playing = s.playing := rfl
@[simp] theorem State.answer_ended : (s.answer a).ended = s.ended := rfl
@[simp] theorem State.answer_aborted : (s.answer a).aborted = s.aborted := rfl
@[simp] theorem State.answer_loadErr : (s.answer a).loadErr = s.loadErr := rfl
@[simp] theorem State.answer_trackErr : (s.answer a).trackErr = s.trackErr := rfl
@[simp] theorem State.answer_stopReq : (s.answer a).stopReq = s.stopReq := rfl
@[simp] theorem State.answer_tempo : (s.answer a).tempo = s.tempo := rfl
@[simp] theorem State.answer_tickAcc : (s.answer a).tickAcc = s.tickAcc := rfl
@[simp] theorem State.answer_songTicks : (s.answer a).songTicks = s.songTicks := rfl
@[simp] theorem State.answer_allocSeq : (s.answer a).allocSeq = s.allocSeq := rfl
@[simp] theorem State.answer_song : (s.answer a).song = s.song := rfl
@[simp] theorem State.answer_trk : (s.answer a).trk = s.trk := rfl
@[simp] theorem State.answer_ch : (s.answer a).ch = s.ch := rfl
@[simp] theorem State.answer_err : (s.answer a).err = s.err := rfl
@[simp] theorem State.answer_rv : (s.answer a).rv = s.rv := rfl
@[simp] theorem State.answer_policy : (s.answer a).policy = s.policy := rfl
@[simp] theorem State.answer_songTable : (s.answer a).songTable = s.songTable := rfl
@[simp] theorem State.answer_songIndex : (s.answer a).songIndex = s.songIndex := rfl
@[simp] theorem State.answer_pending : (s.answer a).pending = s.pending := rfl
@[simp] theorem State.answer_answers : (s.answer a).answers = a :: s.answers := rfl
@[simp] theorem State.answer_control : (s.answer a).control = .idle := rfl
@[simp] theorem State.answer_cur : (s.answer a).cur = s.cur := rfl
@[simp] theorem State.answer_freeSeq : (s.answer a).freeSeq = s.freeSeq := rfl

end answer

section recordError

variable (s : State) (e : ErrKind)

@[simp] theorem State.recordError_sampleRate : (s.recordError e).sampleRate = s.sampleRate := rfl
@[simp] theorem State.recordError_rom : (s.recordError e).rom = s.rom := rfl
@[simp] theorem State.recordError_playing : (s.recordError e).playing = s.playing := rfl
@[simp] theorem State.recordError_ended : (s.recordError e).ended = s.ended := rfl
@[simp] theorem State.recordError_aborted : (s.recordError e).aborted = s.aborted := rfl
@[simp] theorem State.recordError_loadErr : (s.recordError e).loadErr = s.loadErr := rfl
@[simp] theorem State.recordError_trackErr : (s.recordError e).trackErr = s.trackErr := rfl
@[simp] theorem State.recordError_stopReq : (s.recordError e).stopReq = s.stopReq := rfl
@[simp] theorem State.recordError_tempo : (s.recordError e).tempo = s.tempo := rfl
@[simp] theorem State.recordError_tickAcc : (s.recordError e).tickAcc = s.tickAcc := rfl
@[simp] theorem State.recordError_songTicks : (s.recordError e).songTicks = s.songTicks := rfl
@[simp] theorem State.recordError_allocSeq : (s.recordError e).allocSeq = s.allocSeq := rfl
@[simp] theorem State.recordError_song : (s.recordError e).song = s.song := rfl
@[simp] theorem State.recordError_trk : (s.recordError e).trk = s.trk := rfl
@[simp] theorem State.recordError_ch : (s.recordError e).ch = s.ch := rfl
@[simp] theorem State.recordError_rv : (s.recordError e).rv = s.rv := rfl
@[simp] theorem State.recordError_policy : (s.recordError e).policy = s.policy := rfl
@[simp] theorem State.recordError_songTable : (s.recordError e).songTable = s.songTable := rfl
@[simp] theorem State.recordError_songIndex : (s.recordError e).songIndex = s.songIndex := rfl
@[simp] theorem State.recordError_pending : (s.recordError e).pending = s.pending := rfl
@[simp] theorem State.recordError_answers : (s.recordError e).answers = s.answers := rfl
@[simp] theorem State.recordError_control : (s.recordError e).control = s.control := rfl
@[simp] theorem State.recordError_cur : (s.recordError e).cur = s.cur := rfl
@[simp] theorem State.recordError_freeSeq : (s.recordError e).freeSeq = s.freeSeq := rfl

end recordError

section abortSession

variable (s : State)

@[simp] theorem State.abortSession_sampleRate : s.abortSession.sampleRate = s.sampleRate := rfl
@[simp] theorem State.abortSession_rom : s.abortSession.rom = s.rom := rfl
@[simp] theorem State.abortSession_playing : s.abortSession.playing = false := rfl
@[simp] theorem State.abortSession_ended : s.abortSession.ended = s.ended := rfl
@[simp] theorem State.abortSession_aborted : s.abortSession.aborted = true := rfl
@[simp] theorem State.abortSession_loadErr : s.abortSession.loadErr = s.loadErr := rfl
@[simp] theorem State.abortSession_trackErr : s.abortSession.trackErr = s.trackErr := rfl
@[simp] theorem State.abortSession_stopReq : s.abortSession.stopReq = false := rfl
@[simp] theorem State.abortSession_tempo : s.abortSession.tempo = s.tempo := rfl
@[simp] theorem State.abortSession_tickAcc : s.abortSession.tickAcc = s.tickAcc := rfl
@[simp] theorem State.abortSession_songTicks : s.abortSession.songTicks = s.songTicks := rfl
@[simp] theorem State.abortSession_allocSeq : s.abortSession.allocSeq = s.allocSeq := rfl
@[simp] theorem State.abortSession_song : s.abortSession.song = s.song := rfl
@[simp] theorem State.abortSession_trk : s.abortSession.trk = s.trk := rfl
@[simp] theorem State.abortSession_ch : s.abortSession.ch = chanTable fun j => s.ch[j].stop := rfl
@[simp] theorem State.abortSession_err : s.abortSession.err = s.err := rfl
@[simp] theorem State.abortSession_rv : s.abortSession.rv = s.rv := rfl
@[simp] theorem State.abortSession_policy : s.abortSession.policy = s.policy := rfl
@[simp] theorem State.abortSession_songTable : s.abortSession.songTable = s.songTable := rfl
@[simp] theorem State.abortSession_songIndex : s.abortSession.songIndex = s.songIndex := rfl
@[simp] theorem State.abortSession_pending : s.abortSession.pending = s.pending := rfl
@[simp] theorem State.abortSession_answers : s.abortSession.answers = s.answers := rfl
@[simp] theorem State.abortSession_control : s.abortSession.control = s.control := rfl
@[simp] theorem State.abortSession_cur : s.abortSession.cur = s.cur := rfl
@[simp] theorem State.abortSession_freeSeq : s.abortSession.freeSeq = s.freeSeq := rfl

end abortSession

section haltTrack

variable (s : State)

@[simp] theorem State.haltTrack_sampleRate : s.haltTrack.sampleRate = s.sampleRate := rfl
@[simp] theorem State.haltTrack_rom : s.haltTrack.rom = s.rom := rfl
@[simp] theorem State.haltTrack_playing : s.haltTrack.playing = s.playing := rfl
@[simp] theorem State.haltTrack_ended : s.haltTrack.ended = s.ended := rfl
@[simp] theorem State.haltTrack_aborted : s.haltTrack.aborted = s.aborted := rfl
@[simp] theorem State.haltTrack_loadErr : s.haltTrack.loadErr = s.loadErr := rfl
@[simp] theorem State.haltTrack_trackErr : s.haltTrack.trackErr = true := rfl
@[simp] theorem State.haltTrack_stopReq : s.haltTrack.stopReq = s.stopReq := rfl
@[simp] theorem State.haltTrack_tempo : s.haltTrack.tempo = s.tempo := rfl
@[simp] theorem State.haltTrack_tickAcc : s.haltTrack.tickAcc = s.tickAcc := rfl
@[simp] theorem State.haltTrack_songTicks : s.haltTrack.songTicks = s.songTicks := rfl
@[simp] theorem State.haltTrack_allocSeq : s.haltTrack.allocSeq = s.allocSeq := rfl
@[simp] theorem State.haltTrack_song : s.haltTrack.song = s.song := rfl
@[simp] theorem State.haltTrack_trk :
    s.haltTrack.trk = s.trk.set s.cur.val { s.curTrack with active := false, halted := true } s.cur.isLt := rfl
@[simp] theorem State.haltTrack_ch : s.haltTrack.ch = s.ch := rfl
@[simp] theorem State.haltTrack_err : s.haltTrack.err = s.err := rfl
@[simp] theorem State.haltTrack_rv : s.haltTrack.rv = s.rv := rfl
@[simp] theorem State.haltTrack_policy : s.haltTrack.policy = s.policy := rfl
@[simp] theorem State.haltTrack_songTable : s.haltTrack.songTable = s.songTable := rfl
@[simp] theorem State.haltTrack_songIndex : s.haltTrack.songIndex = s.songIndex := rfl
@[simp] theorem State.haltTrack_pending : s.haltTrack.pending = s.pending := rfl
@[simp] theorem State.haltTrack_answers : s.haltTrack.answers = s.answers := rfl
@[simp] theorem State.haltTrack_control : s.haltTrack.control = s.control := rfl
@[simp] theorem State.haltTrack_cur : s.haltTrack.cur = s.cur := rfl
@[simp] theorem State.haltTrack_freeSeq : s.haltTrack.freeSeq = s.freeSeq := rfl

end haltTrack

section countPhase

variable (s : State)

@[simp] theorem State.countPhase_sampleRate : s.countPhase.sampleRate = s.sampleRate := rfl
@[simp] theorem State.countPhase_rom : s.countPhase.rom = s.rom := rfl
@[simp] theorem State.countPhase_playing : s.countPhase.playing = s.playing := rfl
@[simp] theorem State.countPhase_ended : s.countPhase.ended = s.ended := rfl
@[simp] theorem State.countPhase_aborted : s.countPhase.aborted = s.aborted := rfl
@[simp] theorem State.countPhase_loadErr : s.countPhase.loadErr = s.loadErr := rfl
@[simp] theorem State.countPhase_trackErr : s.countPhase.trackErr = s.trackErr := rfl
@[simp] theorem State.countPhase_stopReq : s.countPhase.stopReq = s.stopReq := rfl
@[simp] theorem State.countPhase_tempo : s.countPhase.tempo = s.tempo := rfl
@[simp] theorem State.countPhase_tickAcc : s.countPhase.tickAcc = s.tickAcc := rfl
@[simp] theorem State.countPhase_songTicks : s.countPhase.songTicks = s.songTicks + 1 := rfl
@[simp] theorem State.countPhase_allocSeq : s.countPhase.allocSeq = s.allocSeq := rfl
@[simp] theorem State.countPhase_song : s.countPhase.song = s.song := rfl
@[simp] theorem State.countPhase_trk : s.countPhase.trk = s.trk := rfl
@[simp] theorem State.countPhase_ch : s.countPhase.ch = s.ch := rfl
@[simp] theorem State.countPhase_err : s.countPhase.err = s.err := rfl
@[simp] theorem State.countPhase_rv : s.countPhase.rv = s.rv := rfl
@[simp] theorem State.countPhase_policy : s.countPhase.policy = s.policy := rfl
@[simp] theorem State.countPhase_songTable : s.countPhase.songTable = s.songTable := rfl
@[simp] theorem State.countPhase_songIndex : s.countPhase.songIndex = s.songIndex := rfl
@[simp] theorem State.countPhase_pending : s.countPhase.pending = s.pending := rfl
@[simp] theorem State.countPhase_answers : s.countPhase.answers = s.answers := rfl
@[simp] theorem State.countPhase_control : s.countPhase.control = s.control := rfl
@[simp] theorem State.countPhase_cur : s.countPhase.cur = s.cur := rfl
@[simp] theorem State.countPhase_freeSeq : s.countPhase.freeSeq = s.freeSeq := rfl

end countPhase

section songEnd

variable (s : State)

@[simp] theorem State.songEnd_sampleRate : s.songEnd.sampleRate = s.sampleRate := rfl
@[simp] theorem State.songEnd_rom : s.songEnd.rom = s.rom := rfl
@[simp] theorem State.songEnd_playing : s.songEnd.playing = false := rfl
@[simp] theorem State.songEnd_ended : s.songEnd.ended = true := rfl
@[simp] theorem State.songEnd_aborted : s.songEnd.aborted = s.aborted := rfl
@[simp] theorem State.songEnd_loadErr : s.songEnd.loadErr = s.loadErr := rfl
@[simp] theorem State.songEnd_trackErr : s.songEnd.trackErr = s.trackErr := rfl
@[simp] theorem State.songEnd_stopReq : s.songEnd.stopReq = s.stopReq := rfl
@[simp] theorem State.songEnd_tempo : s.songEnd.tempo = s.tempo := rfl
@[simp] theorem State.songEnd_tickAcc : s.songEnd.tickAcc = s.tickAcc := rfl
@[simp] theorem State.songEnd_songTicks : s.songEnd.songTicks = s.songTicks := rfl
@[simp] theorem State.songEnd_allocSeq : s.songEnd.allocSeq = s.allocSeq := rfl
@[simp] theorem State.songEnd_song : s.songEnd.song = s.song := rfl
@[simp] theorem State.songEnd_trk : s.songEnd.trk = s.trk := rfl
@[simp] theorem State.songEnd_ch : s.songEnd.ch = chanTable fun j => s.ch[j].stop := rfl
@[simp] theorem State.songEnd_err : s.songEnd.err = s.err := rfl
@[simp] theorem State.songEnd_rv : s.songEnd.rv = s.rv := rfl
@[simp] theorem State.songEnd_policy : s.songEnd.policy = s.policy := rfl
@[simp] theorem State.songEnd_songTable : s.songEnd.songTable = s.songTable := rfl
@[simp] theorem State.songEnd_songIndex : s.songEnd.songIndex = s.songIndex := rfl
@[simp] theorem State.songEnd_pending : s.songEnd.pending = s.pending := rfl
@[simp] theorem State.songEnd_answers : s.songEnd.answers = s.answers := rfl
@[simp] theorem State.songEnd_control : s.songEnd.control = s.control := rfl
@[simp] theorem State.songEnd_cur : s.songEnd.cur = s.cur := rfl
@[simp] theorem State.songEnd_freeSeq : s.songEnd.freeSeq = s.freeSeq := rfl

end songEnd

section lfoPhase

variable (s : State)

@[simp] theorem State.lfoPhase_sampleRate : s.lfoPhase.sampleRate = s.sampleRate := rfl
@[simp] theorem State.lfoPhase_rom : s.lfoPhase.rom = s.rom := rfl
@[simp] theorem State.lfoPhase_playing : s.lfoPhase.playing = s.playing := rfl
@[simp] theorem State.lfoPhase_ended : s.lfoPhase.ended = s.ended := rfl
@[simp] theorem State.lfoPhase_aborted : s.lfoPhase.aborted = s.aborted := rfl
@[simp] theorem State.lfoPhase_loadErr : s.lfoPhase.loadErr = s.loadErr := rfl
@[simp] theorem State.lfoPhase_trackErr : s.lfoPhase.trackErr = s.trackErr := rfl
@[simp] theorem State.lfoPhase_stopReq : s.lfoPhase.stopReq = s.stopReq := rfl
@[simp] theorem State.lfoPhase_tempo : s.lfoPhase.tempo = s.tempo := rfl
@[simp] theorem State.lfoPhase_tickAcc : s.lfoPhase.tickAcc = s.tickAcc := rfl
@[simp] theorem State.lfoPhase_songTicks : s.lfoPhase.songTicks = s.songTicks := rfl
@[simp] theorem State.lfoPhase_allocSeq : s.lfoPhase.allocSeq = s.allocSeq := rfl
@[simp] theorem State.lfoPhase_song : s.lfoPhase.song = s.song := rfl
@[simp] theorem State.lfoPhase_trk :
    s.lfoPhase.trk = trackTable fun i => if i.val < s.song.numTracks.toNat then s.trk[i].lfoStep else s.trk[i] := rfl
@[simp] theorem State.lfoPhase_ch : s.lfoPhase.ch = s.ch := rfl
@[simp] theorem State.lfoPhase_err : s.lfoPhase.err = s.err := rfl
@[simp] theorem State.lfoPhase_rv : s.lfoPhase.rv = s.rv := rfl
@[simp] theorem State.lfoPhase_policy : s.lfoPhase.policy = s.policy := rfl
@[simp] theorem State.lfoPhase_songTable : s.lfoPhase.songTable = s.songTable := rfl
@[simp] theorem State.lfoPhase_songIndex : s.lfoPhase.songIndex = s.songIndex := rfl
@[simp] theorem State.lfoPhase_pending : s.lfoPhase.pending = s.pending := rfl
@[simp] theorem State.lfoPhase_answers : s.lfoPhase.answers = s.answers := rfl
@[simp] theorem State.lfoPhase_control : s.lfoPhase.control = s.control := rfl
@[simp] theorem State.lfoPhase_cur : s.lfoPhase.cur = s.cur := rfl
@[simp] theorem State.lfoPhase_freeSeq : s.lfoPhase.freeSeq = s.freeSeq := rfl

end lfoPhase

section envelopePhase

variable (s : State)

@[simp] theorem State.envelopePhase_sampleRate : s.envelopePhase.sampleRate = s.sampleRate := rfl
@[simp] theorem State.envelopePhase_rom : s.envelopePhase.rom = s.rom := rfl
@[simp] theorem State.envelopePhase_playing : s.envelopePhase.playing = s.playing := rfl
@[simp] theorem State.envelopePhase_ended : s.envelopePhase.ended = s.ended := rfl
@[simp] theorem State.envelopePhase_aborted : s.envelopePhase.aborted = s.aborted := rfl
@[simp] theorem State.envelopePhase_loadErr : s.envelopePhase.loadErr = s.loadErr := rfl
@[simp] theorem State.envelopePhase_trackErr : s.envelopePhase.trackErr = s.trackErr := rfl
@[simp] theorem State.envelopePhase_stopReq : s.envelopePhase.stopReq = s.stopReq := rfl
@[simp] theorem State.envelopePhase_tempo : s.envelopePhase.tempo = s.tempo := rfl
@[simp] theorem State.envelopePhase_tickAcc : s.envelopePhase.tickAcc = s.tickAcc := rfl
@[simp] theorem State.envelopePhase_songTicks : s.envelopePhase.songTicks = s.songTicks := rfl
@[simp] theorem State.envelopePhase_allocSeq : s.envelopePhase.allocSeq = s.allocSeq := rfl
@[simp] theorem State.envelopePhase_song : s.envelopePhase.song = s.song := rfl
@[simp] theorem State.envelopePhase_trk : s.envelopePhase.trk = s.trk := rfl
@[simp] theorem State.envelopePhase_ch : s.envelopePhase.ch = chanTable fun j => s.ch[j].tick := rfl
@[simp] theorem State.envelopePhase_err : s.envelopePhase.err = s.err := rfl
@[simp] theorem State.envelopePhase_rv : s.envelopePhase.rv = s.rv := rfl
@[simp] theorem State.envelopePhase_policy : s.envelopePhase.policy = s.policy := rfl
@[simp] theorem State.envelopePhase_songTable : s.envelopePhase.songTable = s.songTable := rfl
@[simp] theorem State.envelopePhase_songIndex : s.envelopePhase.songIndex = s.songIndex := rfl
@[simp] theorem State.envelopePhase_pending : s.envelopePhase.pending = s.pending := rfl
@[simp] theorem State.envelopePhase_answers : s.envelopePhase.answers = s.answers := rfl
@[simp] theorem State.envelopePhase_control : s.envelopePhase.control = s.control := rfl
@[simp] theorem State.envelopePhase_cur : s.envelopePhase.cur = s.cur := rfl
@[simp] theorem State.envelopePhase_freeSeq : s.envelopePhase.freeSeq = s.freeSeq := rfl

end envelopePhase

section recomputePhase

variable (s : State)

@[simp] theorem State.recomputePhase_sampleRate : s.recomputePhase.sampleRate = s.sampleRate := rfl
@[simp] theorem State.recomputePhase_rom : s.recomputePhase.rom = s.rom := rfl
@[simp] theorem State.recomputePhase_playing : s.recomputePhase.playing = s.playing := rfl
@[simp] theorem State.recomputePhase_ended : s.recomputePhase.ended = s.ended := rfl
@[simp] theorem State.recomputePhase_aborted : s.recomputePhase.aborted = s.aborted := rfl
@[simp] theorem State.recomputePhase_loadErr : s.recomputePhase.loadErr = s.loadErr := rfl
@[simp] theorem State.recomputePhase_trackErr : s.recomputePhase.trackErr = s.trackErr := rfl
@[simp] theorem State.recomputePhase_stopReq : s.recomputePhase.stopReq = s.stopReq := rfl
@[simp] theorem State.recomputePhase_tempo : s.recomputePhase.tempo = s.tempo := rfl
@[simp] theorem State.recomputePhase_tickAcc : s.recomputePhase.tickAcc = s.tickAcc := rfl
@[simp] theorem State.recomputePhase_songTicks : s.recomputePhase.songTicks = s.songTicks := rfl
@[simp] theorem State.recomputePhase_allocSeq : s.recomputePhase.allocSeq = s.allocSeq := rfl
@[simp] theorem State.recomputePhase_song : s.recomputePhase.song = s.song := rfl
@[simp] theorem State.recomputePhase_trk : s.recomputePhase.trk = s.trk := rfl
@[simp] theorem State.recomputePhase_ch :
    s.recomputePhase.ch = chanTable fun j =>
    if s.ch[j].live then s.ch[j].recompute s.sampleRate s.trk[s.ch[j].track] else s.ch[j] := rfl
@[simp] theorem State.recomputePhase_err : s.recomputePhase.err = s.err := rfl
@[simp] theorem State.recomputePhase_rv : s.recomputePhase.rv = s.rv := rfl
@[simp] theorem State.recomputePhase_policy : s.recomputePhase.policy = s.policy := rfl
@[simp] theorem State.recomputePhase_songTable : s.recomputePhase.songTable = s.songTable := rfl
@[simp] theorem State.recomputePhase_songIndex : s.recomputePhase.songIndex = s.songIndex := rfl
@[simp] theorem State.recomputePhase_pending : s.recomputePhase.pending = s.pending := rfl
@[simp] theorem State.recomputePhase_answers : s.recomputePhase.answers = s.answers := rfl
@[simp] theorem State.recomputePhase_control : s.recomputePhase.control = s.control := rfl
@[simp] theorem State.recomputePhase_cur : s.recomputePhase.cur = s.cur := rfl
@[simp] theorem State.recomputePhase_freeSeq : s.recomputePhase.freeSeq = s.freeSeq := rfl

end recomputePhase

section beginTick

variable (s : State)

@[simp] theorem State.beginTick_sampleRate : s.beginTick.sampleRate = s.sampleRate := rfl
@[simp] theorem State.beginTick_rom : s.beginTick.rom = s.rom := rfl
@[simp] theorem State.beginTick_playing : s.beginTick.playing = s.playing := rfl
@[simp] theorem State.beginTick_ended : s.beginTick.ended = s.ended := rfl
@[simp] theorem State.beginTick_aborted : s.beginTick.aborted = s.aborted := rfl
@[simp] theorem State.beginTick_loadErr : s.beginTick.loadErr = s.loadErr := rfl
@[simp] theorem State.beginTick_trackErr : s.beginTick.trackErr = s.trackErr := rfl
@[simp] theorem State.beginTick_stopReq : s.beginTick.stopReq = s.stopReq := rfl
@[simp] theorem State.beginTick_tempo : s.beginTick.tempo = s.tempo := rfl
@[simp] theorem State.beginTick_tickAcc :
    s.beginTick.tickAcc = BitVec.ofNat 32 (s.tickAcc.toNat - Config.thr s.sampleRate) := rfl
@[simp] theorem State.beginTick_songTicks : s.beginTick.songTicks = s.songTicks := rfl
@[simp] theorem State.beginTick_allocSeq : s.beginTick.allocSeq = s.allocSeq := rfl
@[simp] theorem State.beginTick_song : s.beginTick.song = s.song := rfl
@[simp] theorem State.beginTick_trk : s.beginTick.trk = s.trk := rfl
@[simp] theorem State.beginTick_ch : s.beginTick.ch = s.ch := rfl
@[simp] theorem State.beginTick_err : s.beginTick.err = s.err := rfl
@[simp] theorem State.beginTick_rv : s.beginTick.rv = s.rv := rfl
@[simp] theorem State.beginTick_policy : s.beginTick.policy = s.policy := rfl
@[simp] theorem State.beginTick_songTable : s.beginTick.songTable = s.songTable := rfl
@[simp] theorem State.beginTick_songIndex : s.beginTick.songIndex = s.songIndex := rfl
@[simp] theorem State.beginTick_pending : s.beginTick.pending = s.pending := rfl
@[simp] theorem State.beginTick_answers : s.beginTick.answers = s.answers := rfl
@[simp] theorem State.beginTick_control : s.beginTick.control = .enter := rfl
@[simp] theorem State.beginTick_cur : s.beginTick.cur = 0 := rfl
@[simp] theorem State.beginTick_freeSeq : s.beginTick.freeSeq = s.freeSeq := rfl

end beginTick

section accumulate

variable (s : State)

@[simp] theorem State.accumulate_sampleRate : s.accumulate.sampleRate = s.sampleRate := rfl
@[simp] theorem State.accumulate_rom : s.accumulate.rom = s.rom := rfl
@[simp] theorem State.accumulate_playing : s.accumulate.playing = s.playing := rfl
@[simp] theorem State.accumulate_ended : s.accumulate.ended = s.ended := rfl
@[simp] theorem State.accumulate_aborted : s.accumulate.aborted = s.aborted := rfl
@[simp] theorem State.accumulate_loadErr : s.accumulate.loadErr = s.loadErr := rfl
@[simp] theorem State.accumulate_trackErr : s.accumulate.trackErr = s.trackErr := rfl
@[simp] theorem State.accumulate_stopReq : s.accumulate.stopReq = s.stopReq := rfl
@[simp] theorem State.accumulate_tempo : s.accumulate.tempo = s.tempo := rfl
@[simp] theorem State.accumulate_tickAcc :
    s.accumulate.tickAcc = BitVec.ofNat 32 (s.tickAcc.toNat + Config.accPerTempo * s.tempo.toNat) := rfl
@[simp] theorem State.accumulate_songTicks : s.accumulate.songTicks = s.songTicks := rfl
@[simp] theorem State.accumulate_allocSeq : s.accumulate.allocSeq = s.allocSeq := rfl
@[simp] theorem State.accumulate_song : s.accumulate.song = s.song := rfl
@[simp] theorem State.accumulate_trk : s.accumulate.trk = s.trk := rfl
@[simp] theorem State.accumulate_ch : s.accumulate.ch = s.ch := rfl
@[simp] theorem State.accumulate_err : s.accumulate.err = s.err := rfl
@[simp] theorem State.accumulate_rv : s.accumulate.rv = s.rv := rfl
@[simp] theorem State.accumulate_policy : s.accumulate.policy = s.policy := rfl
@[simp] theorem State.accumulate_songTable : s.accumulate.songTable = s.songTable := rfl
@[simp] theorem State.accumulate_songIndex : s.accumulate.songIndex = s.songIndex := rfl
@[simp] theorem State.accumulate_pending : s.accumulate.pending = s.pending := rfl
@[simp] theorem State.accumulate_answers : s.accumulate.answers = s.answers := rfl
@[simp] theorem State.accumulate_control : s.accumulate.control = s.control := rfl
@[simp] theorem State.accumulate_cur : s.accumulate.cur = s.cur := rfl
@[simp] theorem State.accumulate_freeSeq : s.accumulate.freeSeq = s.freeSeq := rfl

end accumulate

section clearSession

variable (s : State)

@[simp] theorem State.clearSession_sampleRate : s.clearSession.sampleRate = s.sampleRate := rfl
@[simp] theorem State.clearSession_rom : s.clearSession.rom = s.rom := rfl
@[simp] theorem State.clearSession_playing : s.clearSession.playing = false := rfl
@[simp] theorem State.clearSession_ended : s.clearSession.ended = false := rfl
@[simp] theorem State.clearSession_aborted : s.clearSession.aborted = false := rfl
@[simp] theorem State.clearSession_loadErr : s.clearSession.loadErr = false := rfl
@[simp] theorem State.clearSession_trackErr : s.clearSession.trackErr = false := rfl
@[simp] theorem State.clearSession_stopReq : s.clearSession.stopReq = false := rfl
@[simp] theorem State.clearSession_tempo : s.clearSession.tempo = 0 := rfl
@[simp] theorem State.clearSession_tickAcc : s.clearSession.tickAcc = 0 := rfl
@[simp] theorem State.clearSession_songTicks : s.clearSession.songTicks = 0 := rfl
@[simp] theorem State.clearSession_allocSeq : s.clearSession.allocSeq = 0 := rfl
@[simp] theorem State.clearSession_song : s.clearSession.song = SongRecord.zero := rfl
@[simp] theorem State.clearSession_trk : s.clearSession.trk = trackTable fun _ => Track.zero := rfl
@[simp] theorem State.clearSession_ch : s.clearSession.ch = chanTable fun _ => Channel.zero := rfl
@[simp] theorem State.clearSession_err : s.clearSession.err = ErrorRecord.zero := rfl
@[simp] theorem State.clearSession_rv : s.clearSession.rv = ReverbLine.zero s.sampleRate := rfl
@[simp] theorem State.clearSession_policy : s.clearSession.policy = s.policy := rfl
@[simp] theorem State.clearSession_songTable : s.clearSession.songTable = s.songTable := rfl
@[simp] theorem State.clearSession_songIndex : s.clearSession.songIndex = s.songIndex := rfl
@[simp] theorem State.clearSession_pending : s.clearSession.pending = s.pending := rfl
@[simp] theorem State.clearSession_answers : s.clearSession.answers = s.answers := rfl
@[simp] theorem State.clearSession_control : s.clearSession.control = s.control := rfl
@[simp] theorem State.clearSession_cur : s.clearSession.cur = s.cur := rfl
@[simp] theorem State.clearSession_freeSeq : s.clearSession.freeSeq = s.freeSeq := rfl

end clearSession

section failLoad

variable (s : State) (e : LoadError)

@[simp] theorem State.failLoad_sampleRate : (s.failLoad e).sampleRate = s.sampleRate := rfl
@[simp] theorem State.failLoad_rom : (s.failLoad e).rom = s.rom := rfl
@[simp] theorem State.failLoad_playing : (s.failLoad e).playing = s.playing := rfl
@[simp] theorem State.failLoad_ended : (s.failLoad e).ended = s.ended := rfl
@[simp] theorem State.failLoad_aborted : (s.failLoad e).aborted = true := rfl
@[simp] theorem State.failLoad_loadErr : (s.failLoad e).loadErr = true := rfl
@[simp] theorem State.failLoad_trackErr : (s.failLoad e).trackErr = s.trackErr := rfl
@[simp] theorem State.failLoad_stopReq : (s.failLoad e).stopReq = s.stopReq := rfl
@[simp] theorem State.failLoad_tempo : (s.failLoad e).tempo = s.tempo := rfl
@[simp] theorem State.failLoad_tickAcc : (s.failLoad e).tickAcc = s.tickAcc := rfl
@[simp] theorem State.failLoad_songTicks : (s.failLoad e).songTicks = s.songTicks := rfl
@[simp] theorem State.failLoad_allocSeq : (s.failLoad e).allocSeq = s.allocSeq := rfl
@[simp] theorem State.failLoad_song : (s.failLoad e).song = s.song := rfl
@[simp] theorem State.failLoad_trk : (s.failLoad e).trk = s.trk := rfl
@[simp] theorem State.failLoad_ch : (s.failLoad e).ch = s.ch := rfl
@[simp] theorem State.failLoad_rv : (s.failLoad e).rv = s.rv := rfl
@[simp] theorem State.failLoad_policy : (s.failLoad e).policy = s.policy := rfl
@[simp] theorem State.failLoad_songTable : (s.failLoad e).songTable = s.songTable := rfl
@[simp] theorem State.failLoad_songIndex : (s.failLoad e).songIndex = s.songIndex := rfl
@[simp] theorem State.failLoad_pending : (s.failLoad e).pending = s.pending := rfl
@[simp] theorem State.failLoad_answers : (s.failLoad e).answers = s.answers := rfl
@[simp] theorem State.failLoad_control : (s.failLoad e).control = s.control := rfl
@[simp] theorem State.failLoad_cur : (s.failLoad e).cur = s.cur := rfl
@[simp] theorem State.failLoad_freeSeq :
    (s.failLoad e).freeSeq = if e.addr < 2 ^ 32 then s.freeSeq else s.freeSeq + 1 := rfl

end failLoad

section beginSession

variable (s : State) (l : Loaded)

@[simp] theorem State.beginSession_sampleRate : (s.beginSession l).sampleRate = s.sampleRate := rfl
@[simp] theorem State.beginSession_rom : (s.beginSession l).rom = s.rom := rfl
@[simp] theorem State.beginSession_playing : (s.beginSession l).playing = true := rfl
@[simp] theorem State.beginSession_ended : (s.beginSession l).ended = s.ended := rfl
@[simp] theorem State.beginSession_aborted : (s.beginSession l).aborted = s.aborted := rfl
@[simp] theorem State.beginSession_loadErr : (s.beginSession l).loadErr = s.loadErr := rfl
@[simp] theorem State.beginSession_trackErr : (s.beginSession l).trackErr = s.trackErr := rfl
@[simp] theorem State.beginSession_stopReq : (s.beginSession l).stopReq = s.stopReq := rfl
@[simp] theorem State.beginSession_tempo : (s.beginSession l).tempo = l.tempo := rfl
@[simp] theorem State.beginSession_tickAcc :
    (s.beginSession l).tickAcc = BitVec.ofNat 32 (Config.thr s.sampleRate) := rfl
@[simp] theorem State.beginSession_songTicks : (s.beginSession l).songTicks = s.songTicks := rfl
@[simp] theorem State.beginSession_allocSeq : (s.beginSession l).allocSeq = s.allocSeq := rfl
@[simp] theorem State.beginSession_song :
    (s.beginSession l).song = ⟨l.numTracks, l.priority, l.reverb, l.instTable⟩ := rfl
@[simp] theorem State.beginSession_trk : (s.beginSession l).trk = loadedTracks l.tracks := rfl
@[simp] theorem State.beginSession_ch : (s.beginSession l).ch = s.ch := rfl
@[simp] theorem State.beginSession_err : (s.beginSession l).err = s.err := rfl
@[simp] theorem State.beginSession_rv : (s.beginSession l).rv = s.rv := rfl
@[simp] theorem State.beginSession_policy : (s.beginSession l).policy = s.policy := rfl
@[simp] theorem State.beginSession_songTable : (s.beginSession l).songTable = s.songTable := rfl
@[simp] theorem State.beginSession_songIndex : (s.beginSession l).songIndex = s.songIndex := rfl
@[simp] theorem State.beginSession_pending : (s.beginSession l).pending = s.pending := rfl
@[simp] theorem State.beginSession_answers : (s.beginSession l).answers = s.answers := rfl
@[simp] theorem State.beginSession_control : (s.beginSession l).control = s.control := rfl
@[simp] theorem State.beginSession_cur : (s.beginSession l).cur = s.cur := rfl
@[simp] theorem State.beginSession_freeSeq : (s.beginSession l).freeSeq = s.freeSeq := rfl

end beginSession

section honourStop

variable (s : State)

@[simp] theorem State.honourStop_sampleRate : s.honourStop.sampleRate = s.sampleRate := rfl
@[simp] theorem State.honourStop_rom : s.honourStop.rom = s.rom := rfl
@[simp] theorem State.honourStop_playing : s.honourStop.playing = false := rfl
@[simp] theorem State.honourStop_ended : s.honourStop.ended = s.ended := rfl
@[simp] theorem State.honourStop_aborted : s.honourStop.aborted = s.aborted := rfl
@[simp] theorem State.honourStop_loadErr : s.honourStop.loadErr = s.loadErr := rfl
@[simp] theorem State.honourStop_trackErr : s.honourStop.trackErr = s.trackErr := rfl
@[simp] theorem State.honourStop_stopReq : s.honourStop.stopReq = false := rfl
@[simp] theorem State.honourStop_tempo : s.honourStop.tempo = s.tempo := rfl
@[simp] theorem State.honourStop_tickAcc : s.honourStop.tickAcc = s.tickAcc := rfl
@[simp] theorem State.honourStop_songTicks : s.honourStop.songTicks = s.songTicks := rfl
@[simp] theorem State.honourStop_allocSeq : s.honourStop.allocSeq = s.allocSeq := rfl
@[simp] theorem State.honourStop_song : s.honourStop.song = s.song := rfl
@[simp] theorem State.honourStop_trk : s.honourStop.trk = s.trk := rfl
@[simp] theorem State.honourStop_ch : s.honourStop.ch = chanTable fun j => s.ch[j].stop := rfl
@[simp] theorem State.honourStop_err : s.honourStop.err = s.err := rfl
@[simp] theorem State.honourStop_rv : s.honourStop.rv = s.rv := rfl
@[simp] theorem State.honourStop_policy : s.honourStop.policy = s.policy := rfl
@[simp] theorem State.honourStop_songTable : s.honourStop.songTable = s.songTable := rfl
@[simp] theorem State.honourStop_songIndex : s.honourStop.songIndex = s.songIndex := rfl
@[simp] theorem State.honourStop_pending : s.honourStop.pending = s.pending := rfl
@[simp] theorem State.honourStop_answers : s.honourStop.answers = s.answers := rfl
@[simp] theorem State.honourStop_control : s.honourStop.control = s.control := rfl
@[simp] theorem State.honourStop_cur : s.honourStop.cur = s.cur := rfl
@[simp] theorem State.honourStop_freeSeq : s.honourStop.freeSeq = s.freeSeq := rfl

end honourStop

/-- The error record after `recordError` (R137). -/
@[simp] theorem State.recordError_err (s : State) (e : ErrKind) :
    (s.recordError e).err = ⟨e.code, s.cur, s.curTrack.cursor, (s.rom.byte? s.curAddr).getD 0⟩ := rfl

@[simp] theorem Track.stepOver_cursor (t : Track) (n : Nat) : (t.stepOver n).cursor = t.cursor + BitVec.ofNat 32 n := rfl
@[simp] theorem Track.stepOver_active (t : Track) (n : Nat) : (t.stepOver n).active = t.active := rfl
@[simp] theorem Track.stepOver_halted (t : Track) (n : Nat) : (t.stepOver n).halted = t.halted := rfl
@[simp] theorem Track.stepOver_stack (t : Track) (n : Nat) : (t.stepOver n).stack = t.stack := rfl
@[simp] theorem Track.stepOver_sp (t : Track) (n : Nat) : (t.stepOver n).sp = t.sp := rfl
@[simp] theorem Track.stepOver_due (t : Track) (n : Nat) : (t.stepOver n).due = t.due := rfl
@[simp] theorem Track.stepOver_vib (t : Track) (n : Nat) : (t.stepOver n).vib = t.vib := rfl
@[simp] theorem Track.stepOver_trem (t : Track) (n : Nat) : (t.stepOver n).trem = t.trem := rfl
@[simp] theorem Channel.stop_state (c : Channel) : c.stop.state = .idle := rfl
@[simp] theorem Channel.stop_live (c : Channel) : c.stop.live = false := rfl

end Sys2Proof.Machine
end

