-- ==== Sys2Proof/Laws/Step.lean ====
section
/-! SUPPORT. What one step can do, said once: an inversion lemma for `step` and one for each of its parts. -/

namespace Sys2Proof.Machine

/-- What a step that answers a next state has done, by where the machine was. -/
theorem step_next_cases {s t : State} (h : step s = .next t) :
    Config.wellFormed s.sampleRate s.rom.size = true ∧
      ((s.control = .idle ∧ stepIdle s = .next t) ∨ (s.control = .boundary ∧ stepBoundary s = .next t) ∨
        (s.control = .enter ∧ t = s.enterTrack) ∨ (s.control = .pull ∧ stepPull s = .next t) ∨
        (s.control = .post ∧ t = s.finishTick)) := by
  unfold step at h
  split at h
  · refine ⟨‹_›, ?_⟩
    split at h
    · exact .inl ⟨‹_›, h⟩
    · exact .inr (.inl ⟨‹_›, h⟩)
    · exact .inr (.inr (.inl ⟨‹_›, (Host.Outcome.next.inj h).symm⟩))
    · exact .inr (.inr (.inr (.inl ⟨‹_›, h⟩)))
    · exact .inr (.inr (.inr (.inr ⟨‹_›, (Host.Outcome.next.inj h).symm⟩)))
  · cases h

/-- Between host operations: nothing happens, or the next operation begins. -/
theorem stepIdle_next_cases {s t : State} (h : stepIdle s = .next t) :
    (s.pending = [] ∧ t = s) ∨
      ∃ op rest, s.pending = op :: rest ∧ op.wellFormed = true ∧
        t = ({ s with pending := rest } : State).perform op := by
  unfold stepIdle at h
  split at h
  · exact .inl ⟨‹_›, (Host.Outcome.next.inj h).symm⟩
  · split at h
    · exact .inr ⟨_, _, ‹_›, ‹_›, (Host.Outcome.next.inj h).symm⟩
    · cases h

/-- RenderFrame at its loop test: no session, a stop, a tick, or a frame. -/
theorem stepBoundary_next_cases {s t : State} (h : stepBoundary s = .next t) :
    (s.playing = false ∧ t = s.answer .noFrame) ∨
      (s.playing = true ∧ s.tickDue = true ∧ s.stopReq = true ∧ t = s.honourStop.answer .noFrame) ∨
      (s.playing = true ∧ s.tickDue = true ∧ s.stopReq = false ∧ t = s.beginTick) ∨
      (s.playing = true ∧ s.tickDue = false ∧
        ∃ u l r, s.mix = some (u, l, r) ∧ t = u.accumulate.answer (.frame l r)) := by
  unfold stepBoundary at h
  split at h
  · exact .inl ⟨by simpa using ‹(!s.playing) = true›, (Host.Outcome.next.inj h).symm⟩
  · have hp : s.playing = true := by simpa using ‹¬(!s.playing) = true›
    split at h
    · split at h
      · exact .inr (.inl ⟨hp, ‹_›, ‹_›, (Host.Outcome.next.inj h).symm⟩)
      · exact .inr (.inr (.inl ⟨hp, ‹_›, by simpa using ‹¬s.stopReq = true›, (Host.Outcome.next.inj h).symm⟩))
    · split at h
      · cases h
      · exact .inr (.inr (.inr ⟨hp, by simpa using ‹¬s.tickDue = true›, _, _, _, ‹_›, (Host.Outcome.next.inj h).symm⟩))

/-- A turn of the pull loop: an aborted session, an instruction, a decode error, or the next track. -/
theorem stepPull_next_cases {s t : State} (h : stepPull s = .next t) :
    (s.playing = false ∧ t = s.answer .noFrame) ∨
      (s.playing = true ∧ s.pulls = true ∧ ∃ i, s.fetch = .ok i ∧ exec i s = .next t) ∨
      (s.playing = true ∧ s.pulls = true ∧ ∃ e, s.fetch = .error e ∧ t = s.takeError e) ∨
      (s.playing = true ∧ s.pulls = false ∧ t = s.nextTrack) := by
  unfold stepPull at h
  split at h
  · exact .inl ⟨by simpa using ‹(!s.playing) = true›, (Host.Outcome.next.inj h).symm⟩
  · have hp : s.playing = true := by simpa using ‹¬(!s.playing) = true›
    split at h
    · split at h
      · exact .inr (.inl ⟨hp, ‹_›, _, ‹_›, h⟩)
      · exact .inr (.inr (.inl ⟨hp, ‹_›, _, ‹_›, (Host.Outcome.next.inj h).symm⟩))
    · exact .inr (.inr (.inr ⟨hp, by simpa using ‹¬s.pulls = true›, (Host.Outcome.next.inj h).symm⟩))

/-- Phase 1 goes on to the next loaded track, or to the phases after it. -/
theorem nextTrack_cases (s : State) :
    (∃ c : TrackIdx, c.val = s.cur.val + 1 ∧ c.val < s.trackCount ∧
        s.nextTrack = { s with cur := c, control := .enter }) ∨
      (s.trackCount ≤ s.cur.val + 1 ∧ s.nextTrack = { s with control := .post }) := by
  unfold State.nextTrack
  split
  · exact .inl ⟨_, rfl, ‹_›, rfl⟩
  · exact .inr ⟨by omega, rfl⟩

/-- Phase 1 at a track: its due counter, or the next track, or the phases after it. -/
theorem enterTrack_cases (s : State) :
    (s.cur.val < s.trackCount ∧ s.curTrack.active = true ∧
        s.enterTrack = { s.setCur s.curTrack.countDown with control := .pull }) ∨
      (s.cur.val < s.trackCount ∧ s.curTrack.active = false ∧ s.enterTrack = s.nextTrack) ∨
      (s.trackCount ≤ s.cur.val ∧ s.enterTrack = { s with control := .post }) := by
  unfold State.enterTrack
  split
  · split
    · exact .inl ⟨‹_›, ‹_›, rfl⟩
    · exact .inr (.inl ⟨‹_›, by simpa using ‹¬s.curTrack.active = true›, rfl⟩)
  · exact .inr (.inr ⟨by omega, rfl⟩)

/-- Phase 6 ends the song or changes nothing. -/
theorem endPhase_cases (s : State) :
    (s.allInactive = true ∧ s.endPhase = s.songEnd) ∨ (s.allInactive = false ∧ s.endPhase = s) := by
  unfold State.endPhase
  split
  · exact .inl ⟨‹_›, rfl⟩
  · exact .inr ⟨by simpa using ‹¬s.allInactive = true›, rfl⟩

/-- Taking an error records it, and then aborts the session or halts the track. -/
theorem takeError_cases (s : State) (e : ErrKind) :
    (s.errorIsFatal e = true ∧ s.takeError e = (s.recordError e).abortSession) ∨
      (s.errorIsFatal e = false ∧ s.takeError e = (s.recordError e).haltTrack) := by
  unfold State.takeError
  split
  · exact .inl ⟨‹_›, rfl⟩
  · exact .inr ⟨by simpa using ‹¬s.errorIsFatal e = true›, rfl⟩

/-- A load that fails and one that succeeds. -/
theorem start_cases (s : State) :
    (∃ e, loadSong s.rom s.songTable.toNat s.songIndex.toNat = .error e ∧ s.start = s.clearSession.failLoad e) ∨
      (∃ l, loadSong s.rom s.songTable.toNat s.songIndex.toNat = .ok l ∧ s.start = s.clearSession.beginSession l) := by
  unfold State.start
  split
  · exact .inl ⟨_, ‹_›, rfl⟩
  · exact .inr ⟨_, ‹_›, rfl⟩

/-- A write to CTRL starts a session, or requests a stop, or only sets POLICY. -/
theorem writeCtrl_cases (s : State) (v : Word) :
    (v.getLsbD 0 = true ∧ s.writeCtrl v = ({ s with policy := v.getLsbD 2 } : State).start) ∨
      (v.getLsbD 0 = false ∧ v.getLsbD 1 = true ∧ s.playing = true ∧
        s.writeCtrl v = { s with policy := v.getLsbD 2, stopReq := true }) ∨
      (v.getLsbD 0 = false ∧ (v.getLsbD 1 = false ∨ s.playing = false) ∧
        s.writeCtrl v = { s with policy := v.getLsbD 2 }) := by
  unfold State.writeCtrl
  cases h0 : v.getLsbD 0 <;> cases h1 : v.getLsbD 1 <;> cases hp : s.playing <;> simp

/-- A host register write writes CTRL, SONG_TABLE or SONG_INDEX, or nothing. -/
theorem writeReg_cases (s : State) (off : Nat) (v : Word) :
    (off = 0x00 ∧ s.writeReg off v = s.writeCtrl v) ∨ (off = 0x08 ∧ s.writeReg off v = { s with songTable := v }) ∨
      (off = 0x0C ∧ s.writeReg off v = { s with songIndex := v }) ∨ s.writeReg off v = s := by
  unfold State.writeReg
  split <;> simp_all

end Sys2Proof.Machine
end

