-- ==== Sys2Proof/Laws/Tables.lean ====
section
/-! SUPPORT. Reading the track and channel tables back. -/

namespace Sys2Proof.Machine

theorem trackTable_get {α : Type} (f : TrackIdx → α) (i : TrackIdx) : (trackTable f)[i] = f i := by
  fin_cases i <;> rfl

theorem chanTable_get {α : Type} (f : ChanIdx → α) (j : ChanIdx) : (chanTable f)[j] = f j := by
  fin_cases j <;> rfl

@[simp] theorem trackTable_getElem {α : Type} (f : TrackIdx → α) (n : Nat) (h : n < 16) :
    (trackTable f)[n] = f ⟨n, h⟩ := trackTable_get f ⟨n, h⟩

@[simp] theorem chanTable_getElem {α : Type} (f : ChanIdx → α) (n : Nat) (h : n < 12) :
    (chanTable f)[n] = f ⟨n, h⟩ := chanTable_get f ⟨n, h⟩

/-- Writing one entry of a table changes that entry alone. -/
theorem table_set_get {α : Type} {n : Nat} (v : Vector α n) (i j : Fin n) (x : α) :
    (v.set i.val x i.isLt)[j] = if j = i then x else v[j] := by
  by_cases h : j = i
  · subst h; simp
  · have : i.val ≠ j.val := fun e => h (Fin.ext e.symm)
    simp [Fin.getElem_fin, Vector.getElem_set_ne _ _ this, h]

theorem table_set_get_self {α : Type} {n : Nat} (v : Vector α n) (i : Fin n) (x : α) :
    (v.set i.val x i.isLt)[i] = x := by rw [table_set_get, if_pos rfl]

theorem table_set_get_ne {α : Type} {n : Nat} (v : Vector α n) {i j : Fin n} (x : α) (h : j ≠ i) :
    (v.set i.val x i.isLt)[j] = v[j] := by rw [table_set_get, if_neg h]

/-- Two tables are equal when they agree at every index. -/
theorem table_ext {α : Type} {n : Nat} {v w : Vector α n} (h : ∀ i : Fin n, v[i] = w[i]) : v = w := by
  apply Vector.ext
  intro i hi
  exact h ⟨i, hi⟩

/-- The executing track after its register file is written. -/
@[simp] theorem State.setCur_curTrack (s : State) (t : Track) : (s.setCur t).curTrack = t := by
  simp [State.curTrack, State.setCur]

/-- Writing the executing track's register file changes no other track's. -/
theorem State.setCur_other (s : State) (t : Track) {j : TrackIdx} (h : j ≠ s.cur) :
    (s.setCur t).trk[j] = s.trk[j] := table_set_get_ne _ _ h

/-- Every other register file after the executing track's is written, and that one. -/
theorem State.setCur_trk_get (s : State) (t : Track) (i : TrackIdx) :
    (s.setCur t).trk[i] = if i = s.cur then t else s.trk[i] := table_set_get s.trk s.cur i t

/-- Writing the executing track's register file twice is writing it once. -/
@[simp] theorem State.setCur_setCur (s : State) (t u : Track) : (s.setCur t).setCur u = s.setCur u := by
  simp only [State.setCur]
  congr 1
  exact Vector.set_set _ _

/-- `stack[k]` of a track, at a slot that exists. -/
theorem Track.stackAt_get (t : Track) (k : Fin 3) : t.stackAt k.val = t.stack[k] := by
  obtain ⟨k, hk⟩ := k
  simp [Track.stackAt, hk]

/-- After `silence` no channel is live. -/
theorem State.silence_live (s : State) (j : ChanIdx) : s.silence.ch[j].live = false := by
  rw [State.silence, chanTable_get]; rfl

/-- Every channel index is in the list of indices. -/
@[simp] theorem mem_chanIndices (j : ChanIdx) : j ∈ chanIndices := by fin_cases j <;> decide

/-- Every track index is in the list of indices. -/
@[simp] theorem mem_trackIndices (i : TrackIdx) : i ∈ trackIndices := by fin_cases i <;> decide

end Sys2Proof.Machine
end

