-- ==== Sys2Proof/Laws/Exec.lean ====
section
/-! SUPPORT. What one instruction can do, said once per instruction, and once for all of them. -/

namespace Sys2Proof.Machine

theorem execRest_next {dur : Byte} {s t : State} (h : execRest dur s = .next t) :
    t = s.setCur { s.curTrack.stepOver 2 with due := dur } := (Host.Outcome.next.inj h).symm

theorem execEot_next {s t : State} (h : execEot s = .next t) : t = s.setCur { s.curTrack with active := false } :=
  (Host.Outcome.next.inj h).symm

theorem execJump_next {addr : Word} {s t : State} (h : execJump addr s = .next t) :
    (s.rom.mapped addr.toNat = true ∧ t = s.setCur { s.curTrack with cursor := addr }) ∨
      (s.rom.mapped addr.toNat = false ∧ t = s.takeError .outOfRange) := by
  unfold execJump at h
  split at h
  · exact .inl ⟨‹_›, (Host.Outcome.next.inj h).symm⟩
  · exact .inr ⟨by simpa using ‹¬s.rom.mapped addr.toNat = true›, (Host.Outcome.next.inj h).symm⟩

theorem execCall_next {addr : Word} {s t : State} (h : execCall addr s = .next t) :
    (s.curTrack.sp.toNat = 3 ∧ t = s.takeError .stackOverflow) ∨
      (s.curTrack.sp.toNat < 3 ∧ s.rom.mapped addr.toNat = true ∧ t = s.setCur (s.curTrack.enterCall addr)) ∨
      (s.curTrack.sp.toNat < 3 ∧ s.rom.mapped addr.toNat = false ∧ t = s.takeError .outOfRange) := by
  have hsp := s.curTrack.sp.isLt
  unfold execCall at h
  split at h
  · exact .inl ⟨‹_›, (Host.Outcome.next.inj h).symm⟩
  · have hlt : s.curTrack.sp.toNat < 3 := by
      have : s.curTrack.sp.toNat ≠ 3 := ‹_›
      omega
    split at h
    · exact .inr (.inl ⟨hlt, ‹_›, (Host.Outcome.next.inj h).symm⟩)
    · exact .inr (.inr ⟨hlt, by simpa using ‹¬s.rom.mapped addr.toNat = true›, (Host.Outcome.next.inj h).symm⟩)

theorem execRet_next {s t : State} (h : execRet s = .next t) :
    (s.curTrack.sp = 0 ∧ t = s.takeError .stackUnderflow) ∨
      (s.curTrack.sp ≠ 0 ∧ t = s.setCur s.curTrack.leaveCall) := by
  unfold execRet at h
  split at h
  · exact .inl ⟨‹_›, (Host.Outcome.next.inj h).symm⟩
  · exact .inr ⟨‹_›, (Host.Outcome.next.inj h).symm⟩

theorem execTempo_next {v : Byte} {s t : State} (h : execTempo v s = .next t) :
    t = { s.setCur (s.curTrack.stepOver 2) with tempo := v } := (Host.Outcome.next.inj h).symm

theorem execProg_next {p : Byte} {s t : State} (h : execProg p s = .next t) :
    t = s.setCur { s.curTrack.stepOver 2 with program := p } := (Host.Outcome.next.inj h).symm

theorem execVol_next {v : Bits7} {s t : State} (h : execVol v s = .next t) :
    t = s.setCur { s.curTrack.stepOver 2 with volume := v } := (Host.Outcome.next.inj h).symm

theorem execPan_next {p : Bits7} {s t : State} (h : execPan p s = .next t) :
    t = s.setCur { s.curTrack.stepOver 2 with pan := p } := (Host.Outcome.next.inj h).symm

theorem execBend_next {b : Bits7} {s t : State} (h : execBend b s = .next t) :
    t = s.setCur { s.curTrack.stepOver 2 with bend := b } := (Host.Outcome.next.inj h).symm

theorem execVib_next {d r l : Byte} {s t : State} (h : execVib d r l s = .next t) :
    t = s.setCur { s.curTrack.stepOver 4 with vib := s.curTrack.vib.set d r l } := (Host.Outcome.next.inj h).symm

theorem execTrem_next {d r l : Byte} {s t : State} (h : execTrem d r l s = .next t) :
    t = s.setCur { s.curTrack.stepOver 4 with trem := s.curTrack.trem.set d r l } := (Host.Outcome.next.inj h).symm

theorem execTie_next {dur : Byte} {s t : State} (h : execTie dur s = .next t) :
    t = ({ s with ch := chanTable fun j => s.ch[j].extend s.cur dur } : State).setCur
      { s.curTrack.stepOver 2 with due := dur } := (Host.Outcome.next.inj h).symm

theorem execNote_next {key vel : Bits7} {gate : Byte} {s t : State} (h : execNote key vel gate s = .next t) :
    (resolve s.rom s.song.instTable.toNat s.curTrack.program.toNat key.toNat = none ∧ t = s.takeError .parse) ∨
      ∃ v, resolve s.rom s.song.instTable.toNat s.curTrack.program.toNat key.toNat = some v ∧
        t = (s.allocateNote key vel gate v).setCur
          { s.curTrack.stepOver 4 with
            vib := s.curTrack.vib.restart, trem := s.curTrack.trem.restart, due := gate } := by
  unfold execNote at h
  split at h
  · exact .inl ⟨‹_›, (Host.Outcome.next.inj h).symm⟩
  · exact .inr ⟨_, ‹_›, (Host.Outcome.next.inj h).symm⟩

/-- What every instruction does, at the least: it takes an error, or it writes the executing track's register file and
nothing else but channels, `tempo` and `alloc_seq`. -/
theorem exec_next_shape {i : Instr} {s t : State} (h : exec i s = .next t) :
    (∃ e, t = s.takeError e) ∨
      ∃ u ch tempo seq, t = { s.setCur u with ch := ch, tempo := tempo, allocSeq := seq } := by
  cases i with
  | rest _ => exact .inr ⟨_, _, _, _, execRest_next h⟩
  | eot => exact .inr ⟨_, _, _, _, execEot_next h⟩
  | jump _ =>
    obtain ⟨-, h⟩ | ⟨-, h⟩ := execJump_next h
    · exact .inr ⟨_, _, _, _, h⟩
    · exact .inl ⟨_, h⟩
  | call _ =>
    obtain ⟨-, h⟩ | ⟨-, -, h⟩ | ⟨-, -, h⟩ := execCall_next h
    · exact .inl ⟨_, h⟩
    · exact .inr ⟨_, _, _, _, h⟩
    · exact .inl ⟨_, h⟩
  | ret =>
    obtain ⟨-, h⟩ | ⟨-, h⟩ := execRet_next h
    · exact .inl ⟨_, h⟩
    · exact .inr ⟨_, _, _, _, h⟩
  | tempo _ => exact .inr ⟨_, _, _, _, execTempo_next h⟩
  | prog _ => exact .inr ⟨_, _, _, _, execProg_next h⟩
  | vol _ => exact .inr ⟨_, _, _, _, execVol_next h⟩
  | pan _ => exact .inr ⟨_, _, _, _, execPan_next h⟩
  | bend _ => exact .inr ⟨_, _, _, _, execBend_next h⟩
  | vib _ _ _ => exact .inr ⟨_, _, _, _, execVib_next h⟩
  | trem _ _ _ => exact .inr ⟨_, _, _, _, execTrem_next h⟩
  | tie _ => exact .inr ⟨_, _, _, _, execTie_next h⟩
  | note _ _ _ =>
    obtain ⟨-, h⟩ | ⟨v, -, h⟩ := execNote_next h
    · exact .inl ⟨_, h⟩
    · exact .inr ⟨_, _, _, _, h⟩

end Sys2Proof.Machine
end

