-- ==== Sys2Proof/Laws/Rom.lean ====
section
/-! SUPPORT. The ROM: its reads, and that writing an image keeps the canonical form. -/

namespace Sys2Proof.Machine

/-- `Mapped(a)` in arithmetic (R38). -/
theorem Rom.mapped_iff (r : Rom) (a : Nat) :
    r.mapped a = true ↔ Config.romBase ≤ a ∧ a < Config.romBase + r.size := by
  simp [Rom.mapped]

/-- `mappedRange` says that every byte of the range is mapped. -/
theorem Rom.mappedRange_iff (r : Rom) (a n : Nat) :
    r.mappedRange a n = true ↔ ∀ k, k < n → r.mapped (a + k) = true := by
  simp only [Rom.mappedRange, Bool.or_eq_true, beq_iff_eq, Bool.and_eq_true, Rom.mapped_iff]
  constructor
  · rintro (rfl | h) k hk
    · omega
    · omega
  · intro h
    rcases Nat.eq_zero_or_pos n with hn | hn
    · exact .inl hn
    · exact .inr ⟨h 0 hn, h (n - 1) (by omega)⟩

/-- A byte can be read exactly where it is mapped. -/
theorem Rom.byte?_isSome (r : Rom) (a : Nat) : (r.byte? a).isSome = r.mapped a := by
  unfold Rom.byte?; split <;> simp_all

theorem Rom.byte?_of_mapped {r : Rom} {a : Nat} (h : r.mapped a = true) :
    r.byte? a = some (lookupCell r.cells a) := by simp [Rom.byte?, h]

theorem Rom.mapped_of_byte? {r : Rom} {a : Nat} {b : Byte} (h : r.byte? a = some b) : r.mapped a = true := by
  rw [← Rom.byte?_isSome, h]; rfl

/-- A range of bytes can be read exactly where it is mapped. -/
theorem Rom.bytes?_isSome (r : Rom) (a n : Nat) :
    (r.bytes? a n).isSome = true ↔ ∀ k, k < n → r.mapped (a + k) = true := by
  induction n generalizing a with
  | zero => simp [Rom.bytes?]
  | succ n ih =>
    have hsome : (r.bytes? a (n + 1)).isSome = ((r.byte? a).isSome && (r.bytes? (a + 1) n).isSome) := by
      simp only [Rom.bytes?]
      cases r.byte? a <;> simp
      cases r.bytes? (a + 1) n <;> simp
    rw [hsome, Bool.and_eq_true, Rom.byte?_isSome, ih]
    constructor
    · rintro ⟨h0, h⟩ k hk
      cases k with
      | zero => exact h0
      | succ k => have := h k (by omega); rwa [Nat.add_assoc, Nat.add_comm 1 k] at this
    · intro h
      refine ⟨h 0 (by omega), fun k hk => ?_⟩
      have := h (k + 1) (by omega)
      rwa [Nat.add_assoc, Nat.add_comm 1 k]

/-- A read answers exactly where every byte is mapped. -/
theorem Rom.read?_isSome (r : Rom) (a n : Nat) :
    (r.read? a n).isSome = true ↔ ∀ k, k < n → r.mapped (a + k) = true := by
  rw [← Rom.bytes?_isSome]; simp [Rom.read?]

/-- A little-endian value of `n` bytes is below 256^n. -/
theorem leValue_lt (bs : List Byte) : leValue bs < 256 ^ bs.length := by
  induction bs with
  | nil => simp [leValue]
  | cons b rest ih =>
    have := b.isLt
    simp only [leValue, List.length_cons, Nat.pow_succ]
    omega

theorem Rom.bytes?_length {r : Rom} {a n : Nat} {bs : List Byte} (h : r.bytes? a n = some bs) : bs.length = n := by
  induction n generalizing a bs with
  | zero => simp only [Rom.bytes?, Option.some.injEq] at h; simp [← h]
  | succ n ih =>
    simp only [Rom.bytes?, Option.bind_eq_bind, Option.bind_eq_some_iff, Option.some.injEq] at h
    obtain ⟨b, -, rest, hr, rfl⟩ := h
    simp [ih hr]

/-- What a read of `n` bytes answers is below 256^n. -/
theorem Rom.read?_lt {r : Rom} {a n v : Nat} (h : r.read? a n = some v) : v < 256 ^ n := by
  simp only [Rom.read?, Option.map_eq_some_iff] at h
  obtain ⟨bs, hbs, rfl⟩ := h
  rw [← Rom.bytes?_length hbs]
  exact leValue_lt bs

/-! ### Writing an image -/

theorem mem_insertCell {a : Nat} {b : Byte} {l : List Host.Cell} {c : Host.Cell} (h : c ∈ insertCell a b l) :
    (c = (a, b) ∧ b ≠ Rom.unlisted) ∨ c ∈ l := by
  induction l with
  | nil => simp only [insertCell] at h; split at h <;> simp_all
  | cons d rest ih =>
    simp only [insertCell] at h
    split at h
    · split at h <;> simp_all
    · split at h
      · split at h <;> simp_all
        rcases h with h | h <;> simp_all
      · rcases List.mem_cons.mp h with h | h
        · exact .inr (by simp [h])
        · rcases ih h with h | h
          · exact .inl h
          · exact .inr (List.mem_cons_of_mem _ h)

theorem insertCell_rising {a : Nat} {b : Byte} {l : List Host.Cell} (h : l.Pairwise fun x y => x.1 < y.1) :
    (insertCell a b l).Pairwise fun x y => x.1 < y.1 := by
  induction l with
  | nil => simp only [insertCell]; split <;> simp
  | cons d rest ih =>
    obtain ⟨hd, hr⟩ := List.pairwise_cons.mp h
    simp only [insertCell]
    split
    · split
      · exact h
      · refine List.pairwise_cons.mpr ⟨fun y hy => ?_, h⟩
        rcases List.mem_cons.mp hy with rfl | hy
        · assumption
        · exact lt_trans ‹a < d.1› (hd y hy)
    · split
      · split
        · exact hr
        · refine List.pairwise_cons.mpr ⟨fun y hy => ?_, hr⟩
          have := hd y hy
          simp_all
      · refine List.pairwise_cons.mpr ⟨fun y hy => ?_, ih hr⟩
        rcases mem_insertCell hy with ⟨rfl, -⟩ | hy
        · simp only; omega
        · exact hd y hy

/-- Writing a byte of the image keeps the canonical form. -/
theorem Rom.write_wf {r : Rom} (h : r.wf) (a : Nat) (b : Byte) : (r.write a b).wf := by
  unfold Rom.write
  split
  · next hm =>
    refine ⟨insertCell_rising h.1, fun c hc => ?_⟩
    rcases mem_insertCell hc with ⟨rfl, hb⟩ | hc
    · exact ⟨hb, hm⟩
    · exact h.2 c hc
  · exact h

/-- Writing bytes of the image keeps the canonical form. -/
theorem Rom.writeBytes_wf {r : Rom} (h : r.wf) (a : Nat) (bs : List Byte) : (r.writeBytes a bs).wf := by
  induction bs generalizing r a with
  | nil => exact h
  | cons b rest ih => exact ih (Rom.write_wf h a b) (a + 1)

theorem lookupCell_insertCell_self {a : Nat} {b : Byte} {l : List Host.Cell} (h : l.Pairwise fun x y => x.1 < y.1) :
    lookupCell (insertCell a b l) a = b := by
  have absent : ∀ l : List Host.Cell, (∀ c ∈ l, a < c.1) → lookupCell l a = Rom.unlisted := by
    intro l hl
    induction l with
    | nil => rfl
    | cons c rest ih =>
      have := hl c (by simp)
      simp only [lookupCell]
      rw [if_neg (by omega), ih fun c hc => hl c (by simp [hc])]
  induction l with
  | nil => simp only [insertCell]; split <;> simp_all [lookupCell]
  | cons d rest ih =>
    obtain ⟨hd, hr⟩ := List.pairwise_cons.mp h
    simp only [insertCell]
    split
    · next hlt =>
      split
      · next hb =>
        rw [hb]
        refine absent _ fun c hc => ?_
        rcases List.mem_cons.mp hc with rfl | hc
        · exact hlt
        · exact lt_trans hlt (hd c hc)
      · simp [lookupCell]
    · split
      · next heq =>
        split
        · next hb =>
          rw [hb]
          refine absent _ fun c hc => ?_
          have := hd c hc
          omega
        · simp [lookupCell]
      · next hne =>
        have : d.1 ≠ a := fun e => hne e.symm
        simp [lookupCell, this, ih hr]

theorem lookupCell_insertCell_ne {a x : Nat} {b : Byte} {l : List Host.Cell} (hx : x ≠ a) :
    lookupCell (insertCell a b l) x = lookupCell l x := by
  have hax : a ≠ x := fun e => hx e.symm
  induction l with
  | nil => simp only [insertCell]; split <;> simp [lookupCell, hax]
  | cons d rest ih =>
    simp only [insertCell]
    split
    · split <;> simp [lookupCell, hax]
    · split
      · next heq =>
        have : d.1 ≠ x := by omega
        split <;> simp [lookupCell, this, hax]
      · simp [lookupCell, ih]

/-- A read after a write of the same mapped address gives the byte written. -/
theorem Rom.write_read_self {r : Rom} (h : r.wf) {a : Nat} (hm : r.mapped a = true) (b : Byte) :
    (r.write a b).byte? a = some b := by
  have hm' : (Rom.mk r.size (insertCell a b r.cells)).mapped a = true := hm
  simp only [Rom.write, hm, if_true]
  rw [Rom.byte?_of_mapped hm', lookupCell_insertCell_self h.1]

/-- A write leaves every other address alone. -/
theorem Rom.write_read_ne (r : Rom) {a x : Nat} (hx : x ≠ a) (b : Byte) : (r.write a b).byte? x = r.byte? x := by
  unfold Rom.write
  split
  · simp only [Rom.byte?, Rom.mapped, lookupCell_insertCell_ne hx]
    rfl
  · rfl

/-- The size of the ROM is no matter of its image. -/
@[simp] theorem Rom.write_size (r : Rom) (a : Nat) (b : Byte) : (r.write a b).size = r.size := by
  unfold Rom.write; split <;> rfl

end Sys2Proof.Machine
end

