-- ==== Sys2Proof/Laws/Fetch.lean ====
section
/-! SUPPORT. Decoding and fetching: what a decode consumes, and the instruction whose bytes are at the cursor. -/

namespace Sys2Proof

open Sys2Proof.Machine

/-- What reading the operands gives: an instruction of that opcode, and the bytes after its operands. -/
theorem decodeOperands_ok {op : Opcode} {bs rest : List Byte} {i : Instr} (h : decodeOperands op bs = .ok (i, rest)) :
    i.opcode = op ∧ bs.drop (op.format.byteLength - 1) = rest ∧
      bs.length = op.format.byteLength - 1 + rest.length := by
  cases op <;> simp only [decodeOperands] at h <;> (try unfold decodeF1 at h) <;> (try unfold decodeF3 at h) <;>
    (try unfold decodeFA at h) <;> (try split at h) <;> simp_all [Opcode.format, Format.byteLength]
  all_goals
    obtain ⟨rfl, rfl⟩ := h
    simp [Instr.opcode]
  all_goals omega

/-- What a decode that succeeds has read. -/
theorem decode_ok {b0 : Byte} {tail rest : List Byte} {i : Instr} (h : decode (b0 :: tail) = .ok (i, rest)) :
    opcodeOf b0 = some i.opcode ∧ decodeOperands i.opcode tail = .ok (i, rest) := by
  simp only [decode] at h
  split at h
  · cases h
  · have := (decodeOperands_ok h).1
    subst this
    exact ⟨‹_›, h⟩

/-- Bytes after an instruction do not change what is decoded. -/
theorem decodeOperands_append {op : Opcode} {bs rest : List Byte} {i : Instr} (tl : List Byte)
    (h : decodeOperands op bs = .ok (i, rest)) : decodeOperands op (bs ++ tl) = .ok (i, rest ++ tl) := by
  cases op <;> simp only [decodeOperands] at h ⊢ <;> (try unfold decodeF1 at h ⊢) <;>
    (try unfold decodeF3 at h ⊢) <;> (try unfold decodeFA at h ⊢) <;> (try split at h) <;> simp_all

/-- Bytes after an instruction do not change what is decoded. -/
theorem decode_append {bs rest : List Byte} {i : Instr} (tl : List Byte) (h : decode bs = .ok (i, rest)) :
    decode (bs ++ tl) = .ok (i, rest ++ tl) := by
  cases bs with
  | nil => cases h
  | cons b0 t =>
    obtain ⟨h1, h2⟩ := decode_ok h
    simp only [List.cons_append, decode, h1]
    exact decodeOperands_append tl h2

/-- No instruction is longer than `maxInstrBytes`. -/
theorem byteLength_le (i : Instr) : i.byteLength ≤ maxInstrBytes := by
  cases i <;> simp [Instr.byteLength, Instr.opcode, Opcode.format, Format.byteLength, maxInstrBytes]

/-- A 7-bit operand is read back from its byte. -/
theorem operand7_operand7Byte (x : Bits7) : operand7 (operand7Byte x) = x := by revert x; decide

/-- A bend is read back from its byte. -/
theorem operandBend_operandBendByte (x : Bits7) : operandBend (operandBendByte x) = x := by revert x; decide

/-- An address operand is read back from its bytes. -/
theorem operandAddr_operandAddrByte (a : Word) :
    operandAddr (operandAddrByte a 0) (operandAddrByte a 1) (operandAddrByte a 2) (operandAddrByte a 3) = a := by
  apply BitVec.eq_of_toNat_eq
  have := a.isLt
  simp [operandAddr, operandAddrByte, leValue]
  omega

namespace Machine

/-- The bytes fetched begin with the bytes that are stored there. -/
theorem fetchBytes_of_holds {r : Rom} {a n : Nat} {bs : List Byte} (h : r.holds a bs) (hn : bs.length ≤ n) :
    ∃ tl, fetchBytes r a n = bs ++ tl := by
  induction bs generalizing a n with
  | nil => exact ⟨_, rfl⟩
  | cons b rest ih =>
    obtain ⟨m, rfl⟩ : ∃ m, n = m + 1 := ⟨n - 1, by simp at hn; omega⟩
    have h0 := h 0 (by simp)
    simp at h0
    obtain ⟨tl, htl⟩ := ih (a := a + 1) (n := m)
      (fun k hk => by
        have := h (k + 1) (by simpa using hk)
        simpa [Nat.add_assoc, Nat.add_comm 1 k] using this) (by simpa using hn)
    exact ⟨tl, by simp [fetchBytes, h0, htl]⟩

/-- The bytes fetched end before the first unmapped one. -/
theorem fetchBytes_length_le {r : Rom} {a k : Nat} (n : Nat) (hk : r.mapped (a + k) = false) :
    (fetchBytes r a n).length ≤ k := by
  induction n generalizing a k with
  | zero => simp [fetchBytes]
  | succ n ih =>
    simp only [fetchBytes]
    split
    · simp
    · cases k with
      | zero => have := Rom.mapped_of_byte? ‹_›; simp_all
      | succ k => simpa using ih (a := a + 1) (k := k) (by rwa [Nat.add_assoc, Nat.add_comm 1 k])

/-- An instruction was fetched only from a mapped cursor. -/
theorem mapped_of_fetch {s : State} {i : Instr} (h : s.fetch = .ok i) : s.rom.mapped s.curAddr = true := by
  cases hb : s.rom.byte? s.curAddr with
  | some b => exact Rom.mapped_of_byte? hb
  | none => simp [State.fetch, fetchAt, maxInstrBytes, fetchBytes, hb, decode] at h

/-- The step of a state at its pull loop: the instruction's meaning, or the decode error taken. -/
theorem step_atPull {s : State} (h : s.AtPull) :
    step s = match s.fetch with
      | .ok i => exec i s
      | .error e => .next (s.takeError e) := by
  obtain ⟨h1, h2, h3, h4⟩ := h
  simp [step, h1, h2, stepPull, h3, h4] <;> rfl

end Machine

end Sys2Proof
end

