-- ==== Sys2Proof/Laws/Frame.lean ====
section
/-! SUPPORT. What the operations of more than one outcome leave alone, one lemma per field. -/

namespace Sys2Proof.Machine

/-! ### Taking an error -/

@[simp] theorem State.takeError_sampleRate (s : State) (e : ErrKind) : (s.takeError e).sampleRate = s.sampleRate := by
  rcases takeError_cases s e with ⟨-, h⟩ | ⟨-, h⟩ <;> simp [h]
@[simp] theorem State.takeError_rom (s : State) (e : ErrKind) : (s.takeError e).rom = s.rom := by
  rcases takeError_cases s e with ⟨-, h⟩ | ⟨-, h⟩ <;> simp [h]
@[simp] theorem State.takeError_ended (s : State) (e : ErrKind) : (s.takeError e).ended = s.ended := by
  rcases takeError_cases s e with ⟨-, h⟩ | ⟨-, h⟩ <;> simp [h]
@[simp] theorem State.takeError_loadErr (s : State) (e : ErrKind) : (s.takeError e).loadErr = s.loadErr := by
  rcases takeError_cases s e with ⟨-, h⟩ | ⟨-, h⟩ <;> simp [h]
@[simp] theorem State.takeError_tempo (s : State) (e : ErrKind) : (s.takeError e).tempo = s.tempo := by
  rcases takeError_cases s e with ⟨-, h⟩ | ⟨-, h⟩ <;> simp [h]
@[simp] theorem State.takeError_tickAcc (s : State) (e : ErrKind) : (s.takeError e).tickAcc = s.tickAcc := by
  rcases takeError_cases s e with ⟨-, h⟩ | ⟨-, h⟩ <;> simp [h]
@[simp] theorem State.takeError_songTicks (s : State) (e : ErrKind) : (s.takeError e).songTicks = s.songTicks := by
  rcases takeError_cases s e with ⟨-, h⟩ | ⟨-, h⟩ <;> simp [h]
@[simp] theorem State.takeError_allocSeq (s : State) (e : ErrKind) : (s.takeError e).allocSeq = s.allocSeq := by
  rcases takeError_cases s e with ⟨-, h⟩ | ⟨-, h⟩ <;> simp [h]
@[simp] theorem State.takeError_song (s : State) (e : ErrKind) : (s.takeError e).song = s.song := by
  rcases takeError_cases s e with ⟨-, h⟩ | ⟨-, h⟩ <;> simp [h]
@[simp] theorem State.takeError_rv (s : State) (e : ErrKind) : (s.takeError e).rv = s.rv := by
  rcases takeError_cases s e with ⟨-, h⟩ | ⟨-, h⟩ <;> simp [h]
@[simp] theorem State.takeError_policy (s : State) (e : ErrKind) : (s.takeError e).policy = s.policy := by
  rcases takeError_cases s e with ⟨-, h⟩ | ⟨-, h⟩ <;> simp [h]
@[simp] theorem State.takeError_songTable (s : State) (e : ErrKind) : (s.takeError e).songTable = s.songTable := by
  rcases takeError_cases s e with ⟨-, h⟩ | ⟨-, h⟩ <;> simp [h]
@[simp] theorem State.takeError_songIndex (s : State) (e : ErrKind) : (s.takeError e).songIndex = s.songIndex := by
  rcases takeError_cases s e with ⟨-, h⟩ | ⟨-, h⟩ <;> simp [h]
@[simp] theorem State.takeError_pending (s : State) (e : ErrKind) : (s.takeError e).pending = s.pending := by
  rcases takeError_cases s e with ⟨-, h⟩ | ⟨-, h⟩ <;> simp [h]
@[simp] theorem State.takeError_answers (s : State) (e : ErrKind) : (s.takeError e).answers = s.answers := by
  rcases takeError_cases s e with ⟨-, h⟩ | ⟨-, h⟩ <;> simp [h]
@[simp] theorem State.takeError_control (s : State) (e : ErrKind) : (s.takeError e).control = s.control := by
  rcases takeError_cases s e with ⟨-, h⟩ | ⟨-, h⟩ <;> simp [h]
@[simp] theorem State.takeError_cur (s : State) (e : ErrKind) : (s.takeError e).cur = s.cur := by
  rcases takeError_cases s e with ⟨-, h⟩ | ⟨-, h⟩ <;> simp [h]
@[simp] theorem State.takeError_freeSeq (s : State) (e : ErrKind) : (s.takeError e).freeSeq = s.freeSeq := by
  rcases takeError_cases s e with ⟨-, h⟩ | ⟨-, h⟩ <;> simp [h]

/-! ### The next track of tick phase 1 -/

@[simp] theorem State.nextTrack_sampleRate (s : State) : s.nextTrack.sampleRate = s.sampleRate := by
  rcases nextTrack_cases s with ⟨c, -, -, h⟩ | ⟨-, h⟩ <;> simp [h]
@[simp] theorem State.nextTrack_rom (s : State) : s.nextTrack.rom = s.rom := by
  rcases nextTrack_cases s with ⟨c, -, -, h⟩ | ⟨-, h⟩ <;> simp [h]
@[simp] theorem State.nextTrack_playing (s : State) : s.nextTrack.playing = s.playing := by
  rcases nextTrack_cases s with ⟨c, -, -, h⟩ | ⟨-, h⟩ <;> simp [h]
@[simp] theorem State.nextTrack_ended (s : State) : s.nextTrack.ended = s.ended := by
  rcases nextTrack_cases s with ⟨c, -, -, h⟩ | ⟨-, h⟩ <;> simp [h]
@[simp] theorem State.nextTrack_aborted (s : State) : s.nextTrack.aborted = s.aborted := by
  rcases nextTrack_cases s with ⟨c, -, -, h⟩ | ⟨-, h⟩ <;> simp [h]
@[simp] theorem State.nextTrack_loadErr (s : State) : s.nextTrack.loadErr = s.loadErr := by
  rcases nextTrack_cases s with ⟨c, -, -, h⟩ | ⟨-, h⟩ <;> simp [h]
@[simp] theorem State.nextTrack_trackErr (s : State) : s.nextTrack.trackErr = s.trackErr := by
  rcases nextTrack_cases s with ⟨c, -, -, h⟩ | ⟨-, h⟩ <;> simp [h]
@[simp] theorem State.nextTrack_stopReq (s : State) : s.nextTrack.stopReq = s.stopReq := by
  rcases nextTrack_cases s with ⟨c, -, -, h⟩ | ⟨-, h⟩ <;> simp [h]
@[simp] theorem State.nextTrack_tempo (s : State) : s.nextTrack.tempo = s.tempo := by
  rcases nextTrack_cases s with ⟨c, -, -, h⟩ | ⟨-, h⟩ <;> simp [h]
@[simp] theorem State.nextTrack_tickAcc (s : State) : s.nextTrack.tickAcc = s.tickAcc := by
  rcases nextTrack_cases s with ⟨c, -, -, h⟩ | ⟨-, h⟩ <;> simp [h]
@[simp] theorem State.nextTrack_songTicks (s : State) : s.nextTrack.songTicks = s.songTicks := by
  rcases nextTrack_cases s with ⟨c, -, -, h⟩ | ⟨-, h⟩ <;> simp [h]
@[simp] theorem State.nextTrack_allocSeq (s : State) : s.nextTrack.allocSeq = s.allocSeq := by
  rcases nextTrack_cases s with ⟨c, -, -, h⟩ | ⟨-, h⟩ <;> simp [h]
@[simp] theorem State.nextTrack_song (s : State) : s.nextTrack.song = s.song := by
  rcases nextTrack_cases s with ⟨c, -, -, h⟩ | ⟨-, h⟩ <;> simp [h]
@[simp] theorem State.nextTrack_trk (s : State) : s.nextTrack.trk = s.trk := by
  rcases nextTrack_cases s with ⟨c, -, -, h⟩ | ⟨-, h⟩ <;> simp [h]
@[simp] theorem State.nextTrack_ch (s : State) : s.nextTrack.ch = s.ch := by
  rcases nextTrack_cases s with ⟨c, -, -, h⟩ | ⟨-, h⟩ <;> simp [h]
@[simp] theorem State.nextTrack_err (s : State) : s.nextTrack.err = s.err := by
  rcases nextTrack_cases s with ⟨c, -, -, h⟩ | ⟨-, h⟩ <;> simp [h]
@[simp] theorem State.nextTrack_rv (s : State) : s.nextTrack.rv = s.rv := by
  rcases nextTrack_cases s with ⟨c, -, -, h⟩ | ⟨-, h⟩ <;> simp [h]
@[simp] theorem State.nextTrack_policy (s : State) : s.nextTrack.policy = s.policy := by
  rcases nextTrack_cases s with ⟨c, -, -, h⟩ | ⟨-, h⟩ <;> simp [h]
@[simp] theorem State.nextTrack_songTable (s : State) : s.nextTrack.songTable = s.songTable := by
  rcases nextTrack_cases s with ⟨c, -, -, h⟩ | ⟨-, h⟩ <;> simp [h]
@[simp] theorem State.nextTrack_songIndex (s : State) : s.nextTrack.songIndex = s.songIndex := by
  rcases nextTrack_cases s with ⟨c, -, -, h⟩ | ⟨-, h⟩ <;> simp [h]
@[simp] theorem State.nextTrack_pending (s : State) : s.nextTrack.pending = s.pending := by
  rcases nextTrack_cases s with ⟨c, -, -, h⟩ | ⟨-, h⟩ <;> simp [h]
@[simp] theorem State.nextTrack_answers (s : State) : s.nextTrack.answers = s.answers := by
  rcases nextTrack_cases s with ⟨c, -, -, h⟩ | ⟨-, h⟩ <;> simp [h]
@[simp] theorem State.nextTrack_freeSeq (s : State) : s.nextTrack.freeSeq = s.freeSeq := by
  rcases nextTrack_cases s with ⟨c, -, -, h⟩ | ⟨-, h⟩ <;> simp [h]

/-! ### Tick phase 1 at a track -/

@[simp] theorem State.enterTrack_sampleRate (s : State) : s.enterTrack.sampleRate = s.sampleRate := by
  rcases enterTrack_cases s with ⟨-, -, h⟩ | ⟨-, -, h⟩ | ⟨-, h⟩ <;> simp [h]
@[simp] theorem State.enterTrack_rom (s : State) : s.enterTrack.rom = s.rom := by
  rcases enterTrack_cases s with ⟨-, -, h⟩ | ⟨-, -, h⟩ | ⟨-, h⟩ <;> simp [h]
@[simp] theorem State.enterTrack_playing (s : State) : s.enterTrack.playing = s.playing := by
  rcases enterTrack_cases s with ⟨-, -, h⟩ | ⟨-, -, h⟩ | ⟨-, h⟩ <;> simp [h]
@[simp] theorem State.enterTrack_ended (s : State) : s.enterTrack.ended = s.ended := by
  rcases enterTrack_cases s with ⟨-, -, h⟩ | ⟨-, -, h⟩ | ⟨-, h⟩ <;> simp [h]
@[simp] theorem State.enterTrack_aborted (s : State) : s.enterTrack.aborted = s.aborted := by
  rcases enterTrack_cases s with ⟨-, -, h⟩ | ⟨-, -, h⟩ | ⟨-, h⟩ <;> simp [h]
@[simp] theorem State.enterTrack_loadErr (s : State) : s.enterTrack.loadErr = s.loadErr := by
  rcases enterTrack_cases s with ⟨-, -, h⟩ | ⟨-, -, h⟩ | ⟨-, h⟩ <;> simp [h]
@[simp] theorem State.enterTrack_trackErr (s : State) : s.enterTrack.trackErr = s.trackErr := by
  rcases enterTrack_cases s with ⟨-, -, h⟩ | ⟨-, -, h⟩ | ⟨-, h⟩ <;> simp [h]
@[simp] theorem State.enterTrack_stopReq (s : State) : s.enterTrack.stopReq = s.stopReq := by
  rcases enterTrack_cases s with ⟨-, -, h⟩ | ⟨-, -, h⟩ | ⟨-, h⟩ <;> simp [h]
@[simp] theorem State.enterTrack_tempo (s : State) : s.enterTrack.tempo = s.tempo := by
  rcases enterTrack_cases s with ⟨-, -, h⟩ | ⟨-, -, h⟩ | ⟨-, h⟩ <;> simp [h]
@[simp] theorem State.enterTrack_tickAcc (s : State) : s.enterTrack.tickAcc = s.tickAcc := by
  rcases enterTrack_cases s with ⟨-, -, h⟩ | ⟨-, -, h⟩ | ⟨-, h⟩ <;> simp [h]
@[simp] theorem State.enterTrack_songTicks (s : State) : s.enterTrack.songTicks = s.songTicks := by
  rcases enterTrack_cases s with ⟨-, -, h⟩ | ⟨-, -, h⟩ | ⟨-, h⟩ <;> simp [h]
@[simp] theorem State.enterTrack_allocSeq (s : State) : s.enterTrack.allocSeq = s.allocSeq := by
  rcases enterTrack_cases s with ⟨-, -, h⟩ | ⟨-, -, h⟩ | ⟨-, h⟩ <;> simp [h]
@[simp] theorem State.enterTrack_song (s : State) : s.enterTrack.song = s.song := by
  rcases enterTrack_cases s with ⟨-, -, h⟩ | ⟨-, -, h⟩ | ⟨-, h⟩ <;> simp [h]
@[simp] theorem State.enterTrack_ch (s : State) : s.enterTrack.ch = s.ch := by
  rcases enterTrack_cases s with ⟨-, -, h⟩ | ⟨-, -, h⟩ | ⟨-, h⟩ <;> simp [h]
@[simp] theorem State.enterTrack_err (s : State) : s.enterTrack.err = s.err := by
  rcases enterTrack_cases s with ⟨-, -, h⟩ | ⟨-, -, h⟩ | ⟨-, h⟩ <;> simp [h]
@[simp] theorem State.enterTrack_rv (s : State) : s.enterTrack.rv = s.rv := by
  rcases enterTrack_cases s with ⟨-, -, h⟩ | ⟨-, -, h⟩ | ⟨-, h⟩ <;> simp [h]
@[simp] theorem State.enterTrack_policy (s : State) : s.enterTrack.policy = s.policy := by
  rcases enterTrack_cases s with ⟨-, -, h⟩ | ⟨-, -, h⟩ | ⟨-, h⟩ <;> simp [h]
@[simp] theorem State.enterTrack_songTable (s : State) : s.enterTrack.songTable = s.songTable := by
  rcases enterTrack_cases s with ⟨-, -, h⟩ | ⟨-, -, h⟩ | ⟨-, h⟩ <;> simp [h]
@[simp] theorem State.enterTrack_songIndex (s : State) : s.enterTrack.songIndex = s.songIndex := by
  rcases enterTrack_cases s with ⟨-, -, h⟩ | ⟨-, -, h⟩ | ⟨-, h⟩ <;> simp [h]
@[simp] theorem State.enterTrack_pending (s : State) : s.enterTrack.pending = s.pending := by
  rcases enterTrack_cases s with ⟨-, -, h⟩ | ⟨-, -, h⟩ | ⟨-, h⟩ <;> simp [h]
@[simp] theorem State.enterTrack_answers (s : State) : s.enterTrack.answers = s.answers := by
  rcases enterTrack_cases s with ⟨-, -, h⟩ | ⟨-, -, h⟩ | ⟨-, h⟩ <;> simp [h]
@[simp] theorem State.enterTrack_freeSeq (s : State) : s.enterTrack.freeSeq = s.freeSeq := by
  rcases enterTrack_cases s with ⟨-, -, h⟩ | ⟨-, -, h⟩ | ⟨-, h⟩ <;> simp [h]

/-! ### Tick phase 6 -/

@[simp] theorem State.endPhase_sampleRate (s : State) : s.endPhase.sampleRate = s.sampleRate := by
  rcases endPhase_cases s with ⟨-, h⟩ | ⟨-, h⟩ <;> simp [h]
@[simp] theorem State.endPhase_rom (s : State) : s.endPhase.rom = s.rom := by
  rcases endPhase_cases s with ⟨-, h⟩ | ⟨-, h⟩ <;> simp [h]
@[simp] theorem State.endPhase_aborted (s : State) : s.endPhase.aborted = s.aborted := by
  rcases endPhase_cases s with ⟨-, h⟩ | ⟨-, h⟩ <;> simp [h]
@[simp] theorem State.endPhase_loadErr (s : State) : s.endPhase.loadErr = s.loadErr := by
  rcases endPhase_cases s with ⟨-, h⟩ | ⟨-, h⟩ <;> simp [h]
@[simp] theorem State.endPhase_trackErr (s : State) : s.endPhase.trackErr = s.trackErr := by
  rcases endPhase_cases s with ⟨-, h⟩ | ⟨-, h⟩ <;> simp [h]
@[simp] theorem State.endPhase_stopReq (s : State) : s.endPhase.stopReq = s.stopReq := by
  rcases endPhase_cases s with ⟨-, h⟩ | ⟨-, h⟩ <;> simp [h]
@[simp] theorem State.endPhase_tempo (s : State) : s.endPhase.tempo = s.tempo := by
  rcases endPhase_cases s with ⟨-, h⟩ | ⟨-, h⟩ <;> simp [h]
@[simp] theorem State.endPhase_tickAcc (s : State) : s.endPhase.tickAcc = s.tickAcc := by
  rcases endPhase_cases s with ⟨-, h⟩ | ⟨-, h⟩ <;> simp [h]
@[simp] theorem State.endPhase_songTicks (s : State) : s.endPhase.songTicks = s.songTicks := by
  rcases endPhase_cases s with ⟨-, h⟩ | ⟨-, h⟩ <;> simp [h]
@[simp] theorem State.endPhase_allocSeq (s : State) : s.endPhase.allocSeq = s.allocSeq := by
  rcases endPhase_cases s with ⟨-, h⟩ | ⟨-, h⟩ <;> simp [h]
@[simp] theorem State.endPhase_song (s : State) : s.endPhase.song = s.song := by
  rcases endPhase_cases s with ⟨-, h⟩ | ⟨-, h⟩ <;> simp [h]
@[simp] theorem State.endPhase_trk (s : State) : s.endPhase.trk = s.trk := by
  rcases endPhase_cases s with ⟨-, h⟩ | ⟨-, h⟩ <;> simp [h]
@[simp] theorem State.endPhase_err (s : State) : s.endPhase.err = s.err := by
  rcases endPhase_cases s with ⟨-, h⟩ | ⟨-, h⟩ <;> simp [h]
@[simp] theorem State.endPhase_rv (s : State) : s.endPhase.rv = s.rv := by
  rcases endPhase_cases s with ⟨-, h⟩ | ⟨-, h⟩ <;> simp [h]
@[simp] theorem State.endPhase_policy (s : State) : s.endPhase.policy = s.policy := by
  rcases endPhase_cases s with ⟨-, h⟩ | ⟨-, h⟩ <;> simp [h]
@[simp] theorem State.endPhase_songTable (s : State) : s.endPhase.songTable = s.songTable := by
  rcases endPhase_cases s with ⟨-, h⟩ | ⟨-, h⟩ <;> simp [h]
@[simp] theorem State.endPhase_songIndex (s : State) : s.endPhase.songIndex = s.songIndex := by
  rcases endPhase_cases s with ⟨-, h⟩ | ⟨-, h⟩ <;> simp [h]
@[simp] theorem State.endPhase_pending (s : State) : s.endPhase.pending = s.pending := by
  rcases endPhase_cases s with ⟨-, h⟩ | ⟨-, h⟩ <;> simp [h]
@[simp] theorem State.endPhase_answers (s : State) : s.endPhase.answers = s.answers := by
  rcases endPhase_cases s with ⟨-, h⟩ | ⟨-, h⟩ <;> simp [h]
@[simp] theorem State.endPhase_control (s : State) : s.endPhase.control = s.control := by
  rcases endPhase_cases s with ⟨-, h⟩ | ⟨-, h⟩ <;> simp [h]
@[simp] theorem State.endPhase_cur (s : State) : s.endPhase.cur = s.cur := by
  rcases endPhase_cases s with ⟨-, h⟩ | ⟨-, h⟩ <;> simp [h]
@[simp] theorem State.endPhase_freeSeq (s : State) : s.endPhase.freeSeq = s.freeSeq := by
  rcases endPhase_cases s with ⟨-, h⟩ | ⟨-, h⟩ <;> simp [h]

/-! ### Tick phases 2 to 6 -/

/-- The state after `finishTick`: phase 6 after phases 2 to 5, back at the loop test of RenderFrame. -/
theorem State.finishTick_eq (s : State) :
    s.finishTick =
      { s.lfoPhase.envelopePhase.recomputePhase.countPhase.endPhase with control := .boundary } := rfl

@[simp] theorem State.finishTick_control (s : State) : s.finishTick.control = .boundary := rfl
@[simp] theorem State.finishTick_trk (s : State) : s.finishTick.trk = s.lfoPhase.trk := by
  simp [State.finishTick_eq]
@[simp] theorem State.finishTick_songTicks (s : State) : s.finishTick.songTicks = s.songTicks + 1 := by
  simp [State.finishTick_eq]

@[simp] theorem State.finishTick_sampleRate (s : State) : s.finishTick.sampleRate = s.sampleRate := by simp [State.finishTick_eq]
@[simp] theorem State.finishTick_rom (s : State) : s.finishTick.rom = s.rom := by simp [State.finishTick_eq]
@[simp] theorem State.finishTick_aborted (s : State) : s.finishTick.aborted = s.aborted := by simp [State.finishTick_eq]
@[simp] theorem State.finishTick_loadErr (s : State) : s.finishTick.loadErr = s.loadErr := by simp [State.finishTick_eq]
@[simp] theorem State.finishTick_trackErr (s : State) : s.finishTick.trackErr = s.trackErr := by simp [State.finishTick_eq]
@[simp] theorem State.finishTick_stopReq (s : State) : s.finishTick.stopReq = s.stopReq := by simp [State.finishTick_eq]
@[simp] theorem State.finishTick_tempo (s : State) : s.finishTick.tempo = s.tempo := by simp [State.finishTick_eq]
@[simp] theorem State.finishTick_tickAcc (s : State) : s.finishTick.tickAcc = s.tickAcc := by simp [State.finishTick_eq]
@[simp] theorem State.finishTick_allocSeq (s : State) : s.finishTick.allocSeq = s.allocSeq := by simp [State.finishTick_eq]
@[simp] theorem State.finishTick_song (s : State) : s.finishTick.song = s.song := by simp [State.finishTick_eq]
@[simp] theorem State.finishTick_err (s : State) : s.finishTick.err = s.err := by simp [State.finishTick_eq]
@[simp] theorem State.finishTick_rv (s : State) : s.finishTick.rv = s.rv := by simp [State.finishTick_eq]
@[simp] theorem State.finishTick_policy (s : State) : s.finishTick.policy = s.policy := by simp [State.finishTick_eq]
@[simp] theorem State.finishTick_songTable (s : State) : s.finishTick.songTable = s.songTable := by simp [State.finishTick_eq]
@[simp] theorem State.finishTick_songIndex (s : State) : s.finishTick.songIndex = s.songIndex := by simp [State.finishTick_eq]
@[simp] theorem State.finishTick_pending (s : State) : s.finishTick.pending = s.pending := by simp [State.finishTick_eq]
@[simp] theorem State.finishTick_answers (s : State) : s.finishTick.answers = s.answers := by simp [State.finishTick_eq]
@[simp] theorem State.finishTick_cur (s : State) : s.finishTick.cur = s.cur := by simp [State.finishTick_eq]
@[simp] theorem State.finishTick_freeSeq (s : State) : s.finishTick.freeSeq = s.freeSeq := by simp [State.finishTick_eq]

/-! ### Start -/

@[simp] theorem State.start_sampleRate (s : State) : s.start.sampleRate = s.sampleRate := by
  rcases start_cases s with ⟨_, -, h⟩ | ⟨_, -, h⟩ <;> simp [h]
@[simp] theorem State.start_rom (s : State) : s.start.rom = s.rom := by
  rcases start_cases s with ⟨_, -, h⟩ | ⟨_, -, h⟩ <;> simp [h]
@[simp] theorem State.start_policy (s : State) : s.start.policy = s.policy := by
  rcases start_cases s with ⟨_, -, h⟩ | ⟨_, -, h⟩ <;> simp [h]
@[simp] theorem State.start_songTable (s : State) : s.start.songTable = s.songTable := by
  rcases start_cases s with ⟨_, -, h⟩ | ⟨_, -, h⟩ <;> simp [h]
@[simp] theorem State.start_songIndex (s : State) : s.start.songIndex = s.songIndex := by
  rcases start_cases s with ⟨_, -, h⟩ | ⟨_, -, h⟩ <;> simp [h]
@[simp] theorem State.start_pending (s : State) : s.start.pending = s.pending := by
  rcases start_cases s with ⟨_, -, h⟩ | ⟨_, -, h⟩ <;> simp [h]
@[simp] theorem State.start_answers (s : State) : s.start.answers = s.answers := by
  rcases start_cases s with ⟨_, -, h⟩ | ⟨_, -, h⟩ <;> simp [h]
@[simp] theorem State.start_control (s : State) : s.start.control = s.control := by
  rcases start_cases s with ⟨_, -, h⟩ | ⟨_, -, h⟩ <;> simp [h]
@[simp] theorem State.start_cur (s : State) : s.start.cur = s.cur := by
  rcases start_cases s with ⟨_, -, h⟩ | ⟨_, -, h⟩ <;> simp [h]

/-! ### A write to CTRL -/

@[simp] theorem State.writeCtrl_sampleRate (s : State) (v : Word) : (s.writeCtrl v).sampleRate = s.sampleRate := by
  rcases writeCtrl_cases s v with ⟨-, h⟩ | ⟨-, -, -, h⟩ | ⟨-, -, h⟩ <;> simp [h]
@[simp] theorem State.writeCtrl_rom (s : State) (v : Word) : (s.writeCtrl v).rom = s.rom := by
  rcases writeCtrl_cases s v with ⟨-, h⟩ | ⟨-, -, -, h⟩ | ⟨-, -, h⟩ <;> simp [h]
@[simp] theorem State.writeCtrl_songTable (s : State) (v : Word) : (s.writeCtrl v).songTable = s.songTable := by
  rcases writeCtrl_cases s v with ⟨-, h⟩ | ⟨-, -, -, h⟩ | ⟨-, -, h⟩ <;> simp [h]
@[simp] theorem State.writeCtrl_songIndex (s : State) (v : Word) : (s.writeCtrl v).songIndex = s.songIndex := by
  rcases writeCtrl_cases s v with ⟨-, h⟩ | ⟨-, -, -, h⟩ | ⟨-, -, h⟩ <;> simp [h]
@[simp] theorem State.writeCtrl_pending (s : State) (v : Word) : (s.writeCtrl v).pending = s.pending := by
  rcases writeCtrl_cases s v with ⟨-, h⟩ | ⟨-, -, -, h⟩ | ⟨-, -, h⟩ <;> simp [h]
@[simp] theorem State.writeCtrl_answers (s : State) (v : Word) : (s.writeCtrl v).answers = s.answers := by
  rcases writeCtrl_cases s v with ⟨-, h⟩ | ⟨-, -, -, h⟩ | ⟨-, -, h⟩ <;> simp [h]
@[simp] theorem State.writeCtrl_control (s : State) (v : Word) : (s.writeCtrl v).control = s.control := by
  rcases writeCtrl_cases s v with ⟨-, h⟩ | ⟨-, -, -, h⟩ | ⟨-, -, h⟩ <;> simp [h]
@[simp] theorem State.writeCtrl_cur (s : State) (v : Word) : (s.writeCtrl v).cur = s.cur := by
  rcases writeCtrl_cases s v with ⟨-, h⟩ | ⟨-, -, -, h⟩ | ⟨-, -, h⟩ <;> simp [h]

/-! ### A host register write -/

@[simp] theorem State.writeReg_sampleRate (s : State) (off : Nat) (v : Word) : (s.writeReg off v).sampleRate = s.sampleRate := by
  rcases writeReg_cases s off v with ⟨-, h⟩ | ⟨-, h⟩ | ⟨-, h⟩ | h <;> simp [h]
@[simp] theorem State.writeReg_rom (s : State) (off : Nat) (v : Word) : (s.writeReg off v).rom = s.rom := by
  rcases writeReg_cases s off v with ⟨-, h⟩ | ⟨-, h⟩ | ⟨-, h⟩ | h <;> simp [h]
@[simp] theorem State.writeReg_pending (s : State) (off : Nat) (v : Word) : (s.writeReg off v).pending = s.pending := by
  rcases writeReg_cases s off v with ⟨-, h⟩ | ⟨-, h⟩ | ⟨-, h⟩ | h <;> simp [h]
@[simp] theorem State.writeReg_answers (s : State) (off : Nat) (v : Word) : (s.writeReg off v).answers = s.answers := by
  rcases writeReg_cases s off v with ⟨-, h⟩ | ⟨-, h⟩ | ⟨-, h⟩ | h <;> simp [h]
@[simp] theorem State.writeReg_control (s : State) (off : Nat) (v : Word) : (s.writeReg off v).control = s.control := by
  rcases writeReg_cases s off v with ⟨-, h⟩ | ⟨-, h⟩ | ⟨-, h⟩ | h <;> simp [h]
@[simp] theorem State.writeReg_cur (s : State) (off : Nat) (v : Word) : (s.writeReg off v).cur = s.cur := by
  rcases writeReg_cases s off v with ⟨-, h⟩ | ⟨-, h⟩ | ⟨-, h⟩ | h <;> simp [h]

/-! ### A host operation -/

@[simp] theorem State.perform_sampleRate (s : State) (op : HostOp) : (s.perform op).sampleRate = s.sampleRate := by
  cases op <;> simp [State.perform]
@[simp] theorem State.perform_rom (s : State) (op : HostOp) : (s.perform op).rom = s.rom := by
  cases op <;> simp [State.perform]
@[simp] theorem State.perform_pending (s : State) (op : HostOp) : (s.perform op).pending = s.pending := by
  cases op <;> simp [State.perform]
@[simp] theorem State.perform_cur (s : State) (op : HostOp) : (s.perform op).cur = s.cur := by
  cases op <;> simp [State.perform]

/-! ### Mix -/

/-- What `Mix()` answers: the channels advanced, the reverb line after the frame, and the frame. -/
theorem mix_cases {s u : State} {l r : Half} (h : s.mix = some (u, l, r)) :
    ∃ accL accR, mixSum s.rom s.ch.toList = some (accL, accR) ∧
      u = { s with ch := chanTable fun j => s.ch[j].frameAdvance, rv := (s.outputFrame accL accR).2.2 } ∧
      l = (s.outputFrame accL accR).1 ∧ r = (s.outputFrame accL accR).2.1 := by
  unfold State.mix at h
  split at h
  · cases h
  · simp only [Option.some.injEq, Prod.mk.injEq] at h
    exact ⟨_, _, ‹_›, h.1.symm, h.2.1.symm, h.2.2.symm⟩

end Sys2Proof.Machine
end

