-- ==== Sys2Proof/Laws/HostPort.lean ====
section
/-! SUPPORT. What each register of the host window reads, and the bits and fields of the words. -/

namespace Sys2Proof.Machine

theorem State.readReg_ctrl (s : State) : s.readReg 0x00 = BitVec.ofNat 32 s.ctrlValue := by unfold State.readReg; rfl
theorem State.readReg_status (s : State) : s.readReg 0x04 = BitVec.ofNat 32 s.statusValue := by unfold State.readReg; rfl
theorem State.readReg_songTable (s : State) : s.readReg 0x08 = s.songTable := by unfold State.readReg; rfl
theorem State.readReg_songIndex (s : State) : s.readReg 0x0C = s.songIndex := by unfold State.readReg; rfl
theorem State.readReg_errAddr (s : State) : s.readReg 0x10 = s.err.addr := by unfold State.readReg; rfl
theorem State.readReg_errOpcode (s : State) : s.readReg 0x14 = BitVec.ofNat 32 s.err.opcode.toNat := by
  unfold State.readReg; rfl
theorem State.readReg_songTicks (s : State) : s.readReg 0x18 = s.songTicks := by unfold State.readReg; rfl
theorem State.readReg_haltedMask (s : State) : s.readReg 0x1C = BitVec.ofNat 32 s.haltedMask := by
  unfold State.readReg; rfl
theorem State.readReg_songInfo (s : State) : s.readReg 0x20 = BitVec.ofNat 32 s.songInfoValue := by
  unfold State.readReg; rfl
theorem State.readReg_activeMask (s : State) : s.readReg 0x24 = BitVec.ofNat 32 s.activeMask := by
  unfold State.readReg; rfl
theorem State.readReg_channelMask (s : State) : s.readReg 0x28 = BitVec.ofNat 32 s.channelMask := by
  unfold State.readReg; rfl

/-- Every other offset reads 0 (R34). -/
theorem State.readReg_other (s : State) {off : Nat} (h : 0x2C ≤ off) : s.readReg off = 0 := by
  unfold State.readReg; split <;> first | omega | rfl

/-- Every other offset ignores writes (R34). -/
theorem State.writeReg_other (s : State) {off : Nat} (h : 0x10 ≤ off) (v : Word) : s.writeReg off v = s := by
  unfold State.writeReg; split <;> first | omega | rfl

/-- Bit `k` of a mask is the `k`-th element of its list. -/
theorem maskValue_testBit (l : List Bool) (k : Nat) : (maskValue l).testBit k = l.getD k false := by
  induction l generalizing k with
  | nil => simp [maskValue]
  | cons b rest ih =>
    cases k with
    | zero => cases b <;> simp [maskValue, Nat.testBit_zero]
    | succ k =>
      have : maskValue (b :: rest) / 2 = maskValue rest := by
        cases b
        · simp [maskValue]
        · simp [maskValue]; omega
      rw [Nat.testBit_succ, this, ih]; rfl

/-- A mask of `n` bits is below 2^n. -/
theorem maskValue_lt (l : List Bool) : maskValue l < 2 ^ l.length := by
  induction l with
  | nil => simp [maskValue]
  | cons b rest ih =>
    have : b.toNat ≤ 1 := by cases b <;> simp
    simp only [maskValue, List.length_cons, Nat.pow_succ]
    omega

/-- A word given byte by byte. -/
theorem leValue_word (b0 b1 b2 b3 : Byte) :
    (BitVec.ofNat 32 (leValue [b0, b1, b2, b3])).toNat =
      b0.toNat + 256 * (b1.toNat + 256 * (b2.toNat + 256 * b3.toNat)) := by
  have h0 := b0.isLt
  have h1 := b1.isLt
  have h2 := b2.isLt
  have h3 := b3.isLt
  simp only [leValue, BitVec.toNat_ofNat]
  omega

end Sys2Proof.Machine
end

