-- ==== Sys2Proof/Laws/Loader.lean ====
section
/-! SUPPORT. The load: its reads and checks, and what a load that succeeds has found. -/

namespace Sys2Proof.Machine

theorem loadRead_some {r : Rom} {a n v : Nat} (e : LoadError) (h : r.read? a n = some v) : loadRead r a n e = .ok v := by
  simp [loadRead, h]

theorem loadRead_none {r : Rom} {a n : Nat} (e : LoadError) (h : r.read? a n = none) :
    loadRead r a n e = .error e := by simp [loadRead, h]

theorem loadCheck_true {b : Bool} (e : LoadError) (h : b = true) : loadCheck b e = .ok () := by simp [loadCheck, h]

theorem loadCheck_false {b : Bool} (e : LoadError) (h : b = false) : loadCheck b e = .error e := by
  simp [loadCheck, h]

/-- A sequence of load steps that succeeds: each of them succeeded. -/
theorem load_bind_ok {α β : Type} {m : Except LoadError α} {f : α → Except LoadError β} {y : β}
    (h : (m >>= f) = .ok y) : ∃ x, m = .ok x ∧ f x = .ok y := by
  cases m with
  | error _ => cases h
  | ok x => exact ⟨x, rfl, h⟩

/-- A sequence of load steps that fails: one of them failed. -/
theorem load_bind_error {α β : Type} {m : Except LoadError α} {f : α → Except LoadError β} {e : LoadError}
    (h : (m >>= f) = .error e) : m = .error e ∨ ∃ x, m = .ok x ∧ f x = .error e := by
  cases m with
  | error _ => cases h; exact .inl rfl
  | ok x => exact .inr ⟨x, rfl, h⟩

theorem loadRead_ok {r : Rom} {a n v : Nat} {e : LoadError} (h : loadRead r a n e = .ok v) : r.read? a n = some v := by
  unfold loadRead at h; split at h <;> cases h; assumption

theorem loadRead_error {r : Rom} {a n : Nat} {e x : LoadError} (h : loadRead r a n e = .error x) : x = e := by
  unfold loadRead at h; split at h <;> cases h; rfl

theorem loadCheck_ok {b : Bool} {e : LoadError} {u : Unit} (h : loadCheck b e = .ok u) : b = true := by
  unfold loadCheck at h
  split at h
  · assumption
  · cases h

theorem loadCheck_error {b : Bool} {e x : LoadError} (h : loadCheck b e = .error x) : x = e := by
  unfold loadCheck at h; split at h <;> cases h; rfl

/-- The track pointers a load found: as many as asked for, each mapped. -/
theorem loadPointers_ok {r : Rom} (hz : r.size ≤ Config.romSizeMax) {n h i : Nat} {l : List Word}
    (hl : loadPointers r h i n = .ok l) : l.length = n ∧ ∀ p ∈ l, r.mapped p.toNat = true := by
  induction n generalizing i l with
  | zero => cases hl; simp
  | succ n ih =>
    simp only [loadPointers] at hl
    obtain ⟨p, -, hl⟩ := load_bind_ok hl
    obtain ⟨_, h2, hl⟩ := load_bind_ok hl
    obtain ⟨rest, h3, hl⟩ := load_bind_ok hl
    cases hl
    have h2 := loadCheck_ok h2
    simp at h2
    obtain ⟨q1, q2⟩ := ih h3
    refine ⟨by simp [q1], fun x hx => ?_⟩
    rcases List.mem_cons.1 hx with rfl | hx
    · have := (Rom.mapped_iff _ _).1 h2.2
      have hp : p < 2 ^ 32 := by simp [Config.romBase, Config.romSizeMax] at this hz; omega
      rw [BitVec.toNat_ofNat, Nat.mod_eq_of_lt hp]
      exact h2.2
    · exact q2 x hx

/-- What a load that succeeds has found: 1 to 16 tracks, each with a mapped pointer. -/
theorem loadSong_ok {r : Rom} {t k : Nat} {l : Loaded} (hz : r.size ≤ Config.romSizeMax)
    (h : loadSong r t k = .ok l) :
    1 ≤ l.numTracks.toNat ∧ l.numTracks.toNat ≤ 16 ∧ l.tracks.length = l.numTracks.toNat ∧
      ∀ p ∈ l.tracks, r.mapped p.toNat = true := by
  unfold loadSong at h
  obtain ⟨_, -, h⟩ := load_bind_ok h
  obtain ⟨_, -, h⟩ := load_bind_ok h
  simp only at h
  obtain ⟨_, -, h⟩ := load_bind_ok h
  obtain ⟨_, -, h⟩ := load_bind_ok h
  obtain ⟨_, -, h⟩ := load_bind_ok h
  obtain ⟨_, -, h⟩ := load_bind_ok h
  obtain ⟨n, -, h⟩ := load_bind_ok h
  obtain ⟨_, -, h⟩ := load_bind_ok h
  obtain ⟨_, -, h⟩ := load_bind_ok h
  obtain ⟨_, hn, h⟩ := load_bind_ok h
  obtain ⟨_, ht, h⟩ := load_bind_ok h
  obtain ⟨_, -, h⟩ := load_bind_ok h
  cases h
  have hn := loadCheck_ok hn
  simp [Config.maxTracks] at hn
  obtain ⟨q1, q2⟩ := loadPointers_ok hz ht
  have e : (BitVec.ofNat 8 n).toNat = n := by rw [BitVec.toNat_ofNat]; omega
  simp only [e]
  exact ⟨by omega, hn.2, q1, q2⟩

end Sys2Proof.Machine
end

