-- ==== Sys2Proof/Laws/PerInstr.lean ====
section
/-! SUPPORT. What is said of every instruction as syntax, one lemma per constructor. -/

namespace Sys2Proof.Laws.EncodingLength

/-- The canonical opcode byte of an instruction selects it (R62). -/
theorem opcodeOf_byte (op : Opcode) : opcodeOf op.byte = some op := by cases op <;> decide

/-- The canonical bytes of the instruction are as many as its format has (R59, R66), and their first byte selects its
opcode (R62). -/
def Statement (i : Instr) : Prop :=
  (encode i).length = i.byteLength ∧ (encode i).head?.bind opcodeOf = some i.opcode

theorem rest (dur : Byte) : Statement (.rest dur) := ⟨rfl, opcodeOf_byte _⟩
theorem eot : Statement .eot := ⟨rfl, opcodeOf_byte _⟩
theorem jump (addr : Word) : Statement (.jump addr) := ⟨rfl, opcodeOf_byte _⟩
theorem call (addr : Word) : Statement (.call addr) := ⟨rfl, opcodeOf_byte _⟩
theorem ret : Statement .ret := ⟨rfl, opcodeOf_byte _⟩
theorem tempo (t : Byte) : Statement (.tempo t) := ⟨rfl, opcodeOf_byte _⟩
theorem prog (prog : Byte) : Statement (.prog prog) := ⟨rfl, opcodeOf_byte _⟩
theorem vol (vol : Bits7) : Statement (.vol vol) := ⟨rfl, opcodeOf_byte _⟩
theorem pan (pan : Bits7) : Statement (.pan pan) := ⟨rfl, opcodeOf_byte _⟩
theorem bend (bend : Bits7) : Statement (.bend bend) := ⟨rfl, opcodeOf_byte _⟩
theorem vib (depth rate delay : Byte) : Statement (.vib depth rate delay) := ⟨rfl, opcodeOf_byte _⟩
theorem trem (depth rate delay : Byte) : Statement (.trem depth rate delay) := ⟨rfl, opcodeOf_byte _⟩
theorem tie (dur : Byte) : Statement (.tie dur) := ⟨rfl, opcodeOf_byte _⟩
theorem note (key vel : Bits7) (gate : Byte) : Statement (.note key vel gate) := ⟨rfl, opcodeOf_byte _⟩

end Sys2Proof.Laws.EncodingLength
end

