-- ==== Sys2Proof/Tests/Slice0.lean ====
section
/-! SUPPORT. Tests of the model, as named theorems. Expected results come from the spec: the vectors of
spec/95_test_vectors.md (the section is named) or the examples of the rules. At the end, a witness for the hypotheses
of each statement that has hypotheses. -/

namespace Sys2Proof.Tests

open Sys2Proof Sys2Proof.Machine

/-! ### Well-formedness (R10, R11, R34, R65): an ill-formed term for each check -/

theorem test_wf_sample_rate_low : Config.wellFormed 255 1 = false := by decide
theorem test_wf_sample_rate_high : Config.wellFormed (2 ^ 20 + 1) 1 = false := by decide
theorem test_wf_rom_size_zero : Config.wellFormed 48000 0 = false := by decide
theorem test_wf_rom_size_high : Config.wellFormed 48000 (0x02000000 + 1) = false := by decide
theorem test_wf_bounds : (Config.wellFormed 256 1, Config.wellFormed (2 ^ 20) 0x02000000) = (true, true) := by decide
theorem test_wf_byte_access : HostOp.wellFormed (.readReg 0 .byte) = false := by decide
theorem test_wf_half_access : HostOp.wellFormed (.writeReg 8 .half 0) = false := by decide
theorem test_wf_misaligned_access : HostOp.wellFormed (.readReg 2 .word) = false := by decide
theorem test_wf_access_above : HostOp.wellFormed (.readReg 0x40 .word) = false := by decide
/-- R65: within a supported instruction no operand value is illegal, so no instruction is ill formed. -/
theorem test_wf_every_instr : ∀ i : Instr, i.wellFormed = true := fun i => by cases i <;> rfl

/-! ### Decoding (spec/95_test_vectors.md section 2.1): at least one word for each constructor -/

theorem test_decode_rest : decode [0x80, 0x04] = .ok (.rest 4, []) := rfl
theorem test_decode_tie : decode [0xCF, 0x02] = .ok (.tie 2, []) := rfl
theorem test_decode_prog : decode [0xBD, 0x01] = .ok (.prog 1, []) := rfl
theorem test_decode_vol : decode [0xBE, 0x64] = .ok (.vol 100, []) := rfl
theorem test_decode_vol_high_bit : decode [0xBE, 0xFF] = .ok (.vol 127, []) := rfl
theorem test_decode_pan : decode [0xBF, 0x7F] = .ok (.pan 127, []) := rfl
theorem test_decode_bend_low : decode [0xC0, 0x00] = .ok (.bend (BitVec.ofInt 7 (-64)), []) := rfl
theorem test_decode_bend_zero : decode [0xC0, 0xC0] = .ok (.bend 0, []) := rfl
theorem test_decode_bend_high : decode [0xC0, 0x7F] = .ok (.bend 63, []) := rfl
theorem test_decode_tempo : decode [0xBB, 0x3C] = .ok (.tempo 60, []) := rfl
theorem test_decode_vib : decode [0xC4, 0x40, 0x10, 0x00] = .ok (.vib 64 16 0, []) := rfl
theorem test_decode_trem : decode [0xC6, 0x20, 0x40, 0x02] = .ok (.trem 32 64 2, []) := rfl
theorem test_decode_note : decode [0xD0, 0x3C, 0x7F, 0x04] = .ok (.note 60 127 4, []) := rfl
theorem test_decode_note_ff : decode [0xFF, 0x3C, 0x7F, 0x04] = .ok (.note 60 127 4, []) := rfl
theorem test_decode_note_high_bits : decode [0xE7, 0xBC, 0xFF, 0x04] = .ok (.note 60 127 4, []) := rfl
theorem test_decode_jump : decode [0xB2, 0x40, 0x01, 0x00, 0x08] = .ok (.jump 0x08000140, []) := rfl
theorem test_decode_call : decode [0xB3, 0x30, 0x01, 0x00, 0x08, 0xB1] = .ok (.call 0x08000130, [0xB1]) := rfl
theorem test_decode_ret : decode [0xB4] = .ok (.ret, []) := rfl
theorem test_decode_eot : decode [0xB1] = .ok (.eot, []) := rfl
/-- The unsupported opcode bytes of section 2.1, each an end of a range of R64. -/
theorem test_decode_unsupported :
    [0x00, 0x7F, 0x81, 0xB0, 0xB5, 0xBA, 0xBC, 0xC1, 0xC3, 0xC5, 0xC7, 0xCE].all (fun b => (opcodeOf b).isNone) = true := by
  decide
/-- The opcode byte is judged before any operand byte is looked for (R67). -/
theorem test_decode_unsupported_alone : decode [0x81] = .error (.unsupportedOpcode 0x81) := rfl
theorem test_decode_missing_operand : decode [0xD0, 0x3C] = .error .missingByte := rfl
/-- No two rows of the opcode map fit one byte (R62). -/
theorem test_opcode_rows_disjoint :
    opcodeMap.Pairwise (fun x y => x.mask &&& y.mask &&& (x.pattern ^^^ y.pattern) ≠ 0) := by decide
set_option maxRecDepth 4000 in
/-- 13 command opcodes, 48 NOTE opcodes, 195 unsupported (section 2.1). -/
theorem test_opcode_counts :
    (((List.range 256).filter fun n => opcodeOf (BitVec.ofNat 8 n) = some .note).length,
      ((List.range 256).filter fun n => opcodeOf (BitVec.ofNat 8 n) = none).length) = (48, 195) := by
  decide
theorem test_table_word : decodeTableWord 32 0x047F3CD0 = some (.note 60 127 4) := by decide
theorem test_table_word_bend : decodeTableWord 16 0x50C0 = some (.bend 16) := by decide
theorem test_encode_call : encode (.call 0x08000130) = [0xB3, 0x30, 0x01, 0x00, 0x08] := by decide
theorem test_encode_bend : encode (.bend (BitVec.ofInt 7 (-64))) = [0xC0, 0x00] := by decide

/-! ### A small machine: 256 bytes of ROM and one track -/

/-- A Square voice (duty 2, A 64, D 16, S 128, R 64) at 0x08000040; a song table with one song at 0x08000080, its
header at 0x080000A0, its one track at 0x08000000, its instrument table at 0x08000040. -/
def smallCells : List Host.Cell :=
  [(0x08000040, 0x01), (0x08000044, 0x02), (0x08000048, 0x40), (0x08000049, 0x10), (0x0800004A, 0x80),
    (0x0800004B, 0x40), (0x08000080, 0x01), (0x08000084, 0xA0), (0x08000087, 0x08), (0x08000088, 0x07),
    (0x080000A0, 0x01), (0x080000A1, 0x3C), (0x080000A4, 0x40), (0x080000A7, 0x08), (0x080000AB, 0x08)]

/-- The ROM of the small machine, with the bytes given at its start. -/
def smallRom (bs : List Byte) : Rom := Rom.writeBytes ⟨0x100, smallCells⟩ 0x08000000 bs

/-- The small machine in its pull loop: track 0 is at the bytes given, and its register file is as after loading. -/
def at0 (bs : List Byte) : State :=
  { State.powerOn 256 (smallRom bs) with
    playing := true, control := .pull, song := ⟨1, 0, 0, 0x08000040⟩, tempo := 60,
    trk := trackTable fun i => if i = 0 then Track.loaded 0x08000000 else Track.zero }

/-- The state with track 0 replaced. -/
def withTrack (s : State) (t : Track) : State := { s with trk := s.trk.set 0 t }

/-- The state with channel 0 replaced. -/
def withChan (s : State) (c : Channel) : State := { s with ch := s.ch.set 0 c }

/-- A channel of a track, in the phase and with the gate given, that holds the voice of `smallCells`. -/
def chan (st : EnvState) (i : TrackIdx) (gate : Half) : Channel :=
  { newChannel i 60 127 0 ⟨.square 2, 64, 16, 128, 64⟩ 0 with state := st, gate := gate }

/-- What `f` reads in the state after one step. -/
def after {α : Type} (s : State) (f : State → α) : Option α :=
  match step s with
  | .next t => some (f t)
  | .fault _ => none
  | .refused _ => none

/-- The cursor and the due counter of track 0. -/
def cursorDue (s : State) : Word × Byte := (s.trk[0].cursor, s.trk[0].due)

/-- STATUS, ERR_ADDR and ERR_OPCODE. -/
def errorView (s : State) : Word × Word × Word := (s.readReg 0x04, s.readReg 0x10, s.readReg 0x14)

/-! ### One step of each instruction (sections 2.3 to 2.5) -/

theorem test_note_channel :
    after (at0 [0xD0, 0x3C, 0x7F, 0x04]) (fun t => (t.ch[0], t.allocSeq)) =
      some (⟨.attack, 0, 4, 0, 60, 127, ⟨.square 2, 64, 16, 128, 64⟩, 0, 0, 0, 0x7FFF, 0, 0, 0⟩, 1) := by decide
theorem test_note_due : after (at0 [0xD0, 0x3C, 0x7F, 0x04]) cursorDue = some (0x08000004, 4) := by decide
theorem test_rest : after (at0 [0x80, 0x04]) cursorDue = some (0x08000002, 4) := by decide
theorem test_tie_saturates :
    after (withChan (at0 [0xCF, 0xFF]) (chan .sustain 0 65500)) (fun t => (t.ch[0].gate, cursorDue t)) =
      some (65535, 0x08000002, 255) := by decide
theorem test_tie_not_released_nor_foreign :
    (after (withChan (at0 [0xCF, 0x04]) (chan .release 0 3)) (·.ch[0].gate),
      after (withChan (at0 [0xCF, 0x04]) (chan .sustain 1 3)) (·.ch[0].gate)) = (some 3, some 3) := by decide
theorem test_prog : after (at0 [0xBD, 0x01]) (fun t => (t.trk[0].program, cursorDue t)) = some (1, 0x08000002, 0) := by
  decide
theorem test_vol : after (at0 [0xBE, 0x64]) (fun t => (t.trk[0].volume, cursorDue t)) = some (100, 0x08000002, 0) := by
  decide
theorem test_pan : after (at0 [0xBF, 0x00]) (fun t => (t.trk[0].pan, cursorDue t)) = some (0, 0x08000002, 0) := by
  decide
theorem test_bend : after (at0 [0xC0, 0x00]) (fun t => (t.trk[0].bend.toInt, cursorDue t)) = some (-64, 0x08000002, 0) := by
  decide
theorem test_vib :
    after (at0 [0xC4, 0x40, 0x10, 0x00]) (fun t => (t.trk[0].vib, cursorDue t)) =
      some (⟨64, 16, 0, 0, 0, 0⟩, 0x08000004, 0) := by decide
theorem test_trem :
    after (at0 [0xC6, 0x20, 0x40, 0x02]) (fun t => (t.trk[0].trem, cursorDue t)) =
      some (⟨32, 64, 2, 2, 0, 0⟩, 0x08000004, 0) := by decide
theorem test_tempo : after (at0 [0xBB, 0x4B]) (fun t => (t.tempo, cursorDue t)) = some (75, 0x08000002, 0) := by decide
theorem test_jump_last_byte : after (at0 [0xB2, 0xFF, 0x00, 0x00, 0x08]) cursorDue = some (0x080000FF, 0) := by decide
/-- The target's byte is unmapped: code 1, a halted track (section 2.12; here the session goes on). -/
theorem test_jump_unmapped :
    after (at0 [0xB2, 0x00, 0x00, 0x00, 0x09]) (fun t => (errorView t, t.readReg 0x1C, cursorDue t)) =
      some ((0x109, 0x08000000, 0xB2), 1, 0x08000000, 0) := by decide
theorem test_call :
    after (at0 [0xB3, 0x30, 0x00, 0x00, 0x08]) (fun t => (t.trk[0].stack, t.trk[0].sp, cursorDue t)) =
      some (#v[0x08000005, 0, 0], 1, 0x08000030, 0) := by decide
/-- The overflow is checked before the target, and is fatal: code 5, ABORTED. -/
theorem test_call_overflow :
    after (withTrack (at0 [0xB3, 0x00, 0x00, 0x00, 0x09]) { Track.loaded 0x08000000 with sp := 3 }) errorView =
      some (0x504, 0x08000000, 0xB3) := by decide
theorem test_ret :
    after (withTrack (at0 [0xB4]) { Track.loaded 0x08000000 with sp := 1, stack := #v[0x08000029, 7, 8] })
        (fun t => (t.trk[0].stack, t.trk[0].sp, cursorDue t)) =
      some (#v[0x08000029, 7, 8], 0, 0x08000029, 0) := by decide
theorem test_ret_underflow : after (at0 [0xB4]) errorView = some (0x604, 0x08000000, 0xB4) := by decide
theorem test_eot :
    after (at0 [0xB1]) (fun t => (t.trk[0].active, errorView t, cursorDue t)) =
      some (false, (1, 0, 0), 0x08000000, 0) := by decide
theorem test_unsupported : after (at0 [0x81]) errorView = some (0x409, 0x08000000, 0x81) := by decide
theorem test_note_parse_error :
    after (withTrack (at0 [0xD0, 0x3C, 0x7F, 0x04]) { Track.loaded 0x08000000 with program := 200 })
        (fun t => (errorView t, t.allocSeq)) = some ((0x204, 0x08000000, 0xD0), 0) := by decide

/-! ### Memory, voices and the channel engine (sections 2.2, 2.3 and 2.6 to 2.10) -/

theorem test_mem_read :
    ((smallRom []).read? 0x08000084 4, (smallRom []).read? 0x08000085 4, (smallRom []).read? 0x080000FF 1,
      (smallRom []).read? 0x080000FE 4) = (some 0x080000A0, some 0x07080000, some 0, none) := by decide
set_option maxRecDepth 4000 in
/-- A sample header of R50: base key 0, loop (flags bit 14), f1024 0x02EE0000, loop_start 4, length 8, data after it. -/
theorem test_resolve_sample :
    resolve ((smallRom [0, 0, 0, 0, 0xB0, 0, 0, 8, 255, 0, 255, 0]).writeBytes 0x080000B0
        [0, 0, 0, 0x40, 0, 0, 0xEE, 2, 4, 0, 0, 0, 8]) 0x08000000 0 60 =
      some ⟨.directSample 0 true 0x02EE0000 4 8 0x080000C0, 255, 0, 255, 0⟩ := by decide
set_option maxRecDepth 4000 in
/-- A key map at 0x08000081 that gives sub-voice 0 of the table at 0x08000040 (R49). -/
theorem test_resolve_key_split :
    resolve (smallRom [0x40, 0, 0, 0, 0x40, 0, 0, 8, 0x81, 0, 0, 8]) 0x08000000 0 1 =
      some ⟨.square 2, 64, 16, 128, 64⟩ := by decide
set_option maxRecDepth 4000 in
theorem test_steal_release_first :
    allocate (chanTable fun j =>
      if j = 3 then { chan .release 0 0 with stamp := 9 }
      else if j = 5 then { chan .release 0 0 with stamp := 4 } else { chan .sustain 0 0 with stamp := 1 }) = 5 := by decide
/-- The first row of section 2.6. -/
theorem test_envelope :
    ((List.range 8).map fun n =>
      (fun c => (c.env.toNat, c.state)) (Channel.tick^[n + 1] (newChannel 0 60 127 4 ⟨.square 2, 64, 16, 128, 64⟩ 0))) =
      [(64, .attack), (128, .attack), (192, .attack), (255, .decay), (191, .release), (127, .release), (63, .release),
        (0, .idle)] := by decide
theorem test_tri :
    ([0, 1, 63, 64, 65, 127, 128, 191, 192, 255] : List Byte).map tri = [0, 1, 63, 64, 63, 1, 0, -63, -64, -1] := by
  decide
theorem test_lfo_floor : (Lfo.step ⟨3, 255, 0, 0, 0, 0⟩).offset = -1 := by decide
theorem test_pitch :
    [pitchInc 48000 450560 69 0, pitchInc 48000 450560 69 3840, pitchInc 48000 450560 69 4416,
      pitchInc 48000 450560 69 4448, pitchInc 48000 450560 69 8191, pitchInc 48000 14417920 69 4416,
      pitchInc 48000 (13379 * 1024) 60 3072, pitchInc 32768 450560 69 4416] =
      [731559, 23409896, 39370533, 40540788, 1188094279, 1259857073, 598566327, 57671680] := by decide
/-- The first tick of the combined modulation of section 2.4: bend +16, vibrato offset 16, env 64. -/
theorem test_recompute :
    (fun c : Channel => (c.inc, c.gL, c.gR))
        (({ chan .attack 0 8 with key := 69, env := 64 } : Channel).recompute 48000
          { Track.loaded 0 with bend := 16, vib := ⟨64, 16, 0, 0, 16, 16⟩ }) = (41125915, 31, 31) := by decide
theorem test_gains :
    [(251, 1, 249), (78, 78, 0), (120, 90, 30)] =
      [(amplitude 255 127 127, gainLeft 251 127, gainRight 251 127), (amplitude 128 100 100, gainLeft 78 0, gainRight 78 0),
        (amplitude 200 90 110, gainLeft 120 32, gainRight 120 32)] := by decide
theorem test_square :
    [squareSample 0 0x1FFFFFFF, squareSample 0 0x20000000, squareSample 2 0x7FFFFFFF, squareSample 2 0x80000000,
      squareSample 3 0xBFFFFFFF, squareSample 3 0xC0000000] = [127, -128, 127, -128, 127, -128] := by decide
/-- The high nibble comes first (section 2.9); the byte at 0x080000A1 is 0x3C. -/
theorem test_wave :
    (waveSample (smallRom []) 0x080000A1 0, waveSample (smallRom []) 0x080000A1 0x08000000) =
      (some (16 * 3 - 128), some (16 * 12 - 128)) := by decide
theorem test_lfsr :
    (lfsrShifts false 1 0x7FFF, lfsrShifts false 15 0x7FFF, lfsrShifts true 1 0x7FFF, lfsrShifts true 7 0x7FFF) =
      (0x3FFF, 0x4000, 0x3FBF, 0x40C0) := by decide
theorem test_reverb :
    (reverbSide 3937 0 64, reverbSide 0 1000 64, reverbSide 20000 30000 127) = (3937, 500, 32767) := by decide

/-! ### The host interface and the frame step (sections 2.11 and 2.13) -/

/-- The small machine between host operations, with the operations given to come. -/
def idleWith (ops : List HostOp) : State := { State.powerOn 256 (smallRom [0xB1]) with songTable := 0x08000080, pending := ops }

theorem test_policy_bit :
    after (idleWith [.writeReg 0 .word 4]) (fun t => (t.readReg 0, t.playing, t.answers)) =
      some (4, false, [.written]) := by decide
theorem test_stop_while_not_playing : after (idleWith [.writeReg 0 .word 2]) (·.readReg 4) = some 0 := by decide
theorem test_read_only : after (idleWith [.writeReg 0x18 .word 5]) (·.readReg 0x18) = some 0 := by decide
/-- STATUS PLAYING, SONG_INFO and ACTIVE_MASK of the small song right after its START. -/
theorem test_start :
    after (idleWith [.writeReg 0 .word 1]) (fun t => (t.readReg 4, t.readReg 0x20, t.readReg 0x24)) =
      some (1, 0x3C000701, 1) := by decide
/-- A song index outside the count: STATUS 0x324, ERR_ADDR the table. -/
theorem test_start_bad_index :
    after ({ idleWith [.writeReg 0 .word 1] with songIndex := 1 }) errorView = some (0x324, 0x08000080, 0) := by decide
/-- SONG_TABLE = 0: STATUS 0x124, ERR_ADDR 0. -/
theorem test_start_null_table :
    after ({ idleWith [.writeReg 0 .word 1] with songTable := 0 }) errorView = some (0x124, 0, 0) := by decide
theorem test_table_word_runs :
    after (State.reset.withFetchWord 40 0x08000000B3) (fun t => (t.trk[0].sp, t.trk[0].cursor)) =
      some (1, 0x08000000) := by decide

/-! ### Witnesses: for each statement with hypotheses, a concrete state and operands that meet them all, for each
clause and at the ends of its range -/

theorem test_witness_DecodeOfEncode : (Instr.note 127 0 255).wellFormed = true := by decide

theorem test_witness_LengthFixedByOpcodeByte :
    decode (0xB2 :: [0, 0, 0, 8]) = .ok (.jump 0x08000000, []) ∧
      decode (0xB2 :: [1, 2, 3, 4, 5]) = .ok (.jump 0x04030201, [5]) := ⟨rfl, rfl⟩

/-- The ends of the six ranges of R64. -/
theorem test_witness_UnsupportedOpcodesAreRejected :
    ∀ b ∈ ([0x00, 0x7F, 0x81, 0xB0, 0xB5, 0xBA, 0xBC, 0xC1, 0xC3, 0xC5, 0xC7, 0xCE] : List Byte),
      IsUnsupported b ∧ (at0 [b]).AtPull ∧ (at0 [b]).rom.byte? (at0 [b]).curAddr = some b := by
  unfold IsUnsupported State.AtPull
  decide

/-- Their neighbours outside. -/
theorem test_supported_neighbours :
    ∀ b ∈ ([0x80, 0xB1, 0xB4, 0xBB, 0xBD, 0xC0, 0xC4, 0xC6, 0xCF, 0xFF] : List Byte), ¬IsUnsupported b := by
  unfold IsUnsupported
  decide

theorem test_witness_AllNoteOpcodesAreOneNote :
    0xD0 ≤ (0xD0 : Byte).toNat ∧ 0xD0 ≤ (0xFF : Byte).toNat ∧ ¬0xD0 ≤ (0xCF : Byte).toNat ∧
      decode (0xFF :: [60, 127, 4]) = .ok (.note 60 127 4, []) := ⟨by decide, by decide, by decide, rfl⟩

theorem test_witness_MemReadIsLittleEndian :
    (∀ k, k < 4 → (smallRom []).mapped (0x080000FC + k) = true) ∧
      ∃ k, k < 4 ∧ (smallRom []).mapped (0x080000FD + k) = false := ⟨by decide, 3, by decide, by decide⟩

theorem test_witness_NoStepWritesTheRom : step State.reset = .next State.reset := by rfl

/-- The descriptor bytes of a voice with the kind code given and the address word 0x080000F0 or 0x080000F1. -/
def voiceDesc (code lo : Byte) : List Byte := [code, 0, 0, 0, lo, 0, 0, 8, 64, 16, 128, 64]

/-- Square, Noise, ProgrammableWave with the last whole wave table of the ROM and with the first that is not, an
unmapped sample header, and unknown kinds; an unmapped descriptor. -/
theorem test_witness_ResolveByKindCode :
    ((smallRom []).bytes? (0x080000F5 + 12 * 0) 12 = none) ∧
    (∀ code ∈ ([0x01, 0x04, 0x03, 0x00, 0x02, 0xFF] : List Byte),
      (smallRom (voiceDesc code 0xF0)).bytes? (0x08000000 + 12 * 0) 12 = some (voiceDesc code 0xF0) ∧ code ≠ 0x40) ∧
    u32At (voiceDesc 0x03 0xF0) 4 = 0x080000F0 ∧
    (∀ n, n < 16 → (smallRom []).mapped (0x080000F0 + n) = true) ∧
    ∃ n, n < 16 ∧ (smallRom []).mapped (0x080000F1 + n) = false :=
  ⟨by decide, by decide, by decide, by decide, 15, by decide, by decide⟩

/-- The small ROM with a DirectSample descriptor at its start, whose header at 0x080000B0 says: loop, loop_start 4, and
the length given. -/
def sampleRom (len : Byte) : Rom :=
  (smallRom (voiceDesc 0x00 0xB0)).writeBytes 0x080000B0 [0, 0, 0, 0x40, 0, 0, 0xEE, 2, 4, 0, 0, 0, len, 0, 0, 0]

set_option maxRecDepth 4000 in
/-- Length 0, a loop that starts at the length, the least and the greatest length that can be played, and a sample
whose last byte is beyond the end. -/
theorem test_witness_ResolveByKindCode_sample :
    (∀ n, n < 16 → (smallRom []).mapped (0x080000B0 + n) = true) ∧
    (∀ len ∈ ([0, 4, 5, 64, 65] : List Byte), (sampleRom len).read? (0x080000B0 + 2) 2 = some 0x4000 ∧
      (sampleRom len).read? (0x080000B0 + 8) 4 = some 4 ∧ (sampleRom len).read? (0x080000B0 + 12) 4 = some len.toNat) ∧
    (0x4000 : Nat).testBit 14 = true ∧ (∀ n, n < 64 → (smallRom []).mapped (0x080000B0 + 16 + n) = true) ∧
    ∃ n, n < 65 ∧ (smallRom []).mapped (0x080000B0 + 16 + n) = false :=
  ⟨by decide, by decide, by decide, by decide, 64, by decide, by decide⟩

/-- The small ROM with a KeySplit descriptor at its start, whose sub-voice table is at the offset given and whose key
map is at 0x08000081. -/
def splitRom (lo : Byte) : Rom := smallRom [0x40, 0, 0, 0, lo, 0, 0, 8, 0x81, 0, 0, 8]

/-- The key map's last mapped byte and the first that is not; a sub-voice, one that is a KeySplit, an unmapped one. -/
theorem test_witness_ResolveByKindCode_keySplit :
    (∀ lo ∈ ([0x40, 0x00, 0xF5] : List Byte),
      (splitRom lo).bytes? (0x08000000 + 12 * 0) 12 = some [0x40, 0, 0, 0, lo, 0, 0, 8, 0x81, 0, 0, 8]) ∧
    u32At [0x40, 0, 0, 0, 0x40, 0, 0, 8, 0x81, 0, 0, 8] 8 = 0x08000081 ∧
    (splitRom 0x40).byte? (0x08000081 + 126) = some 0 ∧ (splitRom 0x40).byte? (0x08000081 + 127) = none ∧
    (splitRom 0x40).bytes? (0x08000040 + 12 * 0) 12 = some [1, 0, 0, 0, 2, 0, 0, 0, 64, 16, 128, 64] ∧
    (splitRom 0x00).bytes? (0x08000000 + 12 * 0) 12 = some [0x40, 0, 0, 0, 0x00, 0, 0, 8, 0x81, 0, 0, 8] ∧
    (splitRom 0xF5).bytes? (0x080000F5 + 12 * 0) 12 = none := by decide

theorem test_witness_ResolvedVoicesArePlayable :
    (smallRom []).size ≤ Config.romSizeMax ∧
      resolve (smallRom []) 0x08000040 0 60 = some ⟨.square 2, 64, 16, 128, 64⟩ := by decide

theorem test_witness_StepRunsTheDecodedInstruction :
    (at0 [0x80, 4]).AtPull ∧ (at0 [0x80, 4]).rom.holds (at0 [0x80, 4]).curAddr [0x80, 4] ∧
      decode [0x80, 4] = .ok (.rest 4, []) ∧ (Instr.rest 4).wellFormed = true := by
  refine ⟨?_, ?_, rfl, rfl⟩
  · unfold State.AtPull; decide
  · unfold Rom.holds; decide

/-- The small machine with track 0 at the last byte of the ROM or after it, and with the byte given as the last. -/
def atEnd (cursor : Word) (b : Byte) : State :=
  { withTrack (at0 []) (Track.loaded cursor) with rom := (smallRom []).write 0x080000FF b }

theorem test_witness_DecodeErrorsInOrder :
    ((atEnd 0x08000100 0).AtPull ∧ (atEnd 0x08000100 0).rom.byte? (atEnd 0x08000100 0).curAddr = none) ∧
    ((atEnd 0x080000FF 0xCE).AtPull ∧
      (atEnd 0x080000FF 0xCE).rom.byte? (atEnd 0x080000FF 0xCE).curAddr = some 0xCE ∧ opcodeOf 0xCE = none) ∧
    ((atEnd 0x080000FF 0x80).AtPull ∧
      (atEnd 0x080000FF 0x80).rom.byte? (atEnd 0x080000FF 0x80).curAddr = some 0x80 ∧
      opcodeOf 0x80 = some .rest ∧ 1 < Opcode.rest.format.byteLength ∧
      (atEnd 0x080000FF 0x80).rom.mapped ((atEnd 0x080000FF 0x80).curAddr + 1) = false) := by
  unfold State.AtPull
  decide

/-- Each phase of a channel of the executing track, and one of another track. -/
theorem test_witness_TieExtendsHeldNotes :
    (∀ st ∈ ([.attack, .decay, .sustain] : List EnvState),
      (withChan (at0 []) (chan st 0 65535)).ch[0].track = (at0 []).cur ∧
        (withChan (at0 []) (chan st 0 65535)).ch[0].state = st) ∧
    (∀ st ∈ ([.release, .idle] : List EnvState), (withChan (at0 []) (chan st 0 3)).ch[0].state = st) ∧
    (withChan (at0 []) (chan .sustain 1 3)).ch[0].track ≠ (at0 []).cur := by decide

theorem test_witness_NoteStartsAChannel :
    resolve (at0 []).rom (at0 []).song.instTable.toNat (at0 []).trk[(at0 []).cur].program.toNat (127 : Bits7).toNat =
      some ⟨.square 2, 64, 16, 128, 64⟩ := by decide

/-- Program 200 of the small machine: its descriptor is unmapped. -/
def badProgram : State := withTrack (at0 []) { Track.loaded 0x08000000 with program := 200 }

theorem test_witness_NoteParseErrorAborts :
    resolve badProgram.rom badProgram.song.instTable.toNat badProgram.trk[badProgram.cur].program.toNat
      (60 : Bits7).toNat = none := by decide

/-- The first and the last mapped byte. -/
theorem test_witness_JumpSetsTheCursor :
    (at0 []).rom.mapped (0x08000000 : Word).toNat = true ∧ (at0 []).rom.mapped (0x080000FF : Word).toNat = true := by
  decide

/-- The bytes before and after the ROM, with `sp` 0 and 2. -/
theorem test_witness_UnmappedTargetsAreErrors :
    (at0 []).rom.mapped (0x07FFFFFF : Word).toNat = false ∧ (at0 []).rom.mapped (0x08000100 : Word).toNat = false ∧
      (at0 []).trk[(at0 []).cur].sp.toNat < Config.callDepth ∧
      (withTrack (at0 []) { Track.loaded 0x08000000 with sp := 2 }).trk[(at0 []).cur].sp.toNat < Config.callDepth := by
  decide

/-- The small machine with `sp` as given. -/
def withSp (n : BitVec 2) (bs : List Byte) : State := withTrack (at0 bs) { Track.loaded 0x08000000 with sp := n }

theorem test_witness_CallPushesTheReturnAddress :
    (∀ n : BitVec 2, n ≠ 3 → (withSp n []).trk[(withSp n []).cur].sp.toNat < Config.callDepth) ∧
      (withSp 2 []).rom.mapped (0x080000FF : Word).toNat = true := by decide

theorem test_witness_RetPopsTheReturnAddress :
    (withSp 1 []).trk[(withSp 1 []).cur].sp.toNat = (0 : Fin 3).val + 1 ∧
      (withSp 3 []).trk[(withSp 3 []).cur].sp.toNat = (2 : Fin 3).val + 1 := by decide

theorem test_witness_StackErrors :
    (withSp 3 []).trk[(withSp 3 []).cur].sp.toNat = Config.callDepth ∧
      (withSp 0 []).trk[(withSp 0 []).cur].sp.toNat = 0 := by decide

/-- CALL 0x08000005 and, there, RET. -/
theorem test_witness_CallThenRetIsTransparent :
    (withSp 2 [0xB3, 5, 0, 0, 8, 0xB4]).AtPull ∧ (withSp 2 [0xB3, 5, 0, 0, 8, 0xB4]).trk[0].sp.toNat < Config.callDepth ∧
      (withSp 2 [0xB3, 5, 0, 0, 8, 0xB4]).rom.holds (withSp 2 [0xB3, 5, 0, 0, 8, 0xB4]).curAddr
        (encode (.call 0x08000005)) ∧
      (withSp 2 [0xB3, 5, 0, 0, 8, 0xB4]).rom.byte? (0x08000005 : Word).toNat = some 0xB4 := by
  unfold State.AtPull Rom.holds
  decide

theorem test_witness_OnlyCallAndRetMoveTheStack :
    (∃ t, exec (.call 0x08000000) (withSp 2 []) = .next t) ∧ (∃ t, exec .ret (withSp 1 []) = .next t) ∧
      ∃ t, exec (.rest 4) (withSp 3 []) = .next t := ⟨⟨_, rfl⟩, ⟨_, rfl⟩, ⟨_, rfl⟩⟩

theorem test_witness_TracksArePrivate :
    (15 : TrackIdx) ≠ (at0 []).cur ∧ ∃ t, exec (.rest 4) (at0 []) = .next t := ⟨by decide, _, rfl⟩

/-- Both outcomes: an error that is always fatal, one that POLICY makes fatal, one that halts the track. -/
theorem test_witness_ErrorsRecordThenHaltOrAbort :
    ErrKind.stackUnderflow = .stackUnderflow ∧ ({ at0 [] with policy := true } : State).policy = true ∧
      ¬(ErrKind.outOfRange = .parse ∨ ErrKind.outOfRange = .stackOverflow ∨ ErrKind.outOfRange = .stackUnderflow ∨
        (at0 []).policy = true) := by decide

/-- Twelve live channels, and twelve of which two are Idle. -/
def fullPool : Vector Channel 12 := chanTable fun _ => chan .sustain 0 5
def freePool : Vector Channel 12 := chanTable fun j => if j = 3 ∨ j = 11 then Channel.zero else chan .attack 0 5

/-- The small machine in a session, with the control, the accumulator and the channels given. -/
def session (c : Control) (acc : Word) (ch : Vector Channel 12) : State :=
  { at0 [0xB1] with control := c, tickAcc := acc, ch := ch }

set_option maxRecDepth 4000 in
theorem test_witness_AllocateTakesIdleElseVictim :
    (∃ i : ChanIdx, freePool[i].state = .idle) ∧ ∀ i : ChanIdx, fullPool[i].state ≠ .idle := by decide

set_option maxRecDepth 4000 in
theorem test_witness_NotesAreNeverDropped :
    resolve (at0 []).rom (at0 []).song.instTable.toNat (at0 []).trk[(at0 []).cur].program.toNat (60 : Bits7).toNat =
        some ⟨.square 2, 64, 16, 128, 64⟩ ∧
      (∃ t, exec (.note 60 127 4) { at0 [] with ch := fullPool } = .next t) ∧
      (∃ t, exec (.note 60 127 4) { at0 [] with ch := freePool } = .next t) ∧
      liveCount freePool = 10 ∧ liveCount fullPool = 12 ∧ freePool[0].live = true :=
  ⟨by decide, ⟨_, rfl⟩, ⟨_, rfl⟩, by decide, by decide, by decide⟩

/-- A = 64, so four Attack steps: the ends of the clauses for gates 1, 4 and 6, and gate 0. -/
theorem test_witness_EnvelopeClosedForm :
    let nA := (255 + (64 : Byte).toNat - 1) / (64 : Byte).toNat
    (1 ≤ (6 : Byte).toNat ∧ 1 ≤ (64 : Byte).toNat) ∧ nA = 4 ∧
      (0 < (6 : Byte).toNat ∧ 0 < nA) ∧ (3 < (6 : Byte).toNat ∧ 3 < nA) ∧ (nA ≤ 4 ∧ 4 < (6 : Byte).toNat) ∧
      (nA ≤ 5 ∧ 5 < (6 : Byte).toNat) ∧ (6 : Byte).toNat ≤ 6 ∧ (1 : Byte).toNat ≤ 1 ∧ (0 : Byte).toNat = 0 := by decide

theorem test_witness_ReleaseFallsToZero : (chan .release 0 0).state = .release := by decide

theorem test_witness_EnvelopeTransitionsAreListed :
    (∃ t, step (at0 [0xD0, 60, 127, 4]) = .next t ∧ t.ch[(0 : ChanIdx)].state = .attack) ∧
      (at0 [0xD0, 60, 127, 4]).ch[(0 : ChanIdx)].state ≠ .attack := ⟨⟨_, rfl, rfl⟩, by decide⟩

theorem test_witness_LfoStepStaysInRange :
    ((⟨0, 9, 9, 9, 9, 9⟩ : Lfo).depth = 0 ∧ (⟨1, 9, 9, 1, 9, 9⟩ : Lfo).depth ≠ 0 ∧
      1 ≤ (⟨1, 9, 9, 1, 9, 9⟩ : Lfo).delayCnt.toNat ∧ (⟨255, 9, 9, 0, 9, 9⟩ : Lfo).delayCnt.toNat = 0) ∧
    Config.wellFormed (session .post 0 fullPool).sampleRate (session .post 0 fullPool).rom.size = true ∧
    (session .post 0 fullPool).control = .post := by decide

theorem test_witness_PitchIncrementFits57Bits :
    256 ≤ 256 ∧ 0xFFFFFFFF < 2 ^ 32 ∧ 0 ≤ 127 ∧ 127 ≤ 127 ∧ 0 ≤ 8191 ∧ 8191 ≤ 8191 := by decide

theorem test_witness_PitchAtBaseKeyAndOctave : 1 ≤ 1 ∧ 0 ≤ 127 ∧ 127 ≤ 127 := by decide

theorem test_witness_GainsAndSumsAreBounded :
    (255 ≤ 255 ∧ 127 ≤ 127) ∧ ((chan .attack 0 5).sample (smallRom []) = some 127 ∧ 251 ≤ 251) ∧
      ((∀ j : ChanIdx, fullPool[j].gL.toNat ≤ 251 ∧ fullPool[j].gR.toNat ≤ 251) ∧
        mixSum (smallRom []) fullPool.toList = some (0, 0)) := by decide

/-- A channel that plays a sample of eight bytes, from its last one. -/
def sampler (loop : Bool) (inc : BitVec 57) : Channel :=
  { chan .sustain 0 5 with
    voice := ⟨.directSample 60 loop 0 4 8 0x08000020, 255, 0, 255, 0⟩, pos := 7 * 2 ^ 32 + 1, inc := inc }

/-- It stays below the length, it reaches it in a loop, it reaches it without one. -/
theorem test_witness_SamplePlayerStaysInside :
    ((sampler true 0).voice.kind = .directSample 60 true 0 4 8 0x08000020 ∧
      (sampler false 0).voice.kind = .directSample 60 false 0 4 8 0x08000020 ∧ (4 : Word).toNat < (8 : Word).toNat ∧
      sampleIndex (sampler true 0).pos < (8 : Word).toNat) ∧
    ((sampler true 0).pos.toNat + (sampler true 0).inc.toNat) / 2 ^ 32 < (8 : Word).toNat ∧
    (8 : Word).toNat ≤ ((sampler true (2 ^ 32)).pos.toNat + (sampler true (2 ^ 32)).inc.toNat) / 2 ^ 32 ∧
    (8 : Word).toNat ≤ ((sampler false (2 ^ 32)).pos.toNat + (sampler false (2 ^ 32)).inc.toNat) / 2 ^ 32 := by decide

/-- The four duties; a wave byte and a sample byte that are mapped; both modes of the noise. -/
theorem test_witness_voiceKinds :
    (∀ d : BitVec 2, ({ chan .sustain 0 5 with voice := ⟨.square d, 0, 0, 0, 0⟩ } : Channel).voice.kind = .square d) ∧
    (({ chan .sustain 0 5 with voice := ⟨.programmableWave 0x080000F0, 0, 0, 0, 0⟩, phase := 0xFFFFFFFF } :
        Channel).voice.kind = .programmableWave 0x080000F0 ∧
      (smallRom []).byte? ((0x080000F0 : Word).toNat + (0xFFFFFFFF : Word).toNat / 2 ^ 27 / 2) = some 0) ∧
    (smallRom []).byte? ((0x08000020 : Word).toNat + (sampler true 0).pos.toNat / 2 ^ 32) = some 0 ∧
    ∀ short : Bool, ({ chan .sustain 0 5 with voice := ⟨.noise short, 0, 0, 0, 0⟩ } : Channel).voice.kind = .noise short := by
  decide

theorem test_witness_NoiseRegisterNeverZero : 0 < 15 ∧ 14 < 15 ∧ 6 ≠ 14 := by decide

theorem test_witness_ReverbFeedsBack :
    (3 < (List.replicate 4 (1000 : Half)).length ∧
      (ReverbLine.mk [0, 0, 0, 1000] [0, 0, 0, 0] 3).apply 4 64 0 3937 =
        (500, 3937, ⟨[0, 0, 0, 500], [0, 0, 0, 3937], 0⟩)) ∧ (1 ≤ 1 ∧ 127 ≤ 127) := by decide

theorem test_witness_RegisterWindowIsWholeWords :
    (∀ off ∈ [0x10, 0x14, 0x18, 0x1C, 0x20, 0x24, 0x28], 0x10 ≤ off ∧ off ≤ 0x28 ∧ off % 4 = 0) ∧
      (0x2C ≤ 0x2C ∧ 0x3C ≤ 0x3C ∧ 0x2C % 4 = 0 ∧ 0x3C % 4 = 0) ∧
      (Config.wellFormed (idleWith []).sampleRate (idleWith []).rom.size = true ∧ (idleWith []).control = .idle) ∧
      (AccessSize.byte ≠ .word ∧ AccessSize.half ≠ .word ∧ 3 % 4 ≠ 0) ∧
      (idleWith [.readReg 3 .word]).pending = .readReg 3 .word :: [] ∧
      (idleWith [.writeReg 0x3C .byte 1]).pending = .writeReg 0x3C .byte 1 :: [] ∧
      (idleWith [.readReg 0x3C .word]).pending = .readReg 0x3C .word :: [] ∧
      (idleWith [.writeReg 0 .word 1]).pending = .writeReg 0 .word 1 :: [] := by decide

theorem test_witness_CtrlWriteActsInOrder :
    ((7 : Word).getLsbD 0 = true) ∧ ((6 : Word).getLsbD 0 = false ∧ (6 : Word).getLsbD 1 = true) ∧
      ((4 : Word).getLsbD 0 = false ∧ (4 : Word).getLsbD 1 = false) ∧ (at0 []).playing = true ∧
      (idleWith []).playing = false := by decide

/-- The small ROM with the bytes given at an address. -/
def patched (a : Nat) (bs : List Byte) : Rom := (smallRom []).writeBytes a bs

/-- The small ROM with a song table that says `count` in its last bytes, so that the entry is cut off by the end. -/
def tableAtEnd (a : Nat) : Rom := patched a [1, 0, 0, 0, 0x10, 0, 0, 8, 1]

theorem test_witness_LoadChecksInOrder_table :
    (smallRom []).read? 0x080000FD 4 = none ∧ (smallRom []).read? 0x08000080 4 = some 1 ∧ 1 ≤ 1 ∧
      (smallRom []).read? 0x080000FC 4 = some 0 ∧ 0 ≤ 0 := by decide

/-- The entry's pointer, its priority and its reverb byte in turn beyond the end of the ROM. -/
theorem test_witness_LoadChecksInOrder_entry :
    ((tableAtEnd 0x080000FC).read? 0x080000FC 4 = some 1 ∧ 0 < 1 ∧
      (tableAtEnd 0x080000FC).read? (0x080000FC + 4 + 8 * 0) 4 = none) ∧
    ((tableAtEnd 0x080000F8).read? 0x080000F8 4 = some 1 ∧
      (tableAtEnd 0x080000F8).read? (0x080000F8 + 4 + 8 * 0) 4 = some 0x08000010 ∧
      (tableAtEnd 0x080000F8).read? (0x080000F8 + 4 + 8 * 0 + 4) 1 = none) ∧
    ((tableAtEnd 0x080000F7).read? 0x080000F7 4 = some 1 ∧
      (tableAtEnd 0x080000F7).read? (0x080000F7 + 4 + 8 * 0) 4 = some 0x08000010 ∧
      (tableAtEnd 0x080000F7).read? (0x080000F7 + 4 + 8 * 0 + 4) 1 = some 1 ∧
      (tableAtEnd 0x080000F7).read? (0x080000F7 + 4 + 8 * 0 + 5) 1 = none) := by decide

/-- A null header, and a header whose last byte is beyond the end. -/
theorem test_witness_LoadChecksInOrder_header :
    EntryReads (patched 0x08000084 [0, 0, 0, 0]) 0x08000080 0 0 7 0 ∧
      (EntryReads (patched 0x08000084 [0xF9, 0, 0, 8]) 0x08000080 0 0x080000F9 7 0 ∧
        ∃ n, n < 8 ∧ (patched 0x08000084 [0xF9, 0, 0, 8]).mapped (0x080000F9 + n) = false) :=
  ⟨⟨⟨1, by decide, by decide⟩, by decide, by decide, by decide⟩,
    ⟨⟨1, by decide, by decide⟩, by decide, by decide, by decide⟩, 7, by decide, by decide⟩

/-- The header of the small song with its first byte, the track count, as given. -/
theorem smallHeader (n : Byte) (h : n ∈ [0, 1, 16, 17]) :
    EntryReads (patched 0x080000A0 [n]) 0x08000080 0 0x080000A0 7 0 ∧
      HeaderReads (patched 0x080000A0 [n]) 0x080000A0 n.toNat 0x3C 0x08000040 := by
  simp only [List.mem_cons, List.not_mem_nil, or_false] at h
  rcases h with rfl | rfl | rfl | rfl <;>
    exact ⟨⟨⟨1, by decide, by decide⟩, by decide, by decide, by decide⟩, by decide, by decide, by decide, by decide,
      by decide⟩

/-- Track counts 0 and 17 are refused, 1 and 16 pass. -/
theorem test_witness_LoadChecksInOrder_count :
    ∀ n ∈ ([0, 1, 16, 17] : List Byte),
      EntryReads (patched 0x080000A0 [n]) 0x08000080 0 0x080000A0 7 0 ∧
        HeaderReads (patched 0x080000A0 [n]) 0x080000A0 n.toNat 0x3C 0x08000040 := smallHeader

/-- With 16 tracks the second pointer, at 0x080000AC, is 0: it is bad, and the first is good. -/
theorem test_witness_LoadChecksInOrder_badPointer :
    PointerBad (patched 0x080000A0 [16]) 0x080000A0 1 ∧
      ∀ j, j < 1 → ∃ p, PointerGood (patched 0x080000A0 [16]) 0x080000A0 j p := by
  constructor
  · intro p hp
    have h : (patched 0x080000A0 [16]).read? (0x080000A0 + 8 + 4 * 1) 4 = some 0 := by decide
    exact hp.2.1 (Option.some.inj (hp.1.symm.trans h))
  · intro j hj
    obtain rfl : j = 0 := by omega
    exact ⟨0x08000000, by decide, by decide, by decide⟩

/-- One track, its pointer good; the instrument table mapped, and 0x0A000040, which is not. -/
theorem test_witness_LoadChecksInOrder_goodPointers :
    (∀ i, i < 1 → PointerGood (smallRom []) 0x080000A0 i ((fun _ => 0x08000000) i)) ∧
      (smallRom []).mapped 0x08000040 = true ∧
      (HeaderReads (patched 0x080000A7 [0x0A]) 0x080000A0 1 0x3C 0x0A000040 ∧
        (patched 0x080000A7 [0x0A]).mapped 0x0A000040 = false) := by
  refine ⟨fun i hi => ?_, by decide, ⟨by decide, by decide, by decide, by decide, by decide⟩, by decide⟩
  obtain rfl : i = 0 := by omega
  exact ⟨by decide, by decide, by decide⟩

theorem test_witness_StartBeginsTheSession :
    Config.wellFormed (idleWith []).sampleRate (idleWith []).rom.size = true ∧
      loadSong (idleWith []).rom (idleWith []).songTable.toNat (idleWith []).songIndex.toNat =
        .ok ⟨1, 0x3C, 7, 0, 0x08000040, [0x08000000]⟩ := ⟨by decide, rfl⟩

theorem test_witness_LoadErrorIsReported :
    Config.wellFormed 256 0x100 = true ∧ loadSong (smallRom []) 0x08000080 1 = .error ⟨.configuration, 0x08000080⟩ ∧
      loadSong (smallRom []) 0xFFFFFFFF 0 = .error ⟨.outOfRange, 0xFFFFFFFF⟩ := ⟨by decide, rfl, rfl⟩

/-- A range's end, and both controls of the last clause, with a START to come. -/
theorem test_witness_PowerOnResetValues :
    Config.wellFormed (2 ^ 20) 1 = true ∧
      ((idleWith [.writeReg 0 .word 1]).playing = false ∧ (idleWith [.writeReg 0 .word 1]).control = .idle ∧
        ∃ t, step (idleWith [.writeReg 0 .word 1]) = .next t) ∧
      ∃ t, step { State.powerOn 256 (smallRom []) with control := .boundary } = .next t :=
  ⟨by decide, ⟨rfl, rfl, _, rfl⟩, _, rfl⟩

theorem test_witness_HostOperationsInOrder :
    (∃ t, step (idleWith [.renderFrame]) = .next t) ∧ ∃ t, step (idleWith [.writeReg 0 .word 1]) = .next t :=
  ⟨⟨_, rfl⟩, ⟨_, rfl⟩⟩

/-- THR is 15360 at SAMPLE_RATE 256: the four cases of the frame step, at the ends of the accumulator's ranges. -/
theorem test_witness_FrameStepCases :
    (Config.wellFormed 256 0x100 = true ∧ (session .boundary 0 fullPool).control = .boundary ∧
      (State.powerOn 256 (smallRom [])).playing = false) ∧
    ((session .boundary 15360 fullPool).playing = true ∧
      60 * (session .boundary 15360 fullPool).sampleRate ≤ (session .boundary 15360 fullPool).tickAcc.toNat ∧
      ({ session .boundary 15360 fullPool with stopReq := true } : State).stopReq = true ∧
      (session .boundary 15360 fullPool).stopReq = false) ∧
    ((session .boundary 15359 fullPool).tickAcc.toNat < 60 * (session .boundary 15359 fullPool).sampleRate ∧
      (∀ j : ChanIdx, (session .boundary 15359 fullPool).ch[j].state ≠ .idle →
        (session .boundary 15359 fullPool).ch[j].sample (session .boundary 15359 fullPool).rom =
          some ((fun _ => 127 : ChanIdx → Int) j)) ∧
      (session .boundary 15359 fullPool).song.reverb.getLsbD 7 = false ∧
      ({ session .boundary 15359 fullPool with song := ⟨1, 0, 0xC0, 0x08000040⟩ } : State).song.reverb.getLsbD 7 = true) := by
  decide

theorem session_track (i : TrackIdx) :
    (at0 [0xB1]).trk[i] = if i = 0 then Track.loaded 0x08000000 else Track.zero := by revert i; decide

/-- A track that an error has halted at 0x08000000. -/
def haltedTrack : Track := { Track.loaded 0x08000000 with active := false, halted := true }

theorem session_track_inv (t : Track) 
    (h : t = Track.loaded 0x08000000 ∨ t = Track.zero ∨ t = haltedTrack) : t.Inv (smallRom [0xB1]) := by
  have lfo : Lfo.zero.InRange := by unfold Lfo.InRange; decide
  rcases h with rfl | rfl | rfl
  · exact ⟨by decide, by decide, lfo, lfo, by decide⟩
  · exact ⟨by decide, by decide, lfo, lfo, by decide⟩
  · exact ⟨by decide, by decide, lfo, lfo, by decide⟩

theorem session_chan (ch : Vector Channel 12) (h : ch = fullPool ∨ ch = chanTable fun _ => Channel.zero)
    (j : ChanIdx) : ch[j] = chan .sustain 0 5 ∨ ch[j] = Channel.zero := by
  rcases h with rfl | rfl
  · left; revert j; decide
  · right; revert j; decide

theorem session_rom : (smallRom [0xB1]).wf := by decide

theorem session_unloaded :
    ∀ i : TrackIdx, (at0 [0xB1]).song.numTracks.toNat ≤ i.val → (at0 [0xB1]).trk[i].active = false := by decide

theorem session_halted : false = true ↔ ∃ i : TrackIdx, (at0 [0xB1]).trk[i].halted = true := by decide

theorem session_line :
    (at0 [0xB1]).rv.dl.length = Config.reverbDelayFrames 256 ∧ (at0 [0xB1]).rv.dr.length = Config.reverbDelayFrames 256 ∧
      (at0 [0xB1]).rv.idx < Config.reverbDelayFrames 256 ∧ (at0 [0xB1]).err.code.toNat ≤ 6 := by decide

/-- The invariant holds in a session of the small machine, with no channel or all twelve live, in any control. -/
theorem session_inv (c : Control) (acc : Word) (ch : Vector Channel 12) (hacc : acc.toNat < 15360 + 48 * 255)
    (hch : ch = fullPool ∨ ch = chanTable fun _ => Channel.zero) : (session c acc ch).Inv where
  config := (by decide : Config.wellFormed 256 0x100 = true)
  rom := session_rom
  tracks := fun i => session_track_inv _ (by
    show (at0 [0xB1]).trk[i] = _ ∨ (at0 [0xB1]).trk[i] = _ ∨ (at0 [0xB1]).trk[i] = _
    rw [session_track]
    split <;> simp)
  channels := fun j => by
    show ch[j].Inv _
    rcases session_chan ch hch j with h | h <;> rw [h] <;> exact ⟨fun _ => trivial, fun _ => trivial, by decide⟩
  session :=
    ⟨hacc, (by decide : (1 : Byte).toNat ≤ 16), fun _ => (by decide : 1 ≤ (1 : Byte).toNat), fun _ => ⟨rfl, rfl⟩,
      (by decide : ¬(false = true ∧ false = true)), (fun h => nomatch h), fun _ => rfl, (fun h => nomatch h),
      session_unloaded, session_halted, session_line.2.2.2, session_line.1, session_line.2.1, session_line.2.2.1⟩
  control := ⟨fun _ => (by decide : 0 < (1 : Byte).toNat), fun _ => rfl, fun _ => rfl⟩

/-- The session after its track was halted, at the end of a tick. -/
def haltedSession : State := { withTrack (session .post 0 fullPool) haltedTrack with trackErr := true }

theorem haltedSession_track (i : TrackIdx) : haltedSession.trk[i] = if i = 0 then haltedTrack else Track.zero := by
  revert i; decide

/-- A RenderFrame at its loop test with no session. -/
def quiet : State := { State.powerOn 256 (smallRom [0xB1]) with control := .boundary }

theorem quiet_inv : quiet.Inv where
  config := (by decide : Config.wellFormed 256 0x100 = true)
  rom := session_rom
  tracks := fun i => session_track_inv _ (by
    have h : quiet.trk[i] = Track.zero := by revert i; decide
    rw [h]
    simp)
  channels := fun j => by
    have h : quiet.ch[j] = Channel.zero := by revert j; decide
    rw [h]
    exact ⟨fun _ => trivial, (fun h => nomatch h), by decide⟩
  session :=
    ⟨by decide, by decide, (fun h => nomatch h), (fun h => nomatch h), by decide, (fun h => nomatch h),
      (fun h => nomatch h), fun _ => by decide, by decide, by decide, by decide, by decide, by decide, by decide⟩
  control := ⟨by decide, by decide, fun _ => rfl⟩

theorem test_witness_OnlyStartRevives :
    haltedSession.Inv ∧ haltedSession.trk[(0 : TrackIdx)].halted = true ∧ (∃ t, step haltedSession = .next t) ∧
      quiet.Inv ∧ quiet.playing = false ∧ ∃ t, step quiet = .next t := by
  have h := session_inv .post 0 fullPool (by decide) (.inl rfl)
  refine ⟨⟨h.config, h.rom, fun i => session_track_inv _ ?_, h.channels,
    ⟨h.session.tickAcc, h.session.maxTracks, h.session.someTrack, h.session.playing, h.session.outcome,
      h.session.loadErr, h.session.stopReq, h.session.silent, by decide, by decide, h.session.errCode,
      h.session.lineL, h.session.lineR, h.session.lineIdx⟩, h.control.loaded, h.control.playing, h.control.noStop⟩,
    by decide, ⟨_, rfl⟩, quiet_inv, rfl, _, rfl⟩
  rw [haltedSession_track]
  split <;> simp

/-- A frame with every channel live, and one with none and the reverb off. -/
theorem test_witness_PlayingAlwaysGivesAFrame :
    ((session .boundary 15359 fullPool).Inv ∧ (session .boundary 15359 fullPool).control = .boundary ∧
      (session .boundary 15359 fullPool).playing = true ∧ (session .boundary 15359 fullPool).tickDue = false) ∧
    ((session .boundary 0 (chanTable fun _ => Channel.zero)).Inv ∧
      (session .boundary 0 (chanTable fun _ => Channel.zero)).tickDue = false ∧
      (∀ j : ChanIdx, (session .boundary 0 (chanTable fun _ => Channel.zero)).ch[j].live = false) ∧
      (session .boundary 0 (chanTable fun _ => Channel.zero)).song.reverbOn = false) ∧
    (quiet.Inv ∧ quiet.control = .boundary ∧ quiet.playing = false) ∧
    ((session .boundary 0 (chanTable fun _ => Channel.zero)).control ≠ .idle ∧
      ∃ t, step (session .boundary 0 (chanTable fun _ => Channel.zero)) = .next t ∧ t.control = .idle) :=
  ⟨⟨session_inv _ _ _ (by decide) (.inl rfl), rfl, rfl, by decide⟩,
    ⟨session_inv _ _ _ (by decide) (.inr rfl), by decide, by decide, by decide⟩,
    ⟨quiet_inv, rfl, rfl⟩, by decide, _, rfl, rfl⟩

theorem test_witness_AtMostOneTickPerFrame :
    ((session .boundary 27599 fullPool).Inv ∧ (session .boundary 27599 fullPool).control = .boundary ∧
      ∃ t, step (session .boundary 27599 fullPool) = .next t ∧ t.control = .enter) ∧
    ∃ t, step (session .post 0 fullPool) = .next t :=
  ⟨⟨session_inv _ _ _ (by decide) (.inl rfl), rfl, _, rfl, rfl⟩, _, rfl⟩

/-- Phase 1 at a track: inactive, due after its count (`due` 0 and 1), waiting (`due` 2 and 255). -/
theorem test_witness_DueCounterDrivesTheTrack :
    (Config.wellFormed 256 0x100 = true ∧ (session .enter 0 fullPool).control = .enter ∧
      (session .enter 0 fullPool).playing = true ∧
      (session .enter 0 fullPool).cur.val < (session .enter 0 fullPool).song.numTracks.toNat) ∧
    (withTrack (session .enter 0 fullPool) Track.zero).trk[(0 : TrackIdx)].active = false ∧
    (∀ d ∈ ([0, 1] : List Byte),
      (withTrack (session .enter 0 fullPool) { Track.loaded 0x08000000 with due := d }).trk[(0 : TrackIdx)].active = true ∧
      (withTrack (session .enter 0 fullPool) { Track.loaded 0x08000000 with due := d }).trk[(0 : TrackIdx)].due.toNat ≤ 1) ∧
    (∀ d ∈ ([2, 255] : List Byte),
      2 ≤ (withTrack (session .enter 0 fullPool) { Track.loaded 0x08000000 with due := d }).trk[(0 : TrackIdx)].due.toNat) ∧
    (session .pull 0 fullPool).control = .pull ∧ (session .pull 0 fullPool).playing = true ∧
    (withTrack (session .pull 0 fullPool) Track.zero).trk[(0 : TrackIdx)].active = false ∧
    1 ≤ (withTrack (session .pull 0 fullPool) { Track.loaded 0x08000000 with due := 1 }).trk[(0 : TrackIdx)].due.toNat ∧
    ({ session .pull 0 fullPool with playing := false } : State).playing = false := by
  decide

/-- A song with an active track, and one whose only track is inactive; a channel that lives on after its tick, and one
whose release ends in it. -/
theorem test_witness_TickPhasesTwoToSix :
    (session .post 0 fullPool).control = .post ∧
      (∃ i : TrackIdx, i.val < (session .post 0 fullPool).song.numTracks.toNat ∧
        (session .post 0 fullPool).trk[i].active = true) ∧
      (session .post 0 fullPool).ch[(0 : ChanIdx)].tick.state ≠ .idle ∧
      (withChan (session .post 0 fullPool) (chan .release 0 0)).ch[(0 : ChanIdx)].tick.state = .idle ∧
      ∀ i : TrackIdx, i.val < (withTrack (session .post 0 fullPool) Track.zero).song.numTracks.toNat →
        (withTrack (session .post 0 fullPool) Track.zero).trk[i].active = false := by decide

theorem test_witness_SelfJumpHangs :
    (at0 [0xB2, 0, 0, 0, 8]).AtPull ∧ (at0 [0xB2, 0, 0, 0, 8]).rom.holds (at0 [0xB2, 0, 0, 0, 8]).curAddr
      (encode (.jump (at0 [0xB2, 0, 0, 0, 8]).trk[(at0 [0xB2, 0, 0, 0, 8]).cur].cursor)) := by
  unfold State.AtPull Rom.holds
  decide

/-- Three frames asked for at tempo 0, a STOP after them. -/
theorem test_witness_TempoZeroFreezesTheSong :
    ({ session .idle 0 fullPool with
        tempo := 0, pending := List.replicate 3 .renderFrame ++ [.writeReg 0 .word 2] } : State).Inv ∧
      (session .idle 0 fullPool).control = .idle ∧ (session .idle 0 fullPool).playing = true ∧
      (session .idle 0 fullPool).tickDue = false :=
  have h := session_inv .idle 0 fullPool (by decide) (.inl rfl)
  ⟨⟨h.config, h.rom, h.tracks, h.channels,
    ⟨h.session.tickAcc, h.session.maxTracks, h.session.someTrack, h.session.playing, h.session.outcome,
      h.session.loadErr, h.session.stopReq, h.session.silent, h.session.unloaded, h.session.trackErr,
      h.session.errCode, h.session.lineL, h.session.lineR, h.session.lineIdx⟩,
    ⟨h.control.loaded, h.control.playing, h.control.noStop⟩⟩, rfl, rfl, by decide⟩

theorem test_witness_PowerOnHasTheInvariant :
    Config.wellFormed 256 (smallRom []).size = true ∧ (smallRom []).wf := by decide

theorem test_witness_EveryStepKeepsTheInvariant :
    (session .boundary 15360 fullPool).Inv ∧ ∃ t, step (session .boundary 15360 fullPool) = .next t :=
  ⟨session_inv _ _ _ (by decide) (.inl rfl), _, rfl⟩

theorem test_witness_InvariantStatesRun : (session .enter 0 fullPool).Inv := session_inv _ _ _ (by decide) (.inl rfl)

theorem test_witness_RunsFromPowerOnAreSafe :
    Config.wellFormed 256 (smallRom []).size = true ∧ (smallRom []).wf ∧
      ∀ op ∈ ([.writeReg 8 .word 0x08000080, .writeReg 0 .word 1, .renderFrame, .readReg 0x3C .word] : List HostOp),
        op.wellFormed = true := by decide

end Sys2Proof.Tests
end

