-- ==== Sys2Proof/Proofs/MemRead.lean ====
section
/-! PROOF. `MemRead` (spec/20_memory.md, R41): the model reads byte by byte from the lowest address, the rule sums the
bytes at their weights. Both obey one recursion, in which the byte at the lowest address splits off. -/

namespace Sys2Proof.Machine

/-- The byte at the lowest address is the least significant one of what a read answers (R42). -/
theorem Rom.read?_succ {r : Rom} {a n v : Nat} {b : Byte} (hb : r.byte? a = some b)
    (hv : r.read? (a + 1) n = some v) : r.read? a (n + 1) = some (b.toNat + 256 * v) := by
  obtain ⟨bs, hbs, rfl⟩ := Option.map_eq_some_iff.mp hv
  simp [Rom.read?, Rom.bytes?, hb, hbs, leValue]

/-- The summand R41 gives the byte at `a + k`. -/
def Rom.weighted (r : Rom) (a k : Nat) : Nat := ((r.byte? (a + k)).getD 0).toNat * 2 ^ (8 * k)

@[simp] theorem Rom.weighted_zero (r : Rom) (a : Nat) : r.weighted a 0 = ((r.byte? a).getD 0).toNat := by
  simp [Rom.weighted]

/-- A byte weighs 256 times as much in a sum that starts one address lower. -/
theorem Rom.weighted_succ (r : Rom) (a k : Nat) : r.weighted a (k + 1) = 256 * r.weighted (a + 1) k := by
  rw [Rom.weighted, Rom.weighted, Nat.add_right_comm, Nat.add_assoc, Nat.mul_succ, Nat.pow_add]
  ring

/-- The byte at the lowest address splits off R41's sum. -/
theorem Rom.sum_weighted_succ (r : Rom) (a n : Nat) :
    ((List.range (n + 1)).map (r.weighted a)).sum =
      ((r.byte? a).getD 0).toNat + 256 * ((List.range n).map (r.weighted (a + 1))).sum := by
  calc ((List.range (n + 1)).map (r.weighted a)).sum
    _ = r.weighted a 0 + ((List.range n).map fun k => r.weighted a (k + 1)).sum := by
        rw [List.range_succ_eq_map, List.map_cons, List.sum_cons, List.map_map]; rfl
    _ = ((r.byte? a).getD 0).toNat + 256 * ((List.range n).map (r.weighted (a + 1))).sum := by
        simp only [Rom.weighted_zero, Rom.weighted_succ, List.sum_map_mul_left]

/-- A read whose bytes are all mapped answers R41's sum. -/
theorem Rom.read?_of_mapped {r : Rom} {a n : Nat} (h : ∀ k, k < n → r.mapped (a + k) = true) :
    r.read? a n = some ((List.range n).map (r.weighted a)).sum := by
  induction n generalizing a with
  | zero => rfl
  | succ n ih =>
    have hb : r.byte? a = some (lookupCell r.cells a) := Rom.byte?_of_mapped (h 0 n.succ_pos)
    have hrest := ih (a := a + 1) fun k hk =>
      (Nat.add_right_comm a 1 k).symm ▸ h (k + 1) (Nat.succ_lt_succ hk)
    rw [Rom.read?_succ hb hrest, Rom.sum_weighted_succ, hb, Option.getD_some]

/-- A read with an unmapped byte fails. -/
theorem Rom.read?_of_unmapped {r : Rom} {a n k : Nat} (hk : k < n) (hu : r.mapped (a + k) = false) :
    r.read? a n = none := by
  rw [← Option.not_isSome_iff_eq_none, Rom.read?_isSome]
  intro hall
  simp [hall k hk] at hu

/-- Settles O6: a read and R41's sum follow the same recursion on the width; a read answers only where every byte is
mapped. -/
theorem memReadIsLittleEndian : Obligations.MemReadIsLittleEndian := by
  intro r a n
  exact ⟨Rom.read?_of_mapped, fun ⟨_, hk, hu⟩ => Rom.read?_of_unmapped hk hu⟩

end Sys2Proof.Machine
end

