-- ==== Sys2Proof/Proofs/Encoding.lean ====
section
/-! PROOF. The opcode byte (spec/30_encoding.md, R62 to R66): each row of the opcode map fits an interval of bytes, and
what is said of an opcode byte is read off the fifteen intervals. -/

namespace Sys2Proof

open Sys2Proof.Machine

/-! ### The opcode map, row by row (R62) -/

/-- A row with the full mask fits its pattern alone. -/
theorem OpcodeRow.fits_fullMask (p b : Byte) (op : Opcode) : (⟨0xFF, p, op⟩ : OpcodeRow).fits b = true ↔ b = p := by
  have hmask : b &&& 0xFF = b := BitVec.and_allOnes
  rw [OpcodeRow.fits, hmask, beq_iff_eq]

/-- A row of the opcode map fits the bytes of one interval, which starts at its pattern and has the length its mask
leaves open. -/
theorem OpcodeRow.fits_iff {r : OpcodeRow} (hr : r ∈ opcodeMap) (b : Byte) :
    r.fits b = true ↔ r.pattern.toNat ≤ b.toNat ∧ b.toNat + r.mask.toNat ≤ r.pattern.toNat + 0xFF := by
  have hcases : r.mask = 0xFF ∨ r = ⟨0xF0, 0xD0, .note⟩ ∨ r = ⟨0xE0, 0xE0, .note⟩ := by
    revert r; decide
  rcases hcases with hmask | rfl | rfl
  · obtain ⟨m, p, op⟩ := r
    obtain rfl : m = 0xFF := hmask
    rw [OpcodeRow.fits_fullMask, ← BitVec.toNat_inj]
    show b.toNat = p.toNat ↔ p.toNat ≤ b.toNat ∧ b.toNat + 0xFF ≤ p.toNat + 0xFF
    omega
  · revert b; decide
  · revert b; decide

/-- The NOTE rows are those that fit bytes from 0xD0 up. -/
theorem OpcodeRow.op_eq_note_iff {r : OpcodeRow} (hr : r ∈ opcodeMap) {b : Byte} (hb : r.fits b = true) :
    r.op = .note ↔ 0xD0 ≤ b.toNat := by
  obtain ⟨hlo, hhi⟩ := (OpcodeRow.fits_iff hr b).mp hb
  have hrow : (r.op = .note ∧ 0xD0 ≤ r.pattern.toNat) ∨
      (r.op ≠ .note ∧ r.mask.toNat = 0xFF ∧ r.pattern.toNat < 0xD0) := by
    clear hb hlo hhi
    revert r; decide
  rcases hrow with ⟨hop, hpat⟩ | ⟨hop, hmask, hpat⟩
  · exact iff_of_true hop (by omega)
  · exact iff_of_false hop (by omega)

/-! ### The instruction an opcode byte selects (R62 to R64) -/

/-- An opcode byte selects an instruction by a row that fits it. -/
theorem opcodeOf_eq_some {b : Byte} {op : Opcode} (h : opcodeOf b = some op) :
    ∃ r ∈ opcodeMap, r.fits b = true ∧ r.op = op := by
  obtain ⟨r, hfind, hop⟩ := Option.map_eq_some_iff.mp h
  exact ⟨r, List.mem_of_find?_eq_some hfind, List.find?_some (p := fun r : OpcodeRow => r.fits b) hfind, hop⟩

/-- An opcode byte selects nothing when no row fits it. -/
theorem opcodeOf_eq_none_iff (b : Byte) : opcodeOf b = none ↔ ∀ r ∈ opcodeMap, ¬r.fits b = true := by
  rw [opcodeOf, Option.map_eq_none_iff, List.find?_eq_none]

/-- The ranges of R64 are the gaps between the intervals of the opcode map. -/
theorem opcodeOf_eq_none_iff_isUnsupported (b : Byte) : opcodeOf b = none ↔ IsUnsupported b := by
  have hgaps : (∀ r ∈ opcodeMap, ¬r.fits b = true) ↔
      ∀ r ∈ opcodeMap, ¬(r.pattern.toNat ≤ b.toNat ∧ b.toNat + r.mask.toNat ≤ r.pattern.toNat + 0xFF) :=
    forall₂_congr fun _ hr => not_congr (OpcodeRow.fits_iff hr b)
  have := b.isLt
  rw [opcodeOf_eq_none_iff, hgaps, IsUnsupported]
  simp only [opcodeMap, List.forall_mem_cons, List.not_mem_nil, BitVec.reduceToNat, false_implies, implies_true,
    and_true]
  omega

/-- The opcode bytes that select NOTE are those from 0xD0 up (R63). -/
theorem opcodeOf_eq_note_iff (b : Byte) : opcodeOf b = some .note ↔ 0xD0 ≤ b.toNat := by
  constructor
  · intro h
    obtain ⟨r, hr, hfits, hop⟩ := opcodeOf_eq_some h
    exact (OpcodeRow.op_eq_note_iff hr hfits).mp hop
  · intro hb
    cases h : opcodeOf b with
    | none =>
      have hunsup := (opcodeOf_eq_none_iff_isUnsupported b).mp h
      unfold IsUnsupported at hunsup
      omega
    | some op =>
      obtain ⟨r, hr, hfits, rfl⟩ := opcodeOf_eq_some h
      rw [(OpcodeRow.op_eq_note_iff hr hfits).mpr hb]

/-! ### Decoding by the opcode byte -/

/-- Decoding after a supported opcode byte reads the operands. -/
theorem decode_of_opcodeOf {b0 : Byte} {op : Opcode} (h : opcodeOf b0 = some op) (tail : List Byte) :
    decode (b0 :: tail) = decodeOperands op tail := by simp only [decode, h]

/-- Decoding after an unsupported opcode byte fails before any operand byte is read (R64). -/
theorem decode_of_opcodeOf_none {b0 : Byte} (h : opcodeOf b0 = none) (tail : List Byte) :
    decode (b0 :: tail) = .error (.unsupportedOpcode b0) := by simp only [decode, h]

/-- Reading operands fails only for want of a byte: no operand value is illegal (R65). -/
theorem decodeOperands_error {op : Opcode} {bs : List Byte} {e : DecodeError} (h : decodeOperands op bs = .error e) :
    e = .missingByte := by
  have hF1 {mk} (h : decodeF1 mk bs = .error e) : e = .missingByte := by
    unfold decodeF1 at h; split at h <;> cases h; rfl
  have hF3 {mk} (h : decodeF3 mk bs = .error e) : e = .missingByte := by
    unfold decodeF3 at h; split at h <;> cases h; rfl
  have hFA {mk} (h : decodeFA mk bs = .error e) : e = .missingByte := by
    unfold decodeFA at h; split at h <;> cases h; rfl
  cases op with
  | eot | ret => cases h
  | rest | tie | prog | tempo | vol | pan | bend => exact hF1 h
  | vib | trem | note => exact hF3 h
  | jump | call => exact hFA h

/-- A decode rejects the opcode byte as unsupported exactly when it selects nothing. -/
theorem decode_unsupported_iff (b0 : Byte) (tail : List Byte) :
    decode (b0 :: tail) = .error (.unsupportedOpcode b0) ↔ opcodeOf b0 = none := by
  refine ⟨fun h => ?_, fun h => decode_of_opcodeOf_none h tail⟩
  cases hop : opcodeOf b0 with
  | none => rfl
  | some op =>
    rw [decode_of_opcodeOf hop] at h
    cases decodeOperands_error h

/-- Every format has the opcode byte. -/
theorem Format.byteLength_pos (f : Format) : 0 < f.byteLength := by cases f <;> decide

/-- A decode that succeeds consumes as many bytes as the instruction is long (R66). -/
theorem decode_consumes {bs rest : List Byte} {i : Instr} (h : decode bs = .ok (i, rest)) :
    bs.drop i.byteLength = rest ∧ bs.length = i.byteLength + rest.length := by
  cases bs with
  | nil => cases h
  | cons b0 tail =>
    obtain ⟨-, hdrop, hlen⟩ := decodeOperands_ok (decode_ok h).2
    have hpos : 0 < i.byteLength := Format.byteLength_pos _
    rw [← Instr.byteLength] at hdrop hlen
    exact ⟨by rw [List.drop_cons hpos, hdrop], by rw [List.length_cons]; omega⟩

/-- A 7-bit operand is the low seven bits of its byte (R61). -/
theorem operand7_eq_setWidth (b : Byte) : operand7 b = b.setWidth 7 := rfl

/-! ### Executing an unsupported opcode byte (R64) -/

namespace Machine

/-- The fetch of an unsupported opcode byte fails whatever follows it, mapped or not. -/
theorem State.fetch_of_unsupported {s : State} {b0 : Byte} (hb : s.rom.byte? s.curAddr = some b0)
    (hu : IsUnsupported b0) : s.fetch = .error .unsupportedOpcode := by
  obtain ⟨tail, htail⟩ : ∃ tail, fetchBytes s.rom s.curAddr maxInstrBytes = b0 :: tail := by
    simp [maxInstrBytes, fetchBytes, hb]
  rw [State.fetch, fetchAt, htail, decode_of_opcodeOf_none ((opcodeOf_eq_none_iff_isUnsupported b0).mpr hu)]
  rfl

/-- Taking an error leaves every track as it was, but for the halt of the executing one when the error is not fatal
(R140 to R142). -/
theorem State.takeError_trk_get (s : State) (e : ErrKind) (j : TrackIdx) :
    (s.takeError e).trk[j] = s.trk[j] ∨
      (j = s.cur ∧ s.errorIsFatal e = false ∧
        (s.takeError e).trk[j] = { s.trk[j] with active := false, halted := true }) := by
  rcases takeError_cases s e with ⟨-, h⟩ | ⟨hfatal, h⟩
  · exact .inl (by rw [h]; rfl)
  · have hget : (s.takeError e).trk[j] =
        if j = s.cur then { s.curTrack with active := false, halted := true } else s.trk[j] := by
      rw [h]; exact State.setCur_trk_get (s.recordError e) _ j
    by_cases hj : j = s.cur
    · subst hj
      exact .inr ⟨rfl, hfatal, by rw [hget, if_pos rfl]; rfl⟩
    · exact .inl (by rw [hget, if_neg hj])

end Machine

/-! ### The statements -/

/-- Settles O2: two decodes from one opcode byte have one opcode, and each consumes the length of its format. -/
theorem lengthFixedByOpcodeByte : Obligations.LengthFixedByOpcodeByte := by
  refine ⟨fun b0 tail₁ tail₂ i₁ i₂ rest₁ rest₂ h₁ h₂ => ?_, fun bs i rest h => decode_consumes h, fun i => ?_⟩
  · have hop : i₁.opcode = i₂.opcode :=
      Option.some.inj ((decode_ok h₁).1.symm.trans (decode_ok h₂).1)
    rw [Instr.byteLength, Instr.byteLength, hop]
  · cases i <;> rfl

/-- Settles O3: the gaps of the opcode map are R64's ranges, and the fetch looks no further than the opcode byte. -/
theorem unsupportedOpcodesAreRejected : Obligations.UnsupportedOpcodesAreRejected := by
  refine ⟨fun b0 rest => ?_, rfl, fun s b0 hpull hb hu => ⟨?_, fun j => ?_⟩⟩
  · rw [decode_unsupported_iff, opcodeOf_eq_none_iff_isUnsupported]
  · rw [step_atPull hpull, State.fetch_of_unsupported hb hu]
  · exact s.takeError_trk_get .unsupportedOpcode j

/-- Settles O4: the bytes from 0xD0 up are those that select NOTE. -/
theorem allNoteOpcodesAreOneNote : Obligations.AllNoteOpcodesAreOneNote := by
  refine ⟨fun b0 b1 b2 b3 rest hb => ?_, fun b0 tail key vel gate rest h => ?_⟩
  · rw [decode_of_opcodeOf ((opcodeOf_eq_note_iff b0).mpr hb), ← operand7_eq_setWidth, ← operand7_eq_setWidth]
    rfl
  · exact (opcodeOf_eq_note_iff b0).mp (decode_ok h).1

end Sys2Proof
end

