-- ==== Sys2Proof/Proofs/Sequencer.lean ====
section
/-! PROOF. The control register and the load (spec/40_sequencer.md, R71 and R73): the load is a sequence of reads and
checks, cut after the entry and after the header; each part goes on past a check that passes and ends at one that
fails. -/

namespace Sys2Proof.Machine

/-! ### A write to CTRL (R71) -/

theorem State.writeReg_ctrl (s : State) (v : Word) : s.writeReg 0x00 v = s.writeCtrl v := by unfold State.writeReg; rfl

/-! ### One read or check of the load, and what follows it -/

section Steps

variable {α : Type} {r : Rom} {a n : Nat} {b : Bool} {x : LoadError}

theorem loadRead_bind_some {v : Nat} {f : Nat → Except LoadError α} (h : r.read? a n = some v) :
    (loadRead r a n x >>= f) = f v := by rw [loadRead_some x h]; rfl

theorem loadRead_bind_none {f : Nat → Except LoadError α} (h : r.read? a n = none) :
    (loadRead r a n x >>= f) = .error x := by rw [loadRead_none x h]; rfl

theorem loadCheck_bind_true {f : Unit → Except LoadError α} (h : b = true) : (loadCheck b x >>= f) = f () := by
  rw [loadCheck_true x h]; rfl

theorem loadCheck_bind_false {f : Unit → Except LoadError α} (h : b = false) : (loadCheck b x >>= f) = .error x := by
  rw [loadCheck_false x h]; rfl

end Steps

/-! ### The track pointers -/

/-- The check of a pointer that was read says that it is good. -/
theorem pointerGood_iff_check {r : Rom} {h i p : Nat} (hp : r.read? (h + 8 + 4 * i) 4 = some p) :
    PointerGood r h i p ↔ (p != 0 && r.mapped p) = true := by simp [PointerGood, hp]

theorem loadPointers_succ_of_good {r : Rom} {h i p : Nat} (n : Nat) (hp : PointerGood r h i p) :
    loadPointers r h i (n + 1) = (loadPointers r h (i + 1) n >>= fun rest => .ok (BitVec.ofNat 32 p :: rest)) := by
  rw [loadPointers, loadRead_bind_some hp.1, loadCheck_bind_true ((pointerGood_iff_check hp.1).mp hp)]

theorem loadPointers_succ_of_bad {r : Rom} {h i : Nat} (n : Nat) (hbad : PointerBad r h i) :
    loadPointers r h i (n + 1) = .error ⟨.configuration, h + 8 + 4 * i⟩ := by
  rw [loadPointers]
  cases hp : r.read? (h + 8 + 4 * i) 4 with
  | none => exact loadRead_bind_none hp
  | some p =>
    have hcheck : ¬(p != 0 && r.mapped p) = true := fun hc => hbad p ((pointerGood_iff_check hp).mpr hc)
    rw [loadRead_bind_some hp, loadCheck_bind_false (Bool.eq_false_iff.mpr hcheck)]

/-- Good pointers are all loaded. -/
theorem loadPointers_of_good {r : Rom} {h i n : Nat} {p : Nat → Nat}
    (hgood : ∀ j, i ≤ j → j < i + n → PointerGood r h j (p j)) :
    loadPointers r h i n = .ok ((List.range' i n).map fun j => BitVec.ofNat 32 (p j)) := by
  induction n generalizing i with
  | zero => rfl
  | succ n ih =>
    have hrest := ih (i := i + 1) fun j hlo hhi => hgood j (by omega) (by omega)
    rw [loadPointers_succ_of_good n (hgood i le_rfl (by omega)), hrest]
    rfl

/-- The first bad pointer ends the load of the pointers. -/
theorem loadPointers_of_bad {r : Rom} {h i j n : Nat} (hlo : i ≤ j) (hhi : j < i + n) (hbad : PointerBad r h j)
    (hgood : ∀ m, i ≤ m → m < j → ∃ p, PointerGood r h m p) :
    loadPointers r h i n = .error ⟨.configuration, h + 8 + 4 * j⟩ := by
  induction n generalizing i with
  | zero => omega
  | succ n ih =>
    obtain rfl | hlt := hlo.eq_or_lt
    · exact loadPointers_succ_of_bad n hbad
    · obtain ⟨p, hp⟩ := hgood i le_rfl hlt
      have hrest := ih hlt (by omega) fun m hm hmj => hgood m (by omega) hmj
      rw [loadPointers_succ_of_good n hp, hrest]
      rfl

/-! ### The parts of the load -/

/-- The load from the check of the track count on. -/
def loadTracks (r : Rom) (h prio rev n t0 inst : Nat) : Except LoadError Loaded := do
  loadCheck (n != 0 && n ≤ Config.maxTracks) ⟨.configuration, h⟩
  let tracks ← loadPointers r h 0 n
  loadCheck (r.mapped inst) ⟨.parse, h + 4⟩
  .ok ⟨BitVec.ofNat 8 n, BitVec.ofNat 8 t0, BitVec.ofNat 8 prio, BitVec.ofNat 8 rev, BitVec.ofNat 32 inst, tracks⟩

/-- The load from the check of the header on, for the entry at `e`. -/
def loadHeader (r : Rom) (e h prio rev : Nat) : Except LoadError Loaded := do
  loadCheck (h != 0 && r.mappedRange h 8) ⟨.configuration, e⟩
  let n ← loadRead r h 1 ⟨.configuration, e⟩
  let t0 ← loadRead r (h + 1) 1 ⟨.configuration, e⟩
  let inst ← loadRead r (h + 4) 4 ⟨.configuration, e⟩
  loadTracks r h prio rev n t0 inst

section Parts

variable {r : Rom} {t k e h prio rev n t0 inst : Nat}

theorem loadSong_of_entryReads (hentry : EntryReads r t k h prio rev) :
    loadSong r t k = loadHeader r (t + 4 + 8 * k) h prio rev := by
  obtain ⟨⟨count, hcount, hk⟩, hh, hprio, hrev⟩ := hentry
  rw [loadSong, loadRead_bind_some hcount, loadCheck_bind_true (decide_eq_true hk), loadRead_bind_some hh,
    loadRead_bind_some hprio, loadRead_bind_some hrev]
  rfl

/-- The check of the header says that it is not null and that all of its 8 bytes are mapped. -/
theorem headerCheck_iff (r : Rom) (h : Nat) :
    (h != 0 && r.mappedRange h 8) = true ↔ h ≠ 0 ∧ ∀ m, m < 8 → r.mapped (h + m) = true := by
  rw [Bool.and_eq_true, bne_iff_ne, Rom.mappedRange_iff]

theorem loadHeader_of_bad (hbad : h = 0 ∨ ∃ m, m < 8 ∧ r.mapped (h + m) = false) :
    loadHeader r e h prio rev = .error ⟨.configuration, e⟩ := by
  refine loadCheck_bind_false (Bool.eq_false_iff.mpr fun hcheck => ?_)
  obtain ⟨hne, hmapped⟩ := (headerCheck_iff r h).mp hcheck
  obtain h0 | ⟨m, hm, hunmapped⟩ := hbad
  · exact hne h0
  · exact Bool.false_ne_true (hunmapped.symm.trans (hmapped m hm))

theorem loadHeader_of_headerReads (hheader : HeaderReads r h n t0 inst) :
    loadHeader r e h prio rev = loadTracks r h prio rev n t0 inst := by
  obtain ⟨hne, hmapped, hn, ht0, hinst⟩ := hheader
  rw [loadHeader, loadCheck_bind_true ((headerCheck_iff r h).mpr ⟨hne, hmapped⟩), loadRead_bind_some hn,
    loadRead_bind_some ht0, loadRead_bind_some hinst]

/-- The check of the track count says that it is 1 to 16. -/
theorem countCheck_iff (n : Nat) : (n != 0 && n ≤ Config.maxTracks : Bool) = true ↔ 1 ≤ n ∧ n ≤ 16 := by
  simp [Config.maxTracks, Nat.one_le_iff_ne_zero]

theorem loadTracks_of_badCount (hn : n = 0 ∨ 16 < n) :
    loadTracks r h prio rev n t0 inst = .error ⟨.configuration, h⟩ := by
  refine loadCheck_bind_false (Bool.eq_false_iff.mpr fun hcheck => ?_)
  obtain ⟨hpos, hle⟩ := (countCheck_iff n).mp hcheck
  omega

theorem loadTracks_of_badPointer {i : Nat} (hcount : 1 ≤ n ∧ n ≤ 16) (hi : i < n) (hbad : PointerBad r h i)
    (hgood : ∀ j, j < i → ∃ p, PointerGood r h j p) :
    loadTracks r h prio rev n t0 inst = .error ⟨.configuration, h + 8 + 4 * i⟩ := by
  have hptrs := loadPointers_of_bad i.zero_le (hi.trans_eq n.zero_add.symm) hbad fun j _ => hgood j
  rw [loadTracks, loadCheck_bind_true ((countCheck_iff n).mpr hcount), hptrs]
  rfl

/-- Past the track pointers, only the check of the instrument table is left. -/
theorem loadTracks_of_goodPointers {p : Nat → Nat} (hcount : 1 ≤ n ∧ n ≤ 16)
    (hgood : ∀ i, i < n → PointerGood r h i (p i)) :
    loadTracks r h prio rev n t0 inst = (loadCheck (r.mapped inst) ⟨.parse, h + 4⟩ >>= fun _ =>
      .ok ⟨BitVec.ofNat 8 n, BitVec.ofNat 8 t0, BitVec.ofNat 8 prio, BitVec.ofNat 8 rev, BitVec.ofNat 32 inst,
        (List.range n).map fun i => BitVec.ofNat 32 (p i)⟩) := by
  have hptrs := loadPointers_of_good (i := 0) fun j _ hj => hgood j (hj.trans_eq n.zero_add)
  rw [loadTracks, loadCheck_bind_true ((countCheck_iff n).mpr hcount), hptrs, List.range_eq_range']
  rfl

end Parts

/-! ### The statements -/

/-- Settles O44: the write is one of the three of `writeCtrl_cases`, and each of them meets the clauses whose hypotheses
it leaves open. -/
theorem ctrlWriteActsInOrder : Obligations.CtrlWriteActsInOrder := by
  intro s v
  rw [State.writeReg_ctrl]
  rcases writeCtrl_cases s v with ⟨hstart, hw⟩ | ⟨hstart, hstop, hplaying, hw⟩ | ⟨hstart, hidle, hw⟩
  · simp only [hw, hstart, reduceCtorEq, false_implies, implies_true, and_self]
  · simp only [hw, hstart, hstop, hplaying, reduceCtorEq, false_implies, implies_true, and_self]
  · rcases hidle with hstop | hplaying
    · simp only [hw, hstart, hstop, reduceCtorEq, false_implies, implies_true, and_self]
    · simp only [hw, hstart, hplaying, reduceCtorEq, false_implies, implies_true, and_self]

/-- Settles O45: the load passes each check that holds and ends at the first that fails. -/
theorem loadChecksInOrder : Obligations.LoadChecksInOrder := by
  intro r t k e
  refine ⟨fun ht => ?table, fun count ht hk => ?index, fun count ht hk hh => ?pointer,
    fun count h ht hk hh hprio => ?priority, fun count h prio ht hk hh hprio hrev => ?reverb,
    fun h prio rev hentry hbad => ?header, fun h prio rev n t0 inst hentry hheader => ?tracks⟩
  case table => exact loadRead_bind_none ht
  case index =>
    rw [loadSong, loadRead_bind_some ht, loadCheck_bind_false (decide_eq_false hk.not_gt)]
  case pointer =>
    rw [loadSong, loadRead_bind_some ht, loadCheck_bind_true (decide_eq_true hk), loadRead_bind_none hh]
  case priority =>
    rw [loadSong, loadRead_bind_some ht, loadCheck_bind_true (decide_eq_true hk), loadRead_bind_some hh,
      loadRead_bind_none hprio]
  case reverb =>
    rw [loadSong, loadRead_bind_some ht, loadCheck_bind_true (decide_eq_true hk), loadRead_bind_some hh,
      loadRead_bind_some hprio, loadRead_bind_none hrev]
  case header =>
    rw [loadSong_of_entryReads hentry, loadHeader_of_bad hbad]
  case tracks =>
    rw [loadSong_of_entryReads hentry, loadHeader_of_headerReads hheader]
    exact ⟨loadTracks_of_badCount, fun hpos hle =>
      ⟨fun i hi hbad hgood => loadTracks_of_badPointer ⟨hpos, hle⟩ hi hbad hgood, fun p hgood => by
        rw [loadTracks_of_goodPointers ⟨hpos, hle⟩ hgood]
        exact ⟨loadCheck_bind_false, loadCheck_bind_true⟩⟩⟩

end Sys2Proof.Machine
end

