-- ==== Sys2Proof/Proofs/Allocation.lean ====
section
/-! PROOF. Channel allocation (spec/41_note_events.md, R89 and R90): both searches of the model run through the channel
indices in ascending order, so the first free channel is the lowest one, and the scan for the victim, which moves on only
to a smaller key, ends at the first channel of the stealing order. -/

namespace Sys2Proof.Machine

theorem chanIndices_pairwise_le : chanIndices.Pairwise (· ≤ ·) := by decide

/-! ### The free channel (R89) -/

/-- What a search of an ascending list finds is the least element that passes the test. -/
theorem find?_le_of_pairwise {α : Type} [Preorder α] {p : α → Bool} {l : List α} {a b : α} (hl : l.Pairwise (· ≤ ·))
    (ha : l.find? p = some a) (hb : b ∈ l) (hpb : p b = true) : a ≤ b := by
  obtain ⟨-, before, after, rfl, hbefore⟩ := List.find?_eq_some_iff_append.mp ha
  obtain ⟨-, hfrom, -⟩ := List.pairwise_append.mp hl
  rcases List.mem_append.mp hb with hb | hb
  · exact absurd (hbefore b hb) (by simp [hpb])
  · obtain rfl | hb := List.mem_cons.mp hb
    · exact le_rfl
    · exact List.rel_of_pairwise_cons hfrom hb

/-- A channel is free when it is Idle (R88). -/
theorem Channel.not_live_iff (c : Channel) : (!c.live) = true ↔ c.state = .idle := by simp [Channel.live]

/-- `Allocate()` answers the lowest Idle channel, or there is none and it answers the victim. -/
theorem allocate_cases (ch : Vector Channel 12) :
    (ch[allocate ch].state = .idle ∧ ∀ i : ChanIdx, ch[i].state = .idle → allocate ch ≤ i) ∨
      ((∀ i : ChanIdx, ch[i].state ≠ .idle) ∧ allocate ch = victim ch) := by
  cases hfind : chanIndices.find? (fun j => !ch[j].live) with
  | some j =>
    obtain rfl : allocate ch = j := by rw [allocate, hfind]
    have hfree := List.find?_some hfind
    exact .inl ⟨(Channel.not_live_iff _).mp hfree, fun i hi =>
      find?_le_of_pairwise chanIndices_pairwise_le hfind (mem_chanIndices i) ((Channel.not_live_iff _).mpr hi)⟩
  | none =>
    exact .inr ⟨fun i hi => List.find?_eq_none.mp hfind i (mem_chanIndices i) ((Channel.not_live_iff _).mpr hi),
      by rw [allocate, hfind]⟩

/-! ### The victim (R90) -/

/-- A stamp is below 2^32, so that the keys compare the classes first. -/
theorem Channel.stealKey_lt_iff (c d : Channel) :
    c.stealKey < d.stealKey ↔ (c.state = .release ∧ d.state ≠ .release) ∨
      ((c.state = .release ↔ d.state = .release) ∧ c.stamp.toNat < d.stamp.toNat) := by
  have hc := c.stamp.isLt
  have hd := d.stamp.isLt
  by_cases hcr : c.state = .release <;> by_cases hdr : d.state = .release <;>
    simp [Channel.stealKey, Channel.stealClass, hcr, hdr] <;> omega

/-- Equal keys are of one class and one stamp. -/
theorem Channel.stealKey_eq_iff (c d : Channel) :
    c.stealKey = d.stealKey ↔ (c.state = .release ↔ d.state = .release) ∧ c.stamp = d.stamp := by
  have hc := c.stamp.isLt
  have hd := d.stamp.isLt
  rw [← BitVec.toNat_inj]
  by_cases hcr : c.state = .release <;> by_cases hdr : d.state = .release <;>
    simp [Channel.stealKey, Channel.stealClass, hcr, hdr] <;> omega

/-- A channel's place in the stealing order: its key, then its index. -/
def stealRank (ch : Vector Channel 12) (j : ChanIdx) : ℕ ×ₗ ChanIdx := toLex (ch[j].stealKey, j)

theorem stealRank_le_iff (ch : Vector Channel 12) (j i : ChanIdx) :
    stealRank ch j ≤ stealRank ch i ↔
      ch[j].stealKey < ch[i].stealKey ∨ (ch[j].stealKey = ch[i].stealKey ∧ j ≤ i) := Prod.Lex.toLex_le_toLex

theorem stealRank_le_iff_stealBefore (ch : Vector Channel 12) (j i : ChanIdx) :
    stealRank ch j ≤ stealRank ch i ↔ StealBefore ch j i := by
  rw [stealRank_le_iff, Channel.stealKey_lt_iff, Channel.stealKey_eq_iff, StealBefore, and_or_left, or_assoc, and_assoc]

/-- The scan of ascending indices answers the first of them in the stealing order. -/
theorem stealRank_victimFrom_le (ch : Vector Channel 12) {best : ChanIdx} {l : List ChanIdx}
    (hl : (best :: l).Pairwise (· ≤ ·)) : ∀ i ∈ best :: l, stealRank ch (victimFrom ch best l) ≤ stealRank ch i := by
  induction l generalizing best with
  | nil => exact List.forall_mem_singleton.mpr le_rfl
  | cons j rest ih =>
    obtain ⟨hbest, hrest⟩ := List.pairwise_cons.mp hl
    rw [victimFrom]
    split
    next hlt =>
      have hmin := ih hrest
      have hj : stealRank ch j ≤ stealRank ch best := (stealRank_le_iff ch j best).mpr (.inl hlt)
      exact List.forall_mem_cons.mpr ⟨(hmin j List.mem_cons_self).trans hj, hmin⟩
    next hge =>
      obtain ⟨hmin, hminRest⟩ := List.forall_mem_cons.mp
        (ih (best := best) (List.pairwise_cons.mpr ⟨fun i hi => hbest i (.tail j hi), hrest.of_cons⟩))
      have hj : stealRank ch best ≤ stealRank ch j := (stealRank_le_iff ch best j).mpr
        ((not_lt.mp hge).lt_or_eq.imp_right fun heq => ⟨heq, hbest j List.mem_cons_self⟩)
      exact List.forall_mem_cons.mpr ⟨hmin, List.forall_mem_cons.mpr ⟨hmin.trans hj, hminRest⟩⟩

/-- `Victim()` comes first of all channels. -/
theorem stealBefore_victim (ch : Vector Channel 12) (i : ChanIdx) : StealBefore ch (victim ch) i :=
  (stealRank_le_iff_stealBefore ch (victim ch) i).mp
    (stealRank_victimFrom_le ch (List.pairwise_cons.mpr ⟨fun j _ => Fin.zero_le j, chanIndices_pairwise_le⟩) i
      (.tail 0 (mem_chanIndices i)))

/-! ### The statement -/

/-- Settles O30: by the two cases of `allocate_cases`, the second with `stealBefore_victim`. -/
theorem allocateTakesIdleElseVictim : Obligations.AllocateTakesIdleElseVictim := by
  intro ch
  rcases allocate_cases ch with ⟨hidle, hlowest⟩ | ⟨hnone, hvictim⟩
  · exact ⟨fun _ => ⟨hidle, hlowest⟩, fun hnone => absurd hidle (hnone _)⟩
  · exact ⟨fun ⟨i, hi⟩ => absurd hi (hnone i), fun _ => hvictim ▸ stealBefore_victim ch⟩

end Sys2Proof.Machine
end

