-- ==== Sys2Proof/Proofs/ControlFlow.lean ====
section
/-! PROOF. The call stack pointer (spec/43_control_flow.md, R112): every instruction keeps every track's `sp`, but for a
CALL that enters and a RET that returns. -/

namespace Sys2Proof.Machine

/-! ### The stack pointer through the state's operations -/

/-- Taking an error moves no stack pointer. -/
theorem State.takeError_sp (s : State) (e : ErrKind) (j : TrackIdx) : (s.takeError e).trk[j].sp = s.trk[j].sp := by
  obtain h | ⟨-, -, h⟩ := s.takeError_trk_get e j <;> rw [h]

/-- Writing a register file with the executing track's own `sp` moves no stack pointer. -/
theorem State.setCur_sp (s : State) {u : Track} (h : u.sp = s.curTrack.sp) (j : TrackIdx) :
    (s.setCur u).trk[j].sp = s.trk[j].sp := by
  rw [State.setCur_trk_get]
  split
  next hj => rw [hj]; exact h
  next => rfl

/-- A push with room on the stack increments `sp`: two bits hold CALL_DEPTH. -/
theorem Track.enterCall_sp_toNat {t : Track} (h : t.sp.toNat < Config.callDepth) (addr : Word) :
    (t.enterCall addr).sp.toNat = t.sp.toNat + 1 := BitVec.toNat_add_of_lt (Nat.succ_lt_succ h)

/-- A pop from a stack that is not empty decrements `sp`. -/
theorem Track.leaveCall_sp_toNat {t : Track} (h : t.sp ≠ 0) : t.leaveCall.sp.toNat + 1 = t.sp.toNat := by
  change (t.sp - 1).toNat + 1 = t.sp.toNat
  bv_omega

/-! ### Which instructions move it -/

/-- An instruction keeps the stack pointer of every track, unless it is a CALL that enters or a RET that returns. -/
theorem exec_sp_cases {i : Instr} {s t : State} (h : exec i s = .next t) :
    (∀ j : TrackIdx, t.trk[j].sp = s.trk[j].sp) ∨
      (∃ a, i = .call a ∧ s.curTrack.sp.toNat < Config.callDepth ∧ t = s.setCur (s.curTrack.enterCall a)) ∨
      (i = .ret ∧ s.curTrack.sp ≠ 0 ∧ t = s.setCur s.curTrack.leaveCall) := by
  cases i with
  | call a =>
    obtain ⟨-, rfl⟩ | ⟨hroom, -, ht⟩ | ⟨-, -, rfl⟩ := execCall_next h
    · exact .inl (s.takeError_sp _)
    · exact .inr (.inl ⟨a, rfl, hroom, ht⟩)
    · exact .inl (s.takeError_sp _)
  | ret =>
    obtain ⟨-, rfl⟩ | ⟨hne, ht⟩ := execRet_next h
    · exact .inl (s.takeError_sp _)
    · exact .inr (.inr ⟨rfl, hne, ht⟩)
  | jump _ =>
    obtain ⟨-, rfl⟩ | ⟨-, rfl⟩ := execJump_next h
    · exact .inl (s.setCur_sp rfl)
    · exact .inl (s.takeError_sp _)
  | note _ _ _ =>
    obtain ⟨-, rfl⟩ | ⟨v, -, rfl⟩ := execNote_next h
    · exact .inl (s.takeError_sp _)
    · exact .inl (State.setCur_sp _ rfl)
  | rest _ => exact .inl (execRest_next h ▸ s.setCur_sp rfl)
  | eot => exact .inl (execEot_next h ▸ s.setCur_sp rfl)
  | tempo _ => exact .inl (execTempo_next h ▸ s.setCur_sp rfl)
  | prog _ => exact .inl (execProg_next h ▸ s.setCur_sp rfl)
  | vol _ => exact .inl (execVol_next h ▸ s.setCur_sp rfl)
  | pan _ => exact .inl (execPan_next h ▸ s.setCur_sp rfl)
  | bend _ => exact .inl (execBend_next h ▸ s.setCur_sp rfl)
  | vib _ _ _ => exact .inl (execVib_next h ▸ s.setCur_sp rfl)
  | trem _ _ _ => exact .inl (execTrem_next h ▸ s.setCur_sp rfl)
  | tie _ => exact .inl (execTie_next h ▸ State.setCur_sp _ rfl)

/-! ### The statement -/

/-- Settles O26: the bound is the width of `sp`, two bits; the rest is `exec_sp_cases`, in which a CALL or a RET writes
the register file of the executing track alone. -/
theorem onlyCallAndRetMoveTheStack : Obligations.OnlyCallAndRetMoveTheStack := by
  refine ⟨fun s j => Nat.le_of_lt_succ s.trk[j].sp.isLt, fun i s t j h => ?_⟩
  obtain hkept | ⟨a, hi, hroom, rfl⟩ | ⟨hi, hne, rfl⟩ := exec_sp_cases h
  · exact .inl (hkept j)
  · rw [State.setCur_trk_get]
    split
    next hj =>
      subst hj
      exact .inr (.inl ⟨rfl, ⟨a, hi⟩, hroom, Track.enterCall_sp_toNat hroom a⟩)
    next => exact .inl rfl
  · rw [State.setCur_trk_get]
    split
    next hj =>
      subst hj
      have hpop := Track.leaveCall_sp_toNat hne
      exact .inr (.inr ⟨rfl, hi, hpop ▸ Nat.succ_pos _, hpop⟩)
    next => exact .inl rfl

end Sys2Proof.Machine
end

