-- ==== Sys2Proof/Proofs/Envelope.lean ====
section
/-! PROOF. The envelope (spec/44_channel_engine.md, R113 to R118): one tick in each phase, then a run of ticks within a
phase, by induction on its length; the closed form of a note joins the runs in Attack, in Decay and Sustain, and in
Release. -/

namespace Sys2Proof.Machine

/-- `ceil(255 / a)` of R117 and R118 is the first count of steps of `a` that covers 255. -/
theorem ceil255_le_iff {a n : Nat} (ha : 1 ≤ a) : (255 + a - 1) / a ≤ n ↔ 255 ≤ a * n := by
  rw [← Nat.ceilDiv_eq_add_pred_div]
  exact ceilDiv_le_iff_le_mul ha

/-! ### One tick in each phase -/

/-- What the envelope step reads of a channel: its voice `v`, its phase `p`, its level `e`, and the ticks `k` that its
gate still runs. -/
structure Channel.At (c : Channel) (v : Voice) (p : EnvState) (e k : Nat) : Prop where
  voice : c.voice = v
  state : c.state = p
  env : c.env.toNat = e
  gate : c.gate.toNat = k

/-- Where a channel is at the end of a tick in Attack that took it to level `e` (R115). -/
def afterAttack (e : Nat) : EnvState := if e = 255 then .decay else .attack

/-- Where a channel is at the end of a tick in Decay, or in Sustain, that left it at level `e` (R115). -/
def afterDecay (sus e : Nat) : EnvState := if e = sus then .sustain else .decay

/-- Where a channel is at the end of a tick in Release, or Idle, that left it at level `e` (R115). -/
def afterRelease (e : Nat) : EnvState := if e = 0 then .idle else .release

theorem afterAttack_ne_idle (e : Nat) : afterAttack e ≠ .idle := by
  unfold afterAttack; split <;> decide

theorem afterDecay_ne_idle (sus e : Nat) : afterDecay sus e ≠ .idle := by
  unfold afterDecay; split <;> decide

theorem attackLevel_le (e a : Nat) : attackLevel e a ≤ 255 := Nat.min_le_left ..

theorem releaseLevel_le (e r : Nat) : releaseLevel e r ≤ e := by
  unfold releaseLevel
  split
  · exact Nat.zero_le e
  · exact Nat.sub_le e r

section Ticks

variable {c : Channel} {v : Voice} {p : EnvState} {e k : Nat}

/-- The gate of a channel whose note is still held is not 0. -/
theorem Channel.At.gate_ne_zero (h : c.At v p e (k + 1)) : c.gate ≠ 0 := by
  have := h.gate
  bv_omega

/-- The gate counts down while it runs (R114). -/
theorem Channel.At.gate_pred (h : c.At v p e (k + 1)) : (c.gate - 1).toNat = k := by
  have := h.gate
  bv_omega

theorem Channel.At.env_le (h : c.At v p e k) : e ≤ 255 := h.env ▸ Nat.le_of_lt_succ c.env.isLt

theorem level_toNat {x : Nat} (h : x ≤ 255) : (BitVec.ofNat 8 x).toNat = x :=
  BitVec.toNat_ofNat x 8 ▸ Nat.mod_eq_of_lt (Nat.lt_succ_of_le h)

theorem Channel.At.tick_attack (h : c.At v .attack e (k + 1)) :
    c.tick.At v (afterAttack (attackLevel e v.attack.toNat)) (attackLevel e v.attack.toNat) k := by
  rw [Channel.tick_attack h.state h.gate_ne_zero, h.env, h.voice]
  exact ⟨rfl, rfl, level_toNat (attackLevel_le _ _), h.gate_pred⟩

theorem Channel.At.tick_decay (h : c.At v .decay e (k + 1)) :
    c.tick.At v (afterDecay v.sustain.toNat (decayLevel e v.decay.toNat v.sustain.toNat))
      (decayLevel e v.decay.toNat v.sustain.toNat) k := by
  have hle : decayLevel e v.decay.toNat v.sustain.toNat ≤ 255 :=
    Nat.max_le.mpr ⟨Nat.le_of_lt_succ v.sustain.isLt, (Nat.sub_le ..).trans h.env_le⟩
  rw [Channel.tick_decay h.state h.gate_ne_zero, h.env, h.voice]
  exact ⟨rfl, rfl, level_toNat hle, h.gate_pred⟩

theorem Channel.At.tick_sustain (h : c.At v .sustain e (k + 1)) : c.tick.At v .sustain e k := by
  rw [Channel.tick_sustain h.state h.gate_ne_zero]
  exact ⟨h.voice, h.state, h.env, h.gate_pred⟩

/-- The first tick of the release takes its level step at once, whatever phase the gate ends (R114, R115). -/
theorem Channel.At.tick_release (h : c.At v p e k) (hp : p = .release ∨ (p ≠ .idle ∧ k = 0)) :
    c.tick.At v (afterRelease (releaseLevel e v.release.toNat)) (releaseLevel e v.release.toNat) k := by
  have hc : c.state = .release ∨ (c.state ≠ .idle ∧ c.gate = 0) := by
    rw [h.state]
    exact hp.imp_right fun ⟨hne, hk⟩ => ⟨hne, BitVec.eq_of_toNat_eq (h.gate.trans hk)⟩
  rw [Channel.tick_release hc, h.env, h.voice]
  exact ⟨rfl, rfl, level_toNat ((releaseLevel_le _ _).trans h.env_le), h.gate⟩

theorem Channel.At.tick_idle (h : c.At v .idle e k) : c.tick.At v .idle e k := by
  rw [Channel.tick_idle h.state]
  exact h

/-! ### A run of ticks -/

/-- A run in Attack, up to and with the tick that reaches 255. -/
theorem Channel.At.ticks_attack {m : Nat} (h : c.At v .attack e (k + (m + 1))) (hlt : e + m * v.attack.toNat < 255) :
    (Channel.tick^[m + 1] c).At v (afterAttack (min 255 (e + (m + 1) * v.attack.toNat)))
      (min 255 (e + (m + 1) * v.attack.toNat)) k := by
  induction m generalizing k with
  | zero => simpa [attackLevel] using h.tick_attack
  | succ m ih =>
    rw [Function.iterate_succ_apply']
    have hbelow : min 255 (e + (m + 1) * v.attack.toNat) = e + (m + 1) * v.attack.toNat := by omega
    have hprev := ih (k := k + 1) (by rwa [show k + 1 + (m + 1) = k + (m + 1 + 1) by omega]) (by linarith)
    rw [hbelow, afterAttack, if_neg (by omega)] at hprev
    have hlevel : attackLevel (e + (m + 1) * v.attack.toNat) v.attack.toNat =
        min 255 (e + (m + 1 + 1) * v.attack.toNat) := by rw [attackLevel]; congr 1; ring
    exact hlevel ▸ hprev.tick_attack

/-- A run that begins in Decay, on into Sustain: the level falls to S and stays. -/
theorem Channel.At.ticks_decay {m : Nat} (h : c.At v .decay e (k + (m + 1))) :
    (Channel.tick^[m + 1] c).At v
      (afterDecay v.sustain.toNat (max v.sustain.toNat (e - (m + 1) * v.decay.toNat)))
      (max v.sustain.toNat (e - (m + 1) * v.decay.toNat)) k := by
  induction m generalizing k with
  | zero => simpa [decayLevel] using h.tick_decay
  | succ m ih =>
    rw [Function.iterate_succ_apply', Nat.succ_mul (m + 1)]
    have hprev := ih (k := k + 1) (by rwa [show k + 1 + (m + 1) = k + (m + 1 + 1) by omega])
    by_cases hS : max v.sustain.toNat (e - (m + 1) * v.decay.toNat) = v.sustain.toNat
    · have hstays : max v.sustain.toNat (e - ((m + 1) * v.decay.toNat + v.decay.toNat)) = v.sustain.toNat := by omega
      rw [hS, afterDecay, if_pos rfl] at hprev
      rw [hstays, afterDecay, if_pos rfl]
      exact hprev.tick_sustain
    · have hlevel : decayLevel (max v.sustain.toNat (e - (m + 1) * v.decay.toNat)) v.decay.toNat v.sustain.toNat =
          max v.sustain.toNat (e - ((m + 1) * v.decay.toNat + v.decay.toNat)) := by rw [decayLevel]; omega
      rw [afterDecay, if_neg hS] at hprev
      exact hlevel ▸ hprev.tick_decay

/-- The level after `n` ticks of release from level `e` (R118). -/
def releasedLevel (e r n : Nat) : Nat := if 1 ≤ r then e - n * r else 0

theorem releasedLevel_one (e r : Nat) : releasedLevel e r 1 = releaseLevel e r := by
  unfold releasedLevel releaseLevel
  split <;> split <;> omega

theorem releasedLevel_succ (e r n : Nat) : releasedLevel e r (n + 1) = releaseLevel (releasedLevel e r n) r := by
  unfold releasedLevel releaseLevel
  rw [Nat.succ_mul]
  split <;> split <;> omega

/-- A run of a release, from its first tick on into Idle: the level falls to 0 and stays. -/
theorem Channel.At.ticks_release (h : c.At v p e k) (hp : p = .release ∨ (p ≠ .idle ∧ k = 0)) (m : Nat) :
    (Channel.tick^[m + 1] c).At v (afterRelease (releasedLevel e v.release.toNat (m + 1)))
      (releasedLevel e v.release.toNat (m + 1)) k := by
  induction m with
  | zero => exact releasedLevel_one e _ ▸ h.tick_release hp
  | succ m ih =>
    rw [Function.iterate_succ_apply', releasedLevel_succ]
    by_cases h0 : releasedLevel e v.release.toNat (m + 1) = 0
    · have hstays : releaseLevel 0 v.release.toNat = 0 := Nat.le_zero.mp (releaseLevel_le 0 _)
      rw [h0, afterRelease, if_pos rfl] at ih
      rw [h0, hstays, afterRelease, if_pos rfl]
      exact ih.tick_idle
    · rw [afterRelease, if_neg h0] at ih
      exact ih.tick_release (.inl rfl)

end Ticks

/-! ### The closed form of a note (R118) -/

theorem newChannel_at (i : TrackIdx) (key vel : Bits7) (g : Byte) (v : Voice) (stamp : Word) :
    (newChannel i key vel g v stamp).At v .attack 0 g.toNat :=
  ⟨rfl, rfl, rfl, BitVec.toNat_ofNat g.toNat 16 ▸ Nat.mod_eq_of_lt (by omega)⟩

section ClosedForm

variable {c : Channel} {v : Voice} {g n : Nat}

/-- The first clause of R118: a held note before its level is at 255. -/
theorem Channel.At.note_rising (h : c.At v .attack 0 g) (hA : 1 ≤ v.attack.toNat) (hg : n < g)
    (hn : n < (255 + v.attack.toNat - 1) / v.attack.toNat) :
    (Channel.tick^[n + 1] c).At v (afterAttack (min 255 ((n + 1) * v.attack.toNat)))
      (min 255 ((n + 1) * v.attack.toNat)) (g - (n + 1)) := by
  have hlt : v.attack.toNat * n < 255 := by
    rw [← not_le] at hn ⊢
    rwa [← ceil255_le_iff hA]
  rw [← Nat.sub_add_cancel hg] at h
  simpa using h.ticks_attack (by rwa [zero_add, mul_comm])

/-- The second clause of R118: a held note after its level was at 255. -/
theorem Channel.At.note_falling (h : c.At v .attack 0 g) (hA : 1 ≤ v.attack.toNat) (hg : n < g)
    (hn : (255 + v.attack.toNat - 1) / v.attack.toNat ≤ n) :
    let level := max v.sustain.toNat (255 - (n - (255 + v.attack.toNat - 1) / v.attack.toNat + 1) * v.decay.toNat)
    (Channel.tick^[n + 1] c).At v (afterDecay v.sustain.toNat level) level (g - (n + 1)) := by
  have hfull := (ceil255_le_iff hA).mp le_rfl
  have hpos : 1 ≤ (255 + v.attack.toNat - 1) / v.attack.toNat := by rw [Nat.one_le_div_iff hA]; omega
  generalize hnA : (255 + v.attack.toNat - 1) / v.attack.toNat = nA at *
  have htop := h.note_rising hA (n := nA - 1) (by omega) (by omega)
  rw [Nat.sub_add_cancel hpos, mul_comm, min_eq_left hfull, afterAttack, if_pos rfl,
    show g - nA = g - (n + 1) + (n - nA + 1) by omega] at htop
  rw [show n + 1 = (n - nA + 1) + nA by omega, Function.iterate_add_apply,
    show n - nA + 1 + nA = n + 1 by omega]
  exact htop.ticks_decay

/-- A note is not Idle while its gate runs. -/
theorem Channel.At.note_held (h : c.At v .attack 0 g) (hA : 1 ≤ v.attack.toNat) (hg : n < g) :
    ∃ p e, p ≠ .idle ∧ (Channel.tick^[n + 1] c).At v p e (g - (n + 1)) := by
  obtain hn | hn := Nat.lt_or_ge n ((255 + v.attack.toNat - 1) / v.attack.toNat)
  · exact ⟨_, _, afterAttack_ne_idle _, h.note_rising hA hg hn⟩
  · exact ⟨_, _, afterDecay_ne_idle _ _, h.note_falling hA hg hn⟩

/-- The third clause of R118: a note whose gate has expired, from its level `L` at the last tick of the gate. -/
theorem Channel.At.note_released (h : c.At v .attack 0 g) (hA : 1 ≤ v.attack.toNat) (hg : 1 ≤ g) (hn : g ≤ n) :
    let L := (Channel.tick^[g - 1 + 1] c).env.toNat
    let level := releasedLevel L v.release.toNat (n - g + 1)
    (Channel.tick^[n + 1] c).At v (afterRelease level) level 0 := by
  obtain ⟨p, e, hp, hlast⟩ := h.note_held hA (n := g - 1) (by omega)
  have hk : g - (g - 1 + 1) = 0 := by omega
  rw [hk] at hlast
  rw [hlast.env, show n + 1 = (n - g + 1) + (g - 1 + 1) by omega, Function.iterate_add_apply]
  exact hlast.ticks_release (.inr ⟨hp, rfl⟩) (n - g)

end ClosedForm

/-! ### The bound on a release (R117) -/

/-- The bound of R117 on the ticks of a release. -/
def releaseTicks (r : Nat) : Nat := if r = 0 then 1 else (255 + r - 1) / r

theorem one_le_releaseTicks (r : Nat) : 1 ≤ releaseTicks r := by
  unfold releaseTicks
  split
  · exact le_rfl
  · rw [Nat.one_le_div_iff (by omega)]
    omega

/-- Within the bound any level has fallen to 0. -/
theorem releasedLevel_releaseTicks {e : Nat} (he : e ≤ 255) (r : Nat) : releasedLevel e r (releaseTicks r) = 0 := by
  unfold releasedLevel releaseTicks
  split
  next hr =>
    rw [if_neg (by omega), mul_comm]
    exact Nat.sub_eq_zero_of_le (he.trans ((ceil255_le_iff hr).mp le_rfl))
  next => rfl

/-! ### The statements -/

/-- Settles O32: a new note is in Attack at level 0; `note_rising`, `note_falling` and `note_released` are the three
clauses, and with gate 0 its first tick is one of release. -/
theorem envelopeClosedForm : Obligations.EnvelopeClosedForm := by
  intro i key vel g v stamp A D S R nA c
  have h := newChannel_at i key vel g v stamp
  refine ⟨fun hg hA n => ⟨fun hn hnA => ?_, fun hnA hn => ?_, fun hn => ?_⟩, fun hg => ?_⟩
  · have hat := h.note_rising hA hn hnA
    exact ⟨hat.env, hat.env.symm ▸ hat.state⟩
  · have hat := h.note_falling hA hn hnA
    exact ⟨hat.env, hat.env.symm ▸ hat.state⟩
  · have hat := h.note_released hA hg hn
    exact ⟨hat.env, hat.env.symm ▸ hat.state⟩
  · have hzero : releaseLevel 0 v.release.toNat = 0 := Nat.le_zero.mp (releaseLevel_le 0 _)
    have hat := h.tick_release (.inr ⟨by decide, hg⟩)
    rw [hzero] at hat
    exact ⟨hat.state, hat.env⟩

/-- Settles O33: a tick of release does not raise the level (`releaseLevel_le`), and `ticks_release` over the ticks of
the bound of R117 ends at 0 (`releasedLevel_releaseTicks`). -/
theorem releaseFallsToZero : Obligations.ReleaseFallsToZero := by
  intro c
  refine ⟨Nat.le_of_lt_succ c.env.isLt, fun hrel => ?_⟩
  have h : c.At c.voice .release c.env.toNat c.gate.toNat := ⟨rfl, hrel, rfl, rfl⟩
  have hrun := h.ticks_release (.inl rfl) (releaseTicks c.voice.release.toNat - 1)
  rw [Nat.sub_add_cancel (one_le_releaseTicks _), releasedLevel_releaseTicks h.env_le, afterRelease, if_pos rfl] at hrun
  have hfalls : c.tick.env.toNat ≤ c.env.toNat := (h.tick_release (.inl rfl)).env ▸ releaseLevel_le _ _
  exact ⟨hfalls, releaseTicks c.voice.release.toNat, le_rfl, hrun.env, hrun.state⟩

end Sys2Proof.Machine
end

