-- ==== Sys2Proof/Proofs/Lfo.lean ====
section
/-! PROOF. The LFOs (spec/44_channel_engine.md, R119 and R120): one lemma for each of the three cases of an LFO step, and
phase 2 of the tick, which steps the LFOs of the loaded tracks. -/

namespace Sys2Proof.Machine

/-! ### The triangle (R119) -/

theorem tri_bounds (phi : Byte) : -64 ≤ tri phi ∧ tri phi ≤ 64 := by
  have := phi.isLt
  unfold tri
  split
  · omega
  · split <;> omega

/-- `asr` by 6 is the floor of the quotient by 64 (R13). -/
theorem asr_six (x : Int) : asr x 6 = Int.fdiv x 64 := (Int.fdiv_eq_ediv_of_nonneg x (by decide)).symm

/-- The triangle times a depth, over 64, is an offset in range. -/
theorem asr_tri_mul_depth_bounds (phi depth : Byte) :
    -255 ≤ asr (tri phi * depth.toNat) 6 ∧ asr (tri phi * depth.toNat) 6 ≤ 255 := by
  obtain ⟨hlo, hhi⟩ := tri_bounds phi
  have hd : (0 : Int) ≤ depth.toNat := Int.natCast_nonneg _
  have hdepth : (depth.toNat : Int) ≤ 255 := by omega
  have hmin := mul_le_mul_of_nonneg_right hlo hd
  have hmax := mul_le_mul_of_nonneg_right hhi hd
  unfold asr
  omega

/-! ### The three cases of an LFO step (R120) -/

section Step

variable {l : Lfo}

theorem Lfo.step_off (h : l.depth = 0) : l.step = { l with offset := 0 } := if_pos h

theorem Lfo.step_delayed (hd : l.depth ≠ 0) (hc : 1 ≤ l.delayCnt.toNat) :
    l.step = { l with delayCnt := l.delayCnt - 1, offset := 0 } := by
  rw [Lfo.step, if_neg hd, if_pos (Nat.pos_of_ne_zero (Nat.one_le_iff_ne_zero.mp hc))]

theorem Lfo.step_running (hd : l.depth ≠ 0) (hc : l.delayCnt.toNat = 0) :
    l.step = { l with phase := l.phase + l.rate, offset := asr (tri (l.phase + l.rate) * l.depth.toNat) 6 } := by
  rw [Lfo.step, if_neg hd, if_neg (by omega)]

theorem Lfo.step_cases (l : Lfo) :
    l.depth = 0 ∨ (l.depth ≠ 0 ∧ 1 ≤ l.delayCnt.toNat) ∨ (l.depth ≠ 0 ∧ l.delayCnt.toNat = 0) := by
  by_cases hd : l.depth = 0
  · exact .inl hd
  · exact .inr ((Nat.eq_zero_or_pos l.delayCnt.toNat).symm.imp (⟨hd, ·⟩) (⟨hd, ·⟩))

end Step

/-- A step writes the delay count, the phase and the offset alone. -/
theorem Lfo.step_keeps (l : Lfo) :
    l.step = { l with delayCnt := l.step.delayCnt, phase := l.step.phase, offset := l.step.offset } := by
  obtain hd | ⟨hd, hc⟩ | ⟨hd, hc⟩ := l.step_cases
  · rw [Lfo.step_off hd]
  · rw [Lfo.step_delayed hd hc]
  · rw [Lfo.step_running hd hc]

theorem Lfo.inRange_of_offset_zero {l : Lfo} (h : l.offset = 0) : l.InRange := by
  rw [Lfo.InRange, h]
  decide

/-- The offset is in range after any step, also from one that was not. -/
theorem Lfo.step_inRange (l : Lfo) : l.step.InRange := by
  obtain hd | ⟨hd, hc⟩ | ⟨hd, hc⟩ := l.step_cases
  · rw [Lfo.step_off hd]
    exact Lfo.inRange_of_offset_zero rfl
  · rw [Lfo.step_delayed hd hc]
    exact Lfo.inRange_of_offset_zero rfl
  · rw [Lfo.step_running hd hc]
    exact asr_tri_mul_depth_bounds _ _

/-- A running LFO advances at every step (R120). -/
theorem Lfo.steps_phase {l : Lfo} (hd : l.depth ≠ 0) (hc : l.delayCnt.toNat = 0) (n : Nat) :
    (Lfo.step^[n] l).phase.toNat = (l.phase.toNat + n * l.rate.toNat) % 256 := by
  induction n generalizing l with
  | zero =>
    rw [zero_mul, add_zero]
    exact (Nat.mod_eq_of_lt l.phase.isLt).symm
  | succ n ih =>
    have hrest : (Lfo.step^[n] l.step).phase.toNat = (l.step.phase.toNat + n * l.step.rate.toNat) % 256 := by
      apply ih <;> rw [Lfo.step_running hd hc] <;> assumption
    rw [Function.iterate_succ_apply, hrest, Lfo.step_running hd hc, BitVec.toNat_add, Nat.mod_add_mod, Nat.succ_mul,
      add_assoc, add_comm l.rate.toNat]

/-! ### Phase 2 of the tick (R80) -/

/-- Phase 2 steps both LFOs of every loaded track and writes no other track. -/
theorem State.lfoPhase_trk_get (s : State) (i : TrackIdx) :
    s.lfoPhase.trk[i] = if i.val < s.song.numTracks.toNat then s.trk[i].lfoStep else s.trk[i] := by
  rw [State.lfoPhase_trk, trackTable_get]

/-- After phase 1 a step is phases 2 to 6. -/
theorem step_post {s : State} (hwf : Config.wellFormed s.sampleRate s.rom.size = true) (hpost : s.control = .post) :
    step s = .next s.finishTick := by
  rw [step, if_pos hwf, hpost]

/-! ### The statement -/

/-- Settles O35: the triangle by its definition, an LFO step by its three cases, and the tick by `State.lfoPhase_trk_get`,
as no later phase writes a track. -/
theorem lfoStepStaysInRange : Obligations.LfoStepStaysInRange := by
  refine ⟨fun phi => and_assoc.mp ⟨tri_bounds phi, rfl⟩, fun l => ⟨l.step_inRange, Lfo.step_off, ?_, ?_, ?_⟩, ?_⟩
  · intro hd hc
    rw [Lfo.step_delayed hd hc]
    exact ⟨rfl, by bv_omega, rfl⟩
  · intro hd hc
    refine ⟨Lfo.steps_phase hd hc 1 |>.trans (by rw [one_mul]), ?_, ?_, Lfo.steps_phase hd hc⟩
    · rw [Lfo.step_running hd hc]
    · rw [Lfo.step_running hd hc, asr_six]
  · rw [Lfo.step_keeps]
    exact ⟨rfl, rfl, rfl⟩
  · intro s hwf hpost
    refine ⟨s.finishTick, step_post hwf hpost, fun i => ?_⟩
    rw [State.finishTick_trk, State.lfoPhase_trk_get]
    rfl

end Sys2Proof.Machine
end

