-- ==== Sys2Proof/Proofs/Pitch.lean ====
section
/-! PROOF. The pitch increment (spec/44_channel_engine.md, R122 to R124): the multiplier is at most 2^17 and there are at
most 21 octaves above the lowest. -/

namespace Sys2Proof.Machine

/-- The semitone table rises to its last entry, one octave up (R122). -/
theorem semitone_mono {n : Nat} (h : n < 12) : semitone n ≤ semitone (n + 1) ∧ semitone (n + 1) ≤ 2 ^ 17 := by
  interval_cases n <;> decide

/-- The interpolation stays below the next semitone, so within an octave (R123). -/
theorem pitchMultiplier_le {n f : Nat} (hn : n < 12) (hf : f < 64) : pitchMultiplier n f ≤ 2 ^ 17 := by
  obtain ⟨hrise, htop⟩ := semitone_mono hn
  have hpart : (semitone (n + 1) - semitone n) * f / 64 ≤ semitone (n + 1) - semitone n :=
    Nat.div_le_of_le_mul (mul_comm 64 _ ▸ Nat.mul_le_mul_left _ hf.le)
  unfold pitchMultiplier
  omega

/-- R124: F below 2^32, a multiplier of at most 2^17 and 21 octaves, over at least 32 * 256. -/
theorem pitchInc_lt {sampleRate f p : Nat} (b : Nat) (hrate : 256 ≤ sampleRate) (hf : f < 2 ^ 32) (hp : p ≤ 8191) :
    pitchInc sampleRate f b p < 2 ^ 57 := by
  have hm : pitchMultiplier ((p + 8448 - 64 * b) / 64 % 12) ((p + 8448 - 64 * b) % 64) ≤ 2 ^ 17 :=
    pitchMultiplier_le (Nat.mod_lt _ (by decide)) (Nat.mod_lt _ (by decide))
  have ho : 2 ^ ((p + 8448 - 64 * b) / 64 / 12) ≤ 2 ^ 21 := Nat.pow_le_pow_right (by decide) (by omega)
  rw [pitchInc, Nat.div_lt_iff_lt_mul (by omega)]
  calc _ ≤ f * 2 ^ 17 * 2 ^ 21 := Nat.mul_le_mul (Nat.mul_le_mul_left f hm) ho
    _ < 2 ^ 57 * (32 * sampleRate) := by omega

/-- Settles O36: the bound is `pitchInc_lt`; the highest pitch position exceeds 2^32 for both fixed F. -/
theorem pitchIncrementFits57Bits : Obligations.PitchIncrementFits57Bits :=
  ⟨fun _ _ b _ hrate hf _ hp => pitchInc_lt b hrate hf hp, ⟨8191, le_rfl, by decide⟩, ⟨8191, le_rfl, by decide⟩⟩

end Sys2Proof.Machine
end

