-- ==== Sys2Proof/Proofs/Mixer.lean ====
section
/-! PROOF. The mixer (spec/45_mixer.md, R130 and R135): a channel adds a sample in -128..127 times a gain of at most 251,
so that the sums are bounded channel by channel; under the invariant every live channel has a sample, so that a mix never
fails; and a RenderFrame ends at its loop test or at the pull loop of an aborted session, nowhere else. -/

namespace Sys2Proof.Machine

/-! ### The gains (R121, R130) -/

theorem amplitude_le {env vel ve : Nat} (henv : env ≤ 255) (hvel : vel ≤ 127) (hve : ve ≤ 127) :
    amplitude env vel ve ≤ 251 :=
  calc env * vel * ve / 2 ^ 14
    _ ≤ 255 * 127 * 127 / 2 ^ 14 := Nat.div_le_div_right (Nat.mul_le_mul (Nat.mul_le_mul henv hvel) hve)
    _ = 251 := rfl

/-- The two gains share out the amplitude, each rounded down. -/
theorem gainLeft_add_gainRight_le (amp : Nat) {pan : Nat} (hpan : pan ≤ 128) :
    gainLeft amp pan + gainRight amp pan ≤ amp :=
  calc amp * (128 - pan) / 128 + amp * pan / 128
    _ ≤ (amp * (128 - pan) + amp * pan) / 128 := Nat.div_add_div_le_add_div ..
    _ = amp := by rw [← Nat.mul_add, Nat.sub_add_cancel hpan, Nat.mul_div_cancel _ (by decide)]

/-! ### The sample of a channel (R125 to R128) -/

theorem squareSample_bounds (duty : BitVec 2) (phase : Word) :
    -128 ≤ squareSample duty phase ∧ squareSample duty phase ≤ 127 := by
  unfold squareSample
  split <;> decide

/-- A nibble in 0..15 gives a sample in -128..112. -/
theorem waveSample_bounds {r : Rom} {w phase : Word} {x : Int} (h : waveSample r w phase = some x) :
    -128 ≤ x ∧ x ≤ 127 := by
  simp only [waveSample] at h
  split at h
  next => cases h
  next b _ =>
    obtain rfl := Option.some.inj h
    have hb := b.isLt
    split <;> omega

theorem noiseSample_bounds (lfsr : BitVec 15) : -128 ≤ noiseSample lfsr ∧ noiseSample lfsr ≤ 127 := by
  unfold noiseSample
  split <;> decide

theorem directSample_bounds {r : Rom} {a : Word} {pos : BitVec 64} {x : Int} (h : directSample r a pos = some x) :
    -128 ≤ x ∧ x ≤ 127 := by
  obtain ⟨b, -, rfl⟩ := Option.map_eq_some_iff.mp h
  rw [sext8_eq_toInt]
  exact ⟨b.le_toInt, Int.le_of_lt_add_one b.toInt_lt⟩

theorem Channel.sample_bounds {r : Rom} {c : Channel} {x : Int} (h : c.sample r = some x) : -128 ≤ x ∧ x ≤ 127 := by
  unfold Channel.sample at h
  split at h
  next => exact Option.some.inj h ▸ squareSample_bounds ..
  next => exact waveSample_bounds h
  next => exact Option.some.inj h ▸ noiseSample_bounds _
  next => exact directSample_bounds h

theorem waveSample_isSome (r : Rom) (w phase : Word) :
    (waveSample r w phase).isSome = r.mapped (w.toNat + phase.toNat / 2 ^ 27 / 2) := by
  rw [← Rom.byte?_isSome, waveSample]
  cases r.byte? (w.toNat + phase.toNat / 2 ^ 27 / 2) <;> rfl

theorem directSample_isSome (r : Rom) (a : Word) (pos : BitVec 64) :
    (directSample r a pos).isSome = r.mapped (a.toNat + sampleIndex pos) := by
  rw [directSample, Option.isSome_map, Rom.byte?_isSome]

/-- A wave of 16 bytes holds the 32 nibbles of a cycle, and a sample index is below the length: the read of a live channel
cannot fail (R126, R128). -/
theorem Channel.Inv.sample_isSome {r : Rom} {c : Channel} (h : c.Inv r) (hlive : c.live = true) :
    (c.sample r).isSome = true := by
  have hplay := h.playable hlive
  have hpos := h.position hlive
  unfold Channel.PositionOk at hpos
  unfold Channel.sample
  cases hkind : c.voice.kind with
  | square => rfl
  | noise => rfl
  | programmableWave w =>
    rw [hkind] at hplay
    have hphase := c.phase.isLt
    rw [waveSample_isSome]
    exact hplay _ (by omega)
  | directSample =>
    rw [hkind] at hplay hpos
    obtain ⟨-, hmapped, -⟩ := hplay
    rw [directSample_isSome]
    exact hmapped _ hpos

/-! ### The frame sums (R129, R130) -/

/-- R130: what a channel adds to one side. -/
theorem contribution_bounds {x : Int} {g : Nat} (hx : -128 ≤ x ∧ x ≤ 127) (hg : g ≤ 251) :
    -32128 ≤ x * g ∧ x * g ≤ 31877 := by
  have hg0 : (0 : Int) ≤ g := Int.natCast_nonneg g
  have hlo := mul_le_mul_of_nonneg_right hx.1 hg0
  have hhi := mul_le_mul_of_nonneg_right hx.2 hg0
  omega

/-- The sums of a list with one more channel: an Idle one adds nothing, a live one its sample times its gains. -/
theorem mixSum_cons_cases {r : Rom} {c : Channel} {rest : List Channel} {accL accR : Int}
    (h : mixSum r (c :: rest) = some (accL, accR)) :
    mixSum r rest = some (accL, accR) ∨
      ∃ x restL restR, mixSum r rest = some (restL, restR) ∧ c.sample r = some x ∧
        accL = x * c.gL.toNat + restL ∧ accR = x * c.gR.toNat + restR := by
  rw [mixSum] at h
  split at h
  next => cases h
  next restL restR hrest =>
    split at h
    · split at h
      next => cases h
      next x hx =>
        obtain ⟨rfl, rfl⟩ := Prod.mk.inj (Option.some.inj h)
        exact .inr ⟨x, restL, restR, hrest, hx, rfl, rfl⟩
    · exact .inl (hrest.trans h)

/-- R130 for any number of channels. -/
theorem mixSum_bounds {r : Rom} {l : List Channel} {accL accR : Int}
    (hgains : ∀ c ∈ l, c.gL.toNat ≤ 251 ∧ c.gR.toNat ≤ 251) (h : mixSum r l = some (accL, accR)) :
    (-32128 * (l.length : Int) ≤ accL ∧ accL ≤ 31877 * l.length) ∧
      -32128 * (l.length : Int) ≤ accR ∧ accR ≤ 31877 * l.length := by
  induction l generalizing accL accR with
  | nil =>
    obtain ⟨rfl, rfl⟩ := Prod.mk.inj (Option.some.inj h)
    decide
  | cons c rest ih =>
    obtain ⟨⟨hgL, hgR⟩, hrestGains⟩ := List.forall_mem_cons.mp hgains
    rw [List.length_cons, Nat.cast_succ]
    obtain hrest | ⟨x, restL, restR, hrest, hx, rfl, rfl⟩ := mixSum_cons_cases h
    · have hsum := ih hrestGains hrest
      omega
    · have hsum := ih hrestGains hrest
      have hL := contribution_bounds (Channel.sample_bounds hx) hgL
      have hR := contribution_bounds (Channel.sample_bounds hx) hgR
      omega

/-- The sums are there when every live channel has a sample. -/
theorem mixSum_isSome {r : Rom} {l : List Channel} (h : ∀ c ∈ l, c.live = true → (c.sample r).isSome = true) :
    ∃ accL accR, mixSum r l = some (accL, accR) := by
  induction l with
  | nil => exact ⟨0, 0, rfl⟩
  | cons c rest ih =>
    obtain ⟨hc, hrest⟩ := List.forall_mem_cons.mp h
    obtain ⟨restL, restR, hsum⟩ := ih hrest
    rw [mixSum, hsum]
    cases hlive : c.live with
    | false => exact ⟨restL, restR, rfl⟩
    | true =>
      obtain ⟨x, hx⟩ := Option.isSome_iff_exists.mp (hc hlive)
      rw [hx]
      exact ⟨_, _, rfl⟩

/-! ### The mix of a frame (R129) -/

/-- What holds at every index of a table holds of every entry of its list. -/
theorem forall_mem_toList {α : Type} {n : Nat} {v : Vector α n} {p : α → Prop} (h : ∀ j : Fin n, p v[j]) :
    ∀ a ∈ v.toList, p a := by
  intro a ha
  obtain ⟨j, hj, rfl⟩ := Vector.getElem_of_mem (Vector.mem_toList_iff.mp ha)
  exact h ⟨j, hj⟩

/-- Under the invariant a mix does not fail. -/
theorem State.Inv.mix_eq_some {s : State} (h : s.Inv) : ∃ u l r, s.mix = some (u, l, r) := by
  obtain ⟨accL, accR, hsum⟩ := mixSum_isSome (forall_mem_toList fun j => (h.channels j).sample_isSome)
  rw [State.mix, hsum]
  exact ⟨_, _, _, rfl⟩

theorem mix_playing {s u : State} {l r : Half} (h : s.mix = some (u, l, r)) : u.playing = s.playing := by
  obtain ⟨_, _, -, rfl, -, -⟩ := mix_cases h
  rfl

theorem mix_answers {s u : State} {l r : Half} (h : s.mix = some (u, l, r)) : u.answers = s.answers := by
  obtain ⟨_, _, -, rfl, -, -⟩ := mix_cases h
  rfl

/-- The frame of a silent block whose reverb is off is (0, 0). -/
theorem mix_silent {s u : State} {l r : Half} (h : s.mix = some (u, l, r))
    (hidle : ∀ j : ChanIdx, s.ch[j].live = false) (hoff : s.song.reverbOn = false) : l = 0 ∧ r = 0 := by
  obtain ⟨accL, accR, hsum, -, rfl, rfl⟩ := mix_cases h
  rw [mixSum_idle s.rom _ (forall_mem_toList hidle)] at hsum
  obtain ⟨rfl, rfl⟩ := Prod.mk.inj (Option.some.inj hsum)
  simp only [State.outputFrame, hoff]
  exact ⟨rfl, rfl⟩

/-! ### RenderFrame at its loop test (R76) -/

theorem step_boundary {s : State} (hwf : Config.wellFormed s.sampleRate s.rom.size = true)
    (hcontrol : s.control = .boundary) : step s = stepBoundary s := by
  rw [step, if_pos hwf, hcontrol]

theorem stepBoundary_stopped {s : State} (hplaying : s.playing = false) :
    stepBoundary s = .next (s.answer .noFrame) := by
  rw [stepBoundary, hplaying]
  rfl

theorem stepBoundary_frame {s u : State} {l r : Half} (hplaying : s.playing = true) (hdue : s.tickDue = false)
    (hmix : s.mix = some (u, l, r)) : stepBoundary s = .next (u.accumulate.answer (.frame l r)) := by
  rw [stepBoundary, hplaying, hdue, hmix]
  rfl

/-! ### Where a RenderFrame ends (R70, R76, R80, R141) -/

theorem State.nextTrack_control_ne_idle (s : State) : s.nextTrack.control ≠ .idle := by
  obtain ⟨_, -, -, h⟩ | ⟨-, h⟩ := nextTrack_cases s <;> rw [h] <;> exact Control.noConfusion

theorem State.enterTrack_control_ne_idle (s : State) : s.enterTrack.control ≠ .idle := by
  obtain ⟨-, -, h⟩ | ⟨-, -, h⟩ | ⟨-, h⟩ := enterTrack_cases s
  · rw [h]; exact Control.noConfusion
  · rw [h]; exact s.nextTrack_control_ne_idle
  · rw [h]; exact Control.noConfusion

/-- No instruction ends the RenderFrame that it runs in. -/
theorem exec_control {i : Instr} {s t : State} (h : exec i s = .next t) : t.control = s.control := by
  obtain ⟨e, rfl⟩ | ⟨_, _, _, _, rfl⟩ := exec_next_shape h
  · exact s.takeError_control e
  · rfl

/-- A RenderFrame that a step ends has returned a frame and the session plays, or NONE and no session does. -/
def State.CompletesFrom (t s : State) : Prop :=
  (t.playing = true ∧ ∃ l r : Half, t.answers = .frame l r :: s.answers) ∨
    (t.playing = false ∧ t.answers = .noFrame :: s.answers)

theorem stepBoundary_completes {s t : State} (h : stepBoundary s = .next t) (hidle : t.control = .idle) :
    t.CompletesFrom s := by
  obtain ⟨hstopped, rfl⟩ | ⟨-, -, -, rfl⟩ | ⟨-, -, -, rfl⟩ | ⟨hplaying, -, u, l, r, hmix, rfl⟩ :=
    stepBoundary_next_cases h
  · exact .inr ⟨hstopped, rfl⟩
  · exact .inr ⟨rfl, rfl⟩
  · cases hidle
  · exact .inl ⟨(mix_playing hmix).trans hplaying, l, r, congrArg _ (mix_answers hmix)⟩

theorem stepPull_completes {s t : State} (hcontrol : s.control = .pull) (h : stepPull s = .next t)
    (hidle : t.control = .idle) : t.CompletesFrom s := by
  obtain ⟨hstopped, rfl⟩ | ⟨-, -, i, -, hexec⟩ | ⟨-, -, e, -, rfl⟩ | ⟨-, -, rfl⟩ := stepPull_next_cases h
  · exact .inr ⟨hstopped, rfl⟩
  · rw [exec_control hexec, hcontrol] at hidle
    cases hidle
  · rw [State.takeError_control, hcontrol] at hidle
    cases hidle
  · exact absurd hidle s.nextTrack_control_ne_idle

/-- A step that ends a RenderFrame is one at its loop test or at a pull loop. -/
theorem step_completes {s t : State} (hbusy : s.control ≠ .idle) (h : step s = .next t) (hidle : t.control = .idle) :
    t.CompletesFrom s := by
  obtain ⟨-, ⟨hcontrol, -⟩ | ⟨-, h⟩ | ⟨-, rfl⟩ | ⟨hcontrol, h⟩ | ⟨-, rfl⟩⟩ := step_next_cases h
  · exact absurd hcontrol hbusy
  · exact stepBoundary_completes h hidle
  · exact absurd hidle s.enterTrack_control_ne_idle
  · exact stepPull_completes hcontrol h hidle
  · cases s.finishTick_control.symm.trans hidle

/-! ### The statements -/

/-- Settles O38: `amplitude_le`, and the gains by what they share out; a contribution by the bounds of a sample; the sums
by `mixSum_bounds` for twelve channels. -/
theorem gainsAndSumsAreBounded : Obligations.GainsAndSumsAreBounded := by
  refine ⟨fun env vel ve pan henv hvel hve hpan => ?gains,
    fun r c x g hx hg => contribution_bounds (Channel.sample_bounds hx) hg, fun r ch accL accR hgains h => ?sums⟩
  case gains =>
    have hamp := amplitude_le henv hvel hve
    have hshare := gainLeft_add_gainRight_le (amplitude env vel ve) (hpan.trans (by decide : 127 ≤ 128))
    omega
  case sums =>
    have hbounds := mixSum_bounds (forall_mem_toList hgains) h
    rwa [Vector.length_toList] at hbounds

/-- Settles O51: a session's mix does not fail under the invariant (`State.Inv.mix_eq_some`), and the end of any
RenderFrame is `step_completes`. -/
theorem playingAlwaysGivesAFrame : Obligations.PlayingAlwaysGivesAFrame := by
  refine ⟨fun s hinv hcontrol => ?_, fun s t => step_completes⟩
  rw [step_boundary hinv.config hcontrol]
  refine ⟨fun hplaying hdue => ?_, fun hstopped => ⟨_, stepBoundary_stopped hstopped, rfl, rfl⟩⟩
  obtain ⟨u, l, r, hmix⟩ := hinv.mix_eq_some
  exact ⟨_, stepBoundary_frame hplaying hdue hmix, rfl, (mix_playing hmix).trans hplaying, l, r,
    congrArg _ (mix_answers hmix), mix_silent hmix⟩

end Sys2Proof.Machine
end

