-- ==== Sys2Proof/Proofs/LoadErrors.lean ====
section
/-! PROOF. Load errors (spec/60_exceptions.md, R144): every read and check of the load names its error, so the kinds a
load can fail with are read off its steps; STATUS shows the flags and the code that `failLoad` leaves, and without a
session a RenderFrame returns NONE in two steps. -/

namespace Sys2Proof.Machine

/-! ### The STATUS word (R33) -/

/-- The session flags, in the order of STATUS bits 0 to 5. -/
def State.sessionFlags (s : State) : List Bool :=
  [s.playing, s.ended, s.aborted, s.trackErr, s.stopReq, s.loadErr]

theorem State.maskValue_sessionFlags_lt (s : State) : maskValue s.sessionFlags < 2 ^ 6 := maskValue_lt s.sessionFlags

theorem State.readReg_status_toNat (s : State) :
    (s.readReg 0x04).toNat = maskValue s.sessionFlags + 256 * (s.err.code.toNat + 256 * s.err.track.val) := by
  have hflags := s.maskValue_sessionFlags_lt
  rw [State.readReg_status, State.statusValue, leValue_word, ← State.sessionFlags]
  simp only [BitVec.toNat_ofNat, BitVec.reduceToNat]
  omega

/-- The low byte of STATUS holds the session flags. -/
theorem State.readReg_status_flag (s : State) {k : Nat} (hk : k < 8) :
    (s.readReg 0x04).getLsbD k = s.sessionFlags.getD k false := by
  have hflags := s.maskValue_sessionFlags_lt
  have hlow : (s.readReg 0x04).toNat % 2 ^ 8 = maskValue s.sessionFlags := by
    rw [State.readReg_status_toNat]
    omega
  rw [← maskValue_testBit, ← hlow, Nat.testBit_mod_two_pow, decide_eq_true hk, Bool.true_and, BitVec.testBit_toNat]

/-- Bits 11..8 of STATUS are ERR_CODE. -/
theorem State.readReg_status_code (s : State) : (s.readReg 0x04).extractLsb' 8 4 = s.err.code := by
  have hflags := s.maskValue_sessionFlags_lt
  apply BitVec.eq_of_toNat_eq
  rw [BitVec.extractLsb'_toNat, State.readReg_status_toNat, Nat.shiftRight_eq_div_pow]
  omega

/-! ### The kinds of error a load can raise (R73) -/

/-- The kinds of R144, whose codes are 1, 2 and 3. -/
def LoadError.HasLoadKind (e : LoadError) : Prop := e.kind = .outOfRange ∨ e.kind = .parse ∨ e.kind = .configuration

/-- A part of the load whose errors are all of the kinds of R144. -/
def RaisesLoadKinds {α : Type} (m : Except LoadError α) : Prop := ∀ e, m = .error e → e.HasLoadKind

section Parts

variable {α β : Type} {x : LoadError}

theorem RaisesLoadKinds.ok (y : α) : RaisesLoadKinds (.ok y) := fun _ h => by cases h

theorem RaisesLoadKinds.bind {m : Except LoadError α} {f : α → Except LoadError β} (hm : RaisesLoadKinds m)
    (hf : ∀ y, RaisesLoadKinds (f y)) : RaisesLoadKinds (m >>= f) := fun e h => by
  obtain h | ⟨y, -, h⟩ := load_bind_error h
  · exact hm e h
  · exact hf y e h

theorem LoadError.HasLoadKind.read (hx : x.HasLoadKind) (r : Rom) (a n : Nat) : RaisesLoadKinds (loadRead r a n x) :=
  fun _ h => loadRead_error h ▸ hx

theorem LoadError.HasLoadKind.check (hx : x.HasLoadKind) (b : Bool) : RaisesLoadKinds (loadCheck b x) :=
  fun _ h => loadCheck_error h ▸ hx

end Parts

theorem hasLoadKind_outOfRange (a : Nat) : LoadError.HasLoadKind ⟨.outOfRange, a⟩ := .inl rfl
theorem hasLoadKind_parse (a : Nat) : LoadError.HasLoadKind ⟨.parse, a⟩ := .inr (.inl rfl)
theorem hasLoadKind_configuration (a : Nat) : LoadError.HasLoadKind ⟨.configuration, a⟩ := .inr (.inr rfl)

theorem loadPointers_raises (r : Rom) (h i n : Nat) : RaisesLoadKinds (loadPointers r h i n) := by
  induction n generalizing i with
  | zero => exact .ok []
  | succ n ih =>
    have hkind := hasLoadKind_configuration (h + 8 + 4 * i)
    exact (hkind.read r _ _).bind fun p => (hkind.check _).bind fun _ => (ih (i + 1)).bind fun _ => .ok _

theorem loadTracks_raises (r : Rom) (h prio rev n t0 inst : Nat) :
    RaisesLoadKinds (loadTracks r h prio rev n t0 inst) :=
  ((hasLoadKind_configuration h).check _).bind fun _ => (loadPointers_raises r h 0 n).bind fun _ =>
    ((hasLoadKind_parse (h + 4)).check _).bind fun _ => .ok _

theorem loadHeader_raises (r : Rom) (e h prio rev : Nat) : RaisesLoadKinds (loadHeader r e h prio rev) :=
  have hkind := hasLoadKind_configuration e
  (hkind.check _).bind fun _ => (hkind.read r _ _).bind fun n => (hkind.read r _ _).bind fun t0 =>
    (hkind.read r _ _).bind fun inst => loadTracks_raises r h prio rev n t0 inst

theorem loadSong_raises (r : Rom) (t k : Nat) : RaisesLoadKinds (loadSong r t k) :=
  ((hasLoadKind_outOfRange t).read r _ _).bind fun _ => ((hasLoadKind_configuration t).check _).bind fun _ =>
    ((hasLoadKind_outOfRange _).read r _ _).bind fun h => ((hasLoadKind_outOfRange _).read r _ _).bind fun prio =>
      ((hasLoadKind_outOfRange _).read r _ _).bind fun rev => loadHeader_raises r (t + 4 + 8 * k) h prio rev

/-! ### A START whose load fails (R72) -/

theorem State.start_of_loadError {s : State} {e : LoadError}
    (h : loadSong s.rom s.songTable.toNat s.songIndex.toNat = .error e) : s.start = s.clearSession.failLoad e := by
  rw [State.start, h]

/-- The record of a load error; of the address only what fits the register is stated (log entry 7). -/
theorem State.failLoad_err (s : State) (e : LoadError) :
    (s.failLoad e).err.code = e.kind.code ∧ (s.failLoad e).err.track = 0 ∧ (s.failLoad e).err.opcode = 0 ∧
      (e.addr < 2 ^ 32 → (s.failLoad e).err.addr.toNat = e.addr) := by
  refine ⟨rfl, rfl, rfl, fun haddr => ?_⟩
  have hrecord : (s.failLoad e).err.addr = BitVec.ofNat 32 e.addr := if_pos haddr
  rw [hrecord, BitVec.toNat_ofNat, Nat.mod_eq_of_lt haddr]

/-! ### RenderFrame without a session (R76) -/

theorem step_idle_renderFrame {s : State} {rest : List HostOp}
    (hwf : Config.wellFormed s.sampleRate s.rom.size = true) (hidle : s.control = .idle)
    (hpending : s.pending = .renderFrame :: rest) :
    step s = .next { s with pending := rest, control := .boundary } := by
  rw [step, if_pos hwf, hidle]
  simp only [stepIdle, hpending]
  rfl

theorem step_boundary_stopped {s : State} (hwf : Config.wellFormed s.sampleRate s.rom.size = true)
    (hcontrol : s.control = .boundary) (hstopped : s.playing = false) : step s = .next (s.answer .noFrame) :=
  (step_boundary hwf hcontrol).trans (stepBoundary_stopped hstopped)

theorem run_two {s t u : State} (hfirst : step s = .next t) (hsecond : step t = .next u) :
    Sys2Proof.core.run 2 s = .next u := by
  have hs : Sys2Proof.core.step s = .next t := hfirst
  have ht : Sys2Proof.core.step t = .next u := hsecond
  simp only [Host.Core.run, hs, ht]

/-- One step begins the RenderFrame and the next returns NONE. -/
theorem run_renderFrame_stopped {s : State} {rest : List HostOp}
    (hwf : Config.wellFormed s.sampleRate s.rom.size = true) (hidle : s.control = .idle)
    (hpending : s.pending = .renderFrame :: rest) (hstopped : s.playing = false) :
    Sys2Proof.core.run 2 s =
      .next (({ s with pending := rest, control := .boundary } : State).answer .noFrame) :=
  run_two (step_idle_renderFrame hwf hidle hpending) (step_boundary_stopped hwf rfl hstopped)

/-! ### The statement -/

/-- Settles O47: the START is `failLoad` on a cleared session, whose flags and record STATUS shows; the kinds are those of
`loadSong_raises`; there is no session, so `run_renderFrame_stopped` gives the answer. -/
theorem loadErrorIsReported : Obligations.LoadErrorIsReported := by
  intro s e rest hwf hload
  rw [State.start_of_loadError hload]
  obtain ⟨hcode, htrack, hopcode, haddr⟩ := s.clearSession.failLoad_err e
  refine ⟨⟨?playing, ?aborted, ?loadErr, ?code, loadSong_raises _ _ _ e hload⟩, htrack, hopcode, haddr, ?frame⟩
  case playing => exact State.readReg_status_flag _ (by decide)
  case aborted => exact State.readReg_status_flag _ (by decide)
  case loadErr => exact State.readReg_status_flag _ (by decide)
  case code => rw [State.readReg_status_code, hcode]
  case frame => exact ⟨_, run_renderFrame_stopped hwf rfl rfl rfl, rfl, rfl, rfl⟩

end Sys2Proof.Machine
end

