-- ==== Sys2Proof/Proofs/Reset.lean ====
section
/-! PROOF. Power-on reset (spec/70_reset_and_hazards.md, R155): the fields of the reset state and what its registers
show; then a block without a session: its RenderFrames return NONE, two steps each, and only a START whose load succeeds
begins a session. -/

namespace Sys2Proof.Machine

/-! ### The reset state -/

section PowerOn

variable (sampleRate : Nat) (rom : Rom)

theorem State.powerOn_trk_get (i : TrackIdx) : (State.powerOn sampleRate rom).trk[i] = Track.zero := trackTable_get _ i

theorem State.powerOn_ch_get (j : ChanIdx) : (State.powerOn sampleRate rom).ch[j] = Channel.zero := chanTable_get _ j

/-- A register shows a field of the reset state, or a view of such fields; none of them depends on the parameters. -/
theorem State.powerOn_readReg (off : Nat) : (State.powerOn sampleRate rom).readReg off = 0 := by
  unfold State.readReg
  split <;> rfl

end PowerOn

/-! ### Any number of RenderFrames without a session (R76) -/

/-- A run that is not stopped goes on from where it has got to. -/
theorem run_add_of_run {k : Nat} {s t : State} (h : Sys2Proof.core.run k s = .next t) (m : Nat) :
    Sys2Proof.core.run (k + m) s = Sys2Proof.core.run m t := by
  induction k generalizing s with
  | zero => rw [Nat.zero_add, Host.Outcome.next.inj h]
  | succ k ih =>
    rw [Nat.succ_add]
    cases hstep : Sys2Proof.core.step s with
    | next u =>
      simp only [Host.Core.run, hstep] at h ⊢
      exact ih h
    | fault r => simp only [Host.Core.run, hstep, reduceCtorEq] at h
    | refused r => simp only [Host.Core.run, hstep, reduceCtorEq] at h

theorem run_renderFrames_stopped {n : Nat} {s : State} {rest : List HostOp}
    (hwf : Config.wellFormed s.sampleRate s.rom.size = true) (hidle : s.control = .idle) (hstopped : s.playing = false)
    (hpending : s.pending = List.replicate n .renderFrame ++ rest) :
    AnswersNext (Sys2Proof.core.run (2 * n) s) fun u =>
      u.answers = List.replicate n .noFrame ++ s.answers ∧ u.control = .idle ∧ u.playing = false ∧
        u.pending = rest := by
  induction n generalizing s with
  | zero => exact ⟨s, rfl, rfl, hidle, hstopped, hpending⟩
  | succ n ih =>
    have hrun := run_add_of_run (run_renderFrame_stopped hwf hidle hpending hstopped) (2 * n)
    rw [Nat.mul_succ, Nat.add_comm, hrun, List.replicate_succ', List.append_assoc]
    exact ih hwf rfl hstopped rfl

/-! ### What begins a session (R71, R72) -/

theorem State.start_begins_or_stopped (s : State) :
    (∃ l, loadSong s.rom s.songTable.toNat s.songIndex.toNat = .ok l) ∨ s.start.playing = false := by
  obtain ⟨e, -, hstart⟩ | ⟨l, hload, -⟩ := start_cases s
  · exact .inr (hstart ▸ rfl)
  · exact .inl ⟨l, hload⟩

section Stopped

variable {s : State}

theorem State.writeCtrl_begins_or_stopped (h : s.playing = false) (v : Word) :
    (v.getLsbD 0 = true ∧ ∃ l, loadSong s.rom s.songTable.toNat s.songIndex.toNat = .ok l) ∨
      (s.writeCtrl v).playing = false := by
  obtain ⟨hbit, hw⟩ | ⟨-, -, -, hw⟩ | ⟨-, -, hw⟩ := writeCtrl_cases s v <;> rw [hw]
  · exact (State.start_begins_or_stopped { s with policy := v.getLsbD 2 }).imp_left (⟨hbit, ·⟩)
  · exact .inr h
  · exact .inr h

theorem State.writeReg_begins_or_stopped (h : s.playing = false) (off : Nat) (v : Word) :
    (off = 0 ∧ v.getLsbD 0 = true ∧ ∃ l, loadSong s.rom s.songTable.toNat s.songIndex.toNat = .ok l) ∨
      (s.writeReg off v).playing = false := by
  obtain ⟨hoff, hw⟩ | ⟨-, hw⟩ | ⟨-, hw⟩ | hw := writeReg_cases s off v <;> rw [hw]
  · exact (State.writeCtrl_begins_or_stopped h v).imp_left (⟨hoff, ·⟩)
  · exact .inr h
  · exact .inr h
  · exact .inr h

/-- A host operation on a block without a session is a START whose load succeeds, or there is still no session. -/
theorem State.perform_begins_or_stopped (h : s.playing = false) (op : HostOp) :
    (∃ size v l, op = .writeReg 0 size v ∧ v.getLsbD 0 = true ∧
        loadSong s.rom s.songTable.toNat s.songIndex.toNat = .ok l) ∨
      ((s.perform op).playing = false ∧ ((s.perform op).control = .idle ∨ (s.perform op).control = .boundary)) := by
  cases op with
  | readReg off size => exact .inr ⟨h, .inl rfl⟩
  | renderFrame => exact .inr ⟨h, .inr rfl⟩
  | writeReg off size v =>
    obtain ⟨rfl, hbit, l, hload⟩ | hw := State.writeReg_begins_or_stopped h off v
    · exact .inl ⟨size, v, l, rfl, hbit, hload⟩
    · exact .inr ⟨hw, .inl rfl⟩

theorem step_idle (hwf : Config.wellFormed s.sampleRate s.rom.size = true) (hidle : s.control = .idle) :
    step s = stepIdle s := by
  rw [step, if_pos hwf, hidle]

/-- One step of a block without a session, between host operations or at the loop test of a RenderFrame. -/
theorem step_begins_or_stopped {t : State} (h : s.playing = false)
    (hcontrol : s.control = .idle ∨ s.control = .boundary) (hstep : step s = .next t) :
    (∃ size v rest l, s.control = .idle ∧ s.pending = .writeReg 0 size v :: rest ∧ v.getLsbD 0 = true ∧
        loadSong s.rom s.songTable.toNat s.songIndex.toNat = .ok l) ∨
      (t.playing = false ∧ (t.control = .idle ∨ t.control = .boundary) ∧
        (s.control = .boundary → t.control = .idle ∧ t.answers = .noFrame :: s.answers)) := by
  obtain ⟨hwf, -⟩ := step_next_cases hstep
  obtain hidle | hboundary := hcontrol
  · have hnot (hb : s.control = .boundary) : t.control = .idle ∧ t.answers = .noFrame :: s.answers := by
      cases hidle.symm.trans hb
    obtain ⟨-, rfl⟩ | ⟨op, rest, hpending, -, rfl⟩ := stepIdle_next_cases ((step_idle hwf hidle).symm.trans hstep)
    · exact .inr ⟨h, .inl hidle, hnot⟩
    · obtain ⟨size, v, l, rfl, hbit, hload⟩ | ⟨hstopped, hbetween⟩ :=
        State.perform_begins_or_stopped (s := { s with pending := rest }) h op
      · exact .inl ⟨size, v, rest, l, hidle, hpending, hbit, hload⟩
      · exact .inr ⟨hstopped, hbetween, hnot⟩
  · obtain rfl := Host.Outcome.next.inj ((step_boundary_stopped hwf hboundary h).symm.trans hstep)
    exact .inr ⟨h, .inl rfl, fun _ => ⟨rfl, rfl⟩⟩

end Stopped

/-! ### The statement -/

/-- Settles O48: the reset state field by field, its registers by `powerOn_readReg`, its RenderFrames by
`run_renderFrames_stopped`, and the step without a session by `step_begins_or_stopped`. -/
theorem powerOnResetValues : Obligations.PowerOnResetValues := by
  intro sampleRate rom
  refine ⟨⟨rfl, rfl, rfl, rfl, rfl, rfl, rfl, rfl, rfl, rfl⟩, rfl, rfl, State.powerOn_trk_get sampleRate rom,
    fun j => ?channels, rfl, rfl, rfl, rfl, rfl, rfl, State.powerOn_readReg sampleRate rom,
    fun n rest hwf => ?frames, fun u t hstopped hcontrol hstep => ?step⟩
  case channels =>
    rw [State.powerOn_ch_get]
    rfl
  case frames =>
    obtain ⟨u, hrun, hanswers, hleft⟩ := run_renderFrames_stopped (n := n) (rest := rest)
      (s := { State.powerOn sampleRate rom with pending := List.replicate n .renderFrame ++ rest }) hwf rfl rfl rfl
    exact ⟨u, hrun, hanswers.trans (List.append_nil _), hleft⟩
  case step => exact step_begins_or_stopped hstopped hcontrol hstep

end Sys2Proof.Machine
end

