-- ==== Sys2Proof/Proofs/Instructions.lean ====
section
/-! PROOF. The instructions (spec/41_note_events.md to spec/43_control_flow.md): most write the executing track's register
file and nothing else, which is said once (`onlyCurTrack_setCur`); an error writes the record and then aborts or halts
(spec/60_exceptions.md, R137 to R142); and no instruction touches the register file of another track (R25). -/

namespace Sys2Proof.Machine

/-! ### Writing the executing track alone -/

/-- What the frame of an instruction leaves open are the tracks, the channels, `tempo` and `alloc_seq`. -/
theorem sameElsewhere_with (s : State) (trk : Vector Track 16) (ch : Vector Channel 12) (tempo : Byte) (seq : Word) :
    SameElsewhere s { s with trk := trk, ch := ch, tempo := tempo, allocSeq := seq } := by
  constructor <;> intros <;> rfl

theorem curTrackBecomes_setCur (s : State) (u : Track) : CurTrackBecomes s (s.setCur u) u :=
  ⟨table_set_get_self s.trk s.cur u, fun _ hj => s.setCur_other u hj⟩

theorem onlyCurTrack_setCur (s : State) (u : Track) : OnlyCurTrack s (s.setCur u) u :=
  ⟨curTrackBecomes_setCur s u, rfl, rfl, rfl, sameElsewhere_with s _ _ _ _⟩

/-- An instruction that answers by writing the executing track's register file. -/
theorem answersNext_onlyCurTrack {o : Host.Outcome State Fault Refusal} {s : State} {u : Track}
    (h : o = .next (s.setCur u)) : AnswersNext o fun t => OnlyCurTrack s t u := ⟨_, h, onlyCurTrack_setCur s u⟩

/-! ### Control flow, case by case (R107 to R109) -/

section ControlFlow

variable {s : State} {addr : Word}

theorem exec_jump_mapped (h : s.rom.mapped addr.toNat = true) :
    exec (.jump addr) s = .next (s.setCur { s.curTrack with cursor := addr }) := if_pos h

theorem exec_jump_unmapped (h : s.rom.mapped addr.toNat = false) :
    exec (.jump addr) s = .next (s.takeError .outOfRange) := if_neg (Bool.not_eq_true _ ▸ h)

theorem exec_call_full (h : s.curTrack.sp.toNat = Config.callDepth) :
    exec (.call addr) s = .next (s.takeError .stackOverflow) := if_pos h

theorem exec_call_mapped (hroom : s.curTrack.sp.toNat < Config.callDepth) (h : s.rom.mapped addr.toNat = true) :
    exec (.call addr) s = .next (s.setCur (s.curTrack.enterCall addr)) := (if_neg hroom.ne).trans (if_pos h)

theorem exec_call_unmapped (hroom : s.curTrack.sp.toNat < Config.callDepth) (h : s.rom.mapped addr.toNat = false) :
    exec (.call addr) s = .next (s.takeError .outOfRange) :=
  (if_neg hroom.ne).trans (if_neg (Bool.not_eq_true _ ▸ h))

theorem exec_ret_empty (h : s.curTrack.sp = 0) : exec .ret s = .next (s.takeError .stackUnderflow) := if_pos h

theorem exec_ret_nonempty (h : s.curTrack.sp ≠ 0) : exec .ret s = .next (s.setCur s.curTrack.leaveCall) := if_neg h

end ControlFlow

/-! ### The stack slots (R108) -/

/-- A CALL writes the slot at `sp` and no other. -/
theorem Track.enterCall_stack_get (t : Track) (addr : Word) (k : Fin 3) :
    (t.enterCall addr).stack[k] = if k.val = t.sp.toNat then t.cursor + 5 else t.stack[k] :=
  (Vector.getElem_setIfInBounds k.isLt).trans (if_congr eq_comm rfl rfl)

/-- A RET to slot `k` leaves `sp` there. -/
theorem Track.leaveCall_of_sp {t : Track} {k : Fin 3} (h : t.sp.toNat = k.val + 1) :
    t.leaveCall = { t with sp := BitVec.ofNat 2 k.val, cursor := t.stack[k] } := by
  have hk := k.isLt
  have hsp : t.sp - 1 = BitVec.ofNat 2 k.val := by
    apply BitVec.eq_of_toNat_eq
    rw [BitVec.toNat_ofNat, Nat.mod_eq_of_lt (by omega)]
    bv_omega
  have hslot : t.stackAt (t.sp - 1).toNat = t.stack[k] := by
    rw [hsp, BitVec.toNat_ofNat, Nat.mod_eq_of_lt (by omega), Track.stackAt_get]
  rw [Track.leaveCall, hslot, hsp]

/-! ### Taking an error (R137 to R142) -/

/-- Which errors end the session, in the statement's words. -/
theorem State.errorIsFatal_iff (s : State) (e : ErrKind) :
    s.errorIsFatal e = true ↔ e = .parse ∨ e = .stackOverflow ∨ e = .stackUnderflow ∨ s.policy = true := by
  cases e <;> simp [State.errorIsFatal, ErrKind.alwaysFatal]

/-- The record is taken before the outcome and no outcome writes it. -/
theorem State.takeError_err (s : State) (e : ErrKind) :
    (s.takeError e).err = ⟨e.code, s.cur, s.curTrack.cursor, (s.rom.byte? s.curAddr).getD 0⟩ := by
  obtain ⟨-, h⟩ | ⟨-, h⟩ := takeError_cases s e <;> rw [h] <;> rfl

theorem State.takeError_of_fatal {s : State} {e : ErrKind} (h : s.errorIsFatal e = true) :
    s.takeError e = (s.recordError e).abortSession := if_pos h

theorem State.takeError_of_not_fatal {s : State} {e : ErrKind} (h : s.errorIsFatal e = false) :
    s.takeError e = (s.recordError e).haltTrack := if_neg (Bool.not_eq_true _ ▸ h)

/-- An abort frees every channel and writes nothing else of it (R141). -/
theorem State.abortSession_ch_get (s : State) (j : ChanIdx) : s.abortSession.ch[j] = { s.ch[j] with state := .idle } :=
  chanTable_get (fun j => s.ch[j].stop) j

/-! ### The register file of another track (R25) -/

/-- The state with another register file of the track `j`. -/
def State.putTrack (s : State) (j : TrackIdx) (u : Track) : State := { s with trk := s.trk.set j.val u j.isLt }

section PutTrack

variable {s : State} {j : TrackIdx} (hj : j ≠ s.cur) (u : Track)
include hj

theorem State.putTrack_curTrack : (s.putTrack j u).curTrack = s.curTrack := table_set_get_ne s.trk u hj.symm

/-- Writing the executing track's register file goes past the file of another track. -/
theorem State.putTrack_setCur (f : Track → Track) :
    (s.putTrack j u).setCur (f (s.putTrack j u).curTrack) = (s.setCur (f s.curTrack)).putTrack j u := by
  rw [State.putTrack_curTrack hj]
  have hne : j.val ≠ s.cur.val := fun h => hj (Fin.ext h)
  exact congrArg (fun trk => { s with trk := trk }) (Vector.set_comm u _ hne)

theorem State.putTrack_recordError (e : ErrKind) :
    (s.putTrack j u).recordError e = (s.recordError e).putTrack j u := by
  rw [State.recordError, State.curAddr, State.putTrack_curTrack hj]
  rfl

theorem State.putTrack_takeError (e : ErrKind) : (s.putTrack j u).takeError e = (s.takeError e).putTrack j u := by
  obtain hfatal | hfatal := (s.errorIsFatal e).eq_false_or_eq_true
  · rw [State.takeError_of_fatal hfatal, State.takeError_of_fatal (s := s.putTrack j u) hfatal,
      State.putTrack_recordError hj]
    rfl
  · rw [State.takeError_of_not_fatal hfatal, State.takeError_of_not_fatal (s := s.putTrack j u) hfatal,
      State.putTrack_recordError hj]
    exact congrArg (fun t : State => { t with trackErr := true })
      (State.putTrack_setCur (s := s.recordError e) hj u fun t => { t with active := false, halted := true })

/-- An instruction does the same beside another register file of a track that does not execute it. -/
theorem exec_putTrack {i : Instr} {t : State} (h : exec i s = .next t) :
    exec i (s.putTrack j u) = .next (t.putTrack j u) := by
  have hcur := State.putTrack_curTrack hj u
  have herror (e : ErrKind) :=
    congrArg (Host.Outcome.next (φ := Fault) (ρ := Refusal)) (State.putTrack_takeError hj u e)
  have hset (f : Track → Track) :=
    congrArg (Host.Outcome.next (φ := Fault) (ρ := Refusal)) (State.putTrack_setCur hj u f)
  cases i with
  | rest dur => obtain rfl := execRest_next h; exact hset fun t => { t.stepOver 2 with due := dur }
  | eot => obtain rfl := execEot_next h; exact hset fun t => { t with active := false }
  | jump a =>
    obtain ⟨hm, rfl⟩ | ⟨hm, rfl⟩ := execJump_next h
    · exact (exec_jump_mapped (s := s.putTrack j u) hm).trans (hset fun t => { t with cursor := a })
    · exact (exec_jump_unmapped (s := s.putTrack j u) hm).trans (herror _)
  | call a =>
    obtain ⟨hsp, rfl⟩ | ⟨hsp, hm, rfl⟩ | ⟨hsp, hm, rfl⟩ := execCall_next h <;> rw [← hcur] at hsp
    · exact (exec_call_full hsp).trans (herror _)
    · exact (exec_call_mapped hsp hm).trans (hset fun t => t.enterCall a)
    · exact (exec_call_unmapped hsp hm).trans (herror _)
  | ret =>
    obtain ⟨hsp, rfl⟩ | ⟨hsp, rfl⟩ := execRet_next h <;> rw [← hcur] at hsp
    · exact (exec_ret_empty hsp).trans (herror _)
    · exact (exec_ret_nonempty hsp).trans (hset Track.leaveCall)
  | tempo v =>
    obtain rfl := execTempo_next h
    exact congrArg (fun t : State => Host.Outcome.next { t with tempo := v })
      (State.putTrack_setCur hj u fun t => t.stepOver 2)
  | prog p => obtain rfl := execProg_next h; exact hset fun t => { t.stepOver 2 with program := p }
  | vol v => obtain rfl := execVol_next h; exact hset fun t => { t.stepOver 2 with volume := v }
  | pan p => obtain rfl := execPan_next h; exact hset fun t => { t.stepOver 2 with pan := p }
  | bend b => obtain rfl := execBend_next h; exact hset fun t => { t.stepOver 2 with bend := b }
  | vib d r l => obtain rfl := execVib_next h; exact hset fun t => { t.stepOver 4 with vib := t.vib.set d r l }
  | trem d r l => obtain rfl := execTrem_next h; exact hset fun t => { t.stepOver 4 with trem := t.trem.set d r l }
  | tie dur =>
    obtain rfl := execTie_next h
    exact congrArg Host.Outcome.next
      (State.putTrack_setCur (s := { s with ch := chanTable fun j => s.ch[j].extend s.cur dur }) hj u
        fun t => { t.stepOver 2 with due := dur })
  | note key vel gate =>
    have hnote : exec (.note key vel gate) (s.putTrack j u) = execNote key vel gate (s.putTrack j u) := rfl
    obtain ⟨hv, rfl⟩ | ⟨v, hv, rfl⟩ := execNote_next h <;> rw [← hcur] at hv
    · rw [hnote, execNote]
      simp only [show resolve (s.putTrack j u).rom (s.putTrack j u).song.instTable.toNat _ _ = none from hv]
      exact herror _
    · rw [hnote, execNote]
      simp only [show resolve (s.putTrack j u).rom (s.putTrack j u).song.instTable.toNat _ _ = some v from hv]
      exact congrArg Host.Outcome.next (State.putTrack_setCur (s := s.allocateNote key vel gate v) hj u fun t =>
        { t.stepOver 4 with vib := t.vib.restart, trem := t.trem.restart, due := gate })

end PutTrack

/-! ### The statements -/

/-- Settles O12: REST writes only the executing track's register file. -/
theorem restWaits : Obligations.RestWaits := fun _ _ => answersNext_onlyCurTrack rfl

/-- Settles O16: each parameter event writes only the executing track's register file. -/
theorem parameterEventsWriteTheTrack : Obligations.ParameterEventsWriteTheTrack := fun _ =>
  ⟨fun _ => answersNext_onlyCurTrack rfl, fun _ => answersNext_onlyCurTrack rfl, fun _ => answersNext_onlyCurTrack rfl,
    fun _ => answersNext_onlyCurTrack rfl⟩

/-- Settles O17: each LFO event writes only the executing track's register file. -/
theorem lfoEventsSetTheLfo : Obligations.LfoEventsSetTheLfo := fun _ _ _ _ =>
  ⟨answersNext_onlyCurTrack rfl, answersNext_onlyCurTrack rfl⟩

/-- Settles O18: TEMPO writes the tempo besides the executing track's register file. -/
theorem tempoIsGlobal : Obligations.TempoIsGlobal := fun v s =>
  ⟨_, rfl, rfl, curTrackBecomes_setCur s _, rfl, rfl, sameElsewhere_with s _ _ v _⟩

/-- Settles O19: by the mapped case of JUMP. -/
theorem jumpSetsTheCursor : Obligations.JumpSetsTheCursor := fun _ _ hm =>
  answersNext_onlyCurTrack (exec_jump_mapped hm)

/-- Settles O20: by the unmapped cases of JUMP and CALL. -/
theorem unmappedTargetsAreErrors : Obligations.UnmappedTargetsAreErrors := fun _ _ hm =>
  ⟨exec_jump_unmapped hm, fun hroom => exec_call_unmapped hroom hm⟩

/-- Settles O21: `sp` by `Track.enterCall_sp_toNat`, the slots by `Track.enterCall_stack_get`. -/
theorem callPushesTheReturnAddress : Obligations.CallPushesTheReturnAddress := by
  intro addr s hroom hm
  have htrack : (s.setCur (s.curTrack.enterCall addr)).trk[s.cur] = s.curTrack.enterCall addr :=
    table_set_get_self s.trk s.cur _
  refine ⟨_, exec_call_mapped hroom hm, ?_⟩
  beta_reduce
  rw [htrack]
  exact ⟨onlyCurTrack_setCur s _, Track.enterCall_sp_toNat hroom addr, s.curTrack.enterCall_stack_get addr⟩

/-- Settles O22: by the case of RET on a stack that is not empty. -/
theorem retPopsTheReturnAddress : Obligations.RetPopsTheReturnAddress := by
  intro s k hsp
  have hne : s.curTrack.sp ≠ 0 := fun h => Nat.succ_ne_zero k.val (hsp.symm.trans (congrArg BitVec.toNat h))
  exact answersNext_onlyCurTrack ((exec_ret_nonempty hne).trans
    (congrArg (fun u => Host.Outcome.next (s.setCur u)) (Track.leaveCall_of_sp hsp)))

/-- Settles O23: by the cases of CALL on a full stack and RET on an empty one. -/
theorem stackErrors : Obligations.StackErrors := fun _ _ =>
  ⟨exec_call_full, fun hsp => exec_ret_empty (BitVec.eq_of_toNat_eq hsp)⟩

/-- Settles O24: EOT writes only the executing track's register file. -/
theorem eotEndsTheTrack : Obligations.EotEndsTheTrack := fun _ => answersNext_onlyCurTrack rfl

/-- Settles O27: by `exec_putTrack`. -/
theorem tracksArePrivate : Obligations.TracksArePrivate := fun _ _ _ _ u hj h => exec_putTrack hj u h

/-- Settles O28: the record by `State.takeError_err`, the outcome by the two cases of `takeError`, and the frame field by
field. -/
theorem errorsRecordThenHaltOrAbort : Obligations.ErrorsRecordThenHaltOrAbort := by
  intro s e t fatal
  have herr : t.err = ⟨e.code, s.cur, s.curTrack.cursor, (s.rom.byte? s.curAddr).getD 0⟩ := s.takeError_err e
  rw [herr]
  refine ⟨?code, rfl, rfl, rfl, fun hfatal => ?abort, fun hfatal => ?halt, s.takeError_sampleRate e, ?size, fun a => ?rom,
    s.takeError_ended e, s.takeError_loadErr e, s.takeError_tempo e, s.takeError_tickAcc e, s.takeError_songTicks e,
    s.takeError_allocSeq e, s.takeError_song e, s.takeError_rv e, s.takeError_policy e, s.takeError_songTable e,
    s.takeError_songIndex e, s.takeError_pending e, s.takeError_answers e, s.takeError_control e, s.takeError_cur e,
    s.takeError_freeSeq e⟩
  case code => cases e <;> rfl
  case size => rw [s.takeError_rom e]
  case rom => rw [s.takeError_rom e]
  case abort =>
    have ht : t = (s.recordError e).abortSession := State.takeError_of_fatal ((s.errorIsFatal_iff e).mpr hfatal)
    rw [ht]
    exact ⟨rfl, rfl, rfl, rfl, rfl, State.abortSession_ch_get (s.recordError e)⟩
  case halt =>
    have ht : t = (s.recordError e).haltTrack :=
      State.takeError_of_not_fatal (Bool.eq_false_iff.mpr fun h => hfatal ((s.errorIsFatal_iff e).mp h))
    rw [ht]
    exact ⟨rfl, rfl, rfl, rfl, rfl, curTrackBecomes_setCur (s.recordError e) _⟩

end Sys2Proof.Machine
end

