-- ==== Sys2Proof/Proofs/Decoding.lean ====
section
/-! PROOF. Decoding and fetching (spec/30_encoding.md, R59 to R68; spec/60_exceptions.md, R139): the encoder's operand
bytes are read back format by format; a fetch at the pull loop finds the instruction stored at the cursor, or fails at
the first byte that is unmapped or unsupported. -/

namespace Sys2Proof

open Sys2Proof.Machine

/-! ### Encoding and decoding -/

/-- The four address bytes of format FA are read back. -/
theorem decodeFA_encodeAddr (mk : Word → Instr) (a : Word) (rest : List Byte) :
    decodeFA mk (encodeAddr a ++ rest) = .ok (mk a, rest) :=
  congrArg (fun x => Except.ok (mk x, rest)) (operandAddr_operandAddrByte a)

/-- The operand bytes of an instruction are read back, whatever follows them. -/
theorem decodeOperands_encodeOperands (i : Instr) (rest : List Byte) :
    decodeOperands i.opcode (encodeOperands i ++ rest) = .ok (i, rest) := by
  cases i with
  | eot | ret => rfl
  | rest | tempo | prog | tie => rfl
  | vib | trem => rfl
  | jump a => exact decodeFA_encodeAddr .jump a rest
  | call a => exact decodeFA_encodeAddr .call a rest
  | vol v => exact congrArg (fun x => Except.ok (Instr.vol x, rest)) (operand7_operand7Byte v)
  | pan p => exact congrArg (fun x => Except.ok (Instr.pan x, rest)) (operand7_operand7Byte p)
  | bend b => exact congrArg (fun x => Except.ok (Instr.bend x, rest)) (operandBend_operandBendByte b)
  | note key vel gate =>
    exact congrArg₂ (fun x y => Except.ok (Instr.note x y gate, rest))
      (operand7_operand7Byte key) (operand7_operand7Byte vel)

theorem decode_encode_append (i : Instr) (rest : List Byte) : decode (encode i ++ rest) = .ok (i, rest) :=
  (decode_of_opcodeOf (Laws.EncodingLength.opcodeOf_byte i.opcode) _).trans (decodeOperands_encodeOperands i rest)

theorem decode_encode (i : Instr) : decode (encode i) = .ok (i, []) :=
  List.append_nil (encode i) ▸ decode_encode_append i []

/-- A decode of a supported opcode byte with too few bytes after it wants a byte. -/
theorem decode_of_short {b0 : Byte} {op : Opcode} {tail : List Byte} (hop : opcodeOf b0 = some op)
    (hshort : (b0 :: tail).length < op.format.byteLength) : decode (b0 :: tail) = .error .missingByte := by
  cases hdec : decode (b0 :: tail) with
  | error e =>
    rw [decode_of_opcodeOf hop] at hdec
    rw [decodeOperands_error hdec]
  | ok p =>
    obtain ⟨i, rest⟩ := p
    obtain ⟨-, hlen⟩ := decode_consumes hdec
    obtain rfl : op = i.opcode := Option.some.inj (hop.symm.trans (decode_ok hdec).1)
    rw [Instr.byteLength] at hlen
    omega

namespace Machine

/-! ### The fetch (R67) -/

section Fetch

variable {s : State}

/-- The fetch finds the instruction whose bytes are stored at the cursor. -/
theorem State.fetch_of_holds {bs : List Byte} {i : Instr} (hbs : s.rom.holds s.curAddr bs)
    (hdec : decode bs = .ok (i, [])) : s.fetch = .ok i := by
  obtain ⟨-, hlen⟩ := decode_consumes hdec
  have hmax : bs.length ≤ maxInstrBytes := hlen.trans_le (byteLength_le i)
  obtain ⟨tail, htail⟩ := fetchBytes_of_holds hbs hmax
  rw [State.fetch, fetchAt, htail, decode_append tail hdec]

/-- The fetch of an opcode byte that is not mapped fails. -/
theorem State.fetch_of_unmapped (h : s.rom.byte? s.curAddr = none) : s.fetch = .error .outOfRange := by
  have hnone : fetchBytes s.rom s.curAddr maxInstrBytes = [] := by simp [maxInstrBytes, fetchBytes, h]
  rw [State.fetch, fetchAt, hnone]
  rfl

/-- The fetch of a supported instruction with an operand byte that is not mapped fails. -/
theorem State.fetch_of_unmapped_operand {b0 : Byte} {op : Opcode} {k : Nat} (hb : s.rom.byte? s.curAddr = some b0)
    (hop : opcodeOf b0 = some op) (hk : k < op.format.byteLength) (hu : s.rom.mapped (s.curAddr + k) = false) :
    s.fetch = .error .outOfRange := by
  have hlen := fetchBytes_length_le maxInstrBytes hu
  obtain ⟨tail, htail⟩ : ∃ tail, fetchBytes s.rom s.curAddr maxInstrBytes = b0 :: tail := by
    simp [maxInstrBytes, fetchBytes, hb]
  rw [htail] at hlen
  rw [State.fetch, fetchAt, htail, decode_of_short hop (hlen.trans_lt hk)]
  rfl

/-! ### The step at the pull loop (R81) -/

theorem step_atPull_ok {i : Instr} (hpull : s.AtPull) (h : s.fetch = .ok i) : step s = exec i s := by
  rw [step_atPull hpull, h]

theorem step_atPull_error {e : ErrKind} (hpull : s.AtPull) (h : s.fetch = .error e) :
    step s = .next (s.takeError e) := by
  rw [step_atPull hpull, h]

theorem step_atPull_encode {i : Instr} (hpull : s.AtPull) (h : s.rom.holds s.curAddr (encode i)) :
    step s = exec i s :=
  step_atPull_ok hpull (State.fetch_of_holds h (decode_encode i))

end Fetch

/-- A run of a machine that a step leaves as it is. -/
theorem run_of_step_self {s : State} (h : step s = .next s) (k : Nat) : Sys2Proof.core.run k s = .next s := by
  have hstep : Sys2Proof.core.step s = .next s := h
  induction k with
  | zero => rfl
  | succ k ih => simp only [Host.Core.run, hstep, ih]

/-- Writing the executing track's own register file back changes nothing. -/
theorem State.setCur_curTrack_self (s : State) : s.setCur s.curTrack = s := by
  rw [State.setCur, State.curTrack, Fin.getElem_fin, Vector.set_getElem_self]

/-- A new register file of the executing track that is as active and as due leaves the machine at its pull loop. -/
theorem State.AtPull.setCur {s : State} {u : Track} (h : s.AtPull) (hactive : u.active = s.curTrack.active)
    (hdue : u.due = s.curTrack.due) : (s.setCur u).AtPull := by
  obtain ⟨hwf, hcontrol, hplaying, hpulls⟩ := h
  refine ⟨hwf, hcontrol, hplaying, ?_⟩
  rwa [State.pulls, State.setCur_curTrack, hactive, hdue]

/-! ### A CALL to a RET (R111) -/

/-- The RET pops what the CALL pushed; the slot keeps it. -/
theorem Track.leaveCall_enterCall {t : Track} (hroom : t.sp.toNat < Config.callDepth) (addr : Word) :
    (t.enterCall addr).leaveCall = { t with stack := (t.enterCall addr).stack, cursor := t.cursor + 5 } := by
  have hslot := t.enterCall_stack_get addr ⟨t.sp.toNat, hroom⟩
  rw [if_pos rfl] at hslot
  rw [Track.leaveCall_of_sp (k := ⟨t.sp.toNat, hroom⟩) (Track.enterCall_sp_toNat hroom addr), hslot, BitVec.ofNat_toNat,
    BitVec.setWidth_eq]
  rfl

/-- The two steps of a CALL to a RET. -/
theorem run_call_ret {s : State} {x : Word} (hpull : s.AtPull) (hroom : s.curTrack.sp.toNat < Config.callDepth)
    (hcall : s.rom.holds s.curAddr (encode (.call x))) (hret : s.rom.byte? x.toNat = some 0xB4) :
    Sys2Proof.core.run 2 s = .next (s.setCur
      { s.curTrack with stack := (s.curTrack.enterCall x).stack, cursor := s.curTrack.cursor + 5 }) := by
  have hfirst : step s = .next (s.setCur (s.curTrack.enterCall x)) :=
    (step_atPull_encode hpull hcall).trans (exec_call_mapped hroom (Rom.mapped_of_byte? hret))
  have htrack : (s.setCur (s.curTrack.enterCall x)).curTrack = s.curTrack.enterCall x := s.setCur_curTrack _
  have hbytes : (s.setCur (s.curTrack.enterCall x)).rom.holds (s.setCur (s.curTrack.enterCall x)).curAddr
      (encode .ret) := by
    rw [State.curAddr, htrack]
    intro k hk
    obtain rfl : k = 0 := Nat.lt_one_iff.mp hk
    exact hret
  have hsp : (s.setCur (s.curTrack.enterCall x)).curTrack.sp ≠ 0 := by
    rw [htrack]
    intro h
    exact absurd (congrArg BitVec.toNat h) (Track.enterCall_sp_toNat hroom x ▸ Nat.succ_ne_zero _)
  have hsecond :=
    (step_atPull_encode (hpull.setCur (u := s.curTrack.enterCall x) rfl rfl) hbytes).trans (exec_ret_nonempty hsp)
  rw [htrack, Track.leaveCall_enterCall hroom, State.setCur_setCur] at hsecond
  exact run_two hfirst hsecond

end Machine

/-! ### The statements -/

/-- Settles O1: the canonical opcode byte selects the instruction, and its operand bytes are read back. -/
theorem decodeOfEncode : Obligations.DecodeOfEncode := fun i rest _ => decode_encode_append i rest

/-- Settles O5: each sequence is closed, so that both sides evaluate. -/
theorem specWordsDecode : Obligations.SpecWordsDecode :=
  ⟨rfl, rfl, rfl, rfl, rfl, rfl, rfl, rfl, rfl, rfl, rfl, rfl⟩

/-- Settles O10: the fetch finds the instruction (`State.fetch_of_holds`). -/
theorem stepRunsTheDecodedInstruction : Obligations.StepRunsTheDecodedInstruction :=
  fun _ _ _ hpull hbs hdec _ => step_atPull_ok hpull (State.fetch_of_holds hbs hdec)

/-- Settles O11: each failure of the fetch in turn; the unsupported opcode byte is that of R64. -/
theorem decodeErrorsInOrder : Obligations.DecodeErrorsInOrder := by
  refine fun s hpull => ⟨fun hb => ?_, fun b0 hb hop => ?_, fun b0 op k hb hop _ hk hu => ?_⟩
  · exact step_atPull_error hpull (State.fetch_of_unmapped hb)
  · exact step_atPull_error hpull (State.fetch_of_unsupported hb ((opcodeOf_eq_none_iff_isUnsupported b0).mp hop))
  · exact step_atPull_error hpull (State.fetch_of_unmapped_operand hb hop hk hu)

/-- Settles O25: the two steps are `run_call_ret`, and of the slots a CALL writes the one at `sp`. -/
theorem callThenRetIsTransparent : Obligations.CallThenRetIsTransparent := by
  intro s x hpull hroom hcall hret
  have hbecomes := onlyCurTrack_setCur s
    { s.curTrack with stack := (s.curTrack.enterCall x).stack, cursor := s.curTrack.cursor + 5 }
  have htrack := hbecomes.1.1
  refine ⟨_, run_call_ret hpull hroom hcall hret, hpull.setCur rfl rfl, ?_⟩
  rw [htrack]
  exact ⟨hbecomes, fun k hk => (s.curTrack.enterCall_stack_get x k).trans (if_neg hk)⟩

/-- Settles O55: the cursor byte is mapped, so the JUMP goes there, and its step leaves the state as it was. -/
theorem selfJumpHangs : Obligations.SelfJumpHangs := by
  intro s k hpull hbytes
  have hmapped : s.rom.mapped s.curAddr = true := Rom.mapped_of_byte? (hbytes 0 (Nat.succ_pos _))
  have hjump : exec (.jump s.curTrack.cursor) s = .next s :=
    (exec_jump_mapped hmapped).trans (congrArg _ s.setCur_curTrack_self)
  exact run_of_step_self ((step_atPull_encode hpull hbytes).trans hjump) k

end Sys2Proof
end

