-- ==== Sys2Proof/Proofs/Voices.lean ====
section
/-! PROOF. Voice resolution (spec/20_memory.md, R48 to R54): first the descriptor that a program and a key select, through
a KeySplit or not, then the voice that the descriptor describes. A voice that resolves has passed the checks of R52, so
that every byte it plays is mapped. -/

namespace Sys2Proof.Machine

/-! ### Selecting the descriptor (R49, R52) -/

/-- The voice a descriptor describes: its kind, and its envelope parameters as they stand. -/
def describedVoice (r : Rom) (d : List Byte) : Option Voice :=
  (resolveKind r d).map fun kind => ⟨kind, descByte d 8, descByte d 9, descByte d 10, descByte d 11⟩

theorem resolve_eq_bind (r : Rom) (inst p k : Nat) :
    resolve r inst p k = (selectDescriptor r inst p k).bind (describedVoice r) := by
  rw [resolve]
  cases selectDescriptor r inst p k with
  | none => rfl
  | some d => exact Option.map_eq_bind.symm

/-- The sub-voice a KeySplit descriptor selects for a key. -/
def selectSubVoice (r : Rom) (d : List Byte) (k : Nat) : Option (List Byte) :=
  (r.byte? (u32At d 8 + k)).bind fun idx => (r.bytes? (u32At d 4 + 12 * idx.toNat) 12).bind fun sub =>
    if sub.getD 0 0 = 0x40 then none else some sub

section Select

variable {r : Rom} {inst p k : Nat}

theorem selectDescriptor_unmapped (h : r.bytes? (inst + 12 * p) 12 = none) : selectDescriptor r inst p k = none := by
  rw [selectDescriptor, Rom.descriptor?, h]
  rfl

theorem selectDescriptor_mapped {d : List Byte} (h : r.bytes? (inst + 12 * p) 12 = some d) :
    selectDescriptor r inst p k = if d.getD 0 0 = 0x40 then selectSubVoice r d k else some d := by
  rw [selectDescriptor, Rom.descriptor?, h, selectSubVoice, u32At_eq_descWord, u32At_eq_descWord]
  rfl

theorem resolve_unmapped (h : r.bytes? (inst + 12 * p) 12 = none) : resolve r inst p k = none := by
  rw [resolve_eq_bind, selectDescriptor_unmapped h]
  rfl

theorem resolve_plain {d : List Byte} (h : r.bytes? (inst + 12 * p) 12 = some d) (hcode : d.getD 0 0 ≠ 0x40) :
    resolve r inst p k = describedVoice r d := by
  rw [resolve_eq_bind, selectDescriptor_mapped h, if_neg hcode]
  rfl

theorem resolve_keySplit {d : List Byte} (h : r.bytes? (inst + 12 * p) 12 = some d) (hcode : d.getD 0 0 = 0x40) :
    resolve r inst p k = (selectSubVoice r d k).bind (describedVoice r) := by
  rw [resolve_eq_bind, selectDescriptor_mapped h, if_pos hcode]

end Select

/-! ### The sample header (R50, R52) -/

/-- The four reads of a sample header. -/
structure SampleHeader (r : Rom) (h flags f ls len : Nat) : Prop where
  flags : r.read? (h + 2) 2 = some flags
  f : r.read? (h + 4) 4 = some f
  ls : r.read? (h + 8) 4 = some ls
  len : r.read? (h + 12) 4 = some len

/-- The checks of R52 on a sample: the header and the samples are mapped, there is a sample, a loop starts inside. -/
def SampleGood (r : Rom) (h flags ls len : Nat) : Prop :=
  (∀ n, n < 16 → r.mapped (h + n) = true) ∧ 0 < len ∧ (∀ n, n < len → r.mapped (h + 16 + n) = true) ∧
    (flags.testBit 14 = true → ls < len)

section Sample

variable {r : Rom} {h flags f ls len : Nat} {b : Bits7}

/-- A mapped header can be read. -/
theorem exists_sampleHeader (hm : ∀ n, n < 16 → r.mapped (h + n) = true) :
    ∃ flags f ls len, SampleHeader r h flags f ls len := by
  have hread (off n : Nat) (hoff : off + n ≤ 16) : ∃ v, r.read? (h + off) n = some v := by
    refine Option.isSome_iff_exists.mp ((Rom.read?_isSome r _ n).mpr fun k hk => ?_)
    rw [Nat.add_assoc]
    exact hm _ (by omega)
  obtain ⟨flags, hflags⟩ := hread 2 2 (by decide)
  obtain ⟨f, hf⟩ := hread 4 4 (by decide)
  obtain ⟨ls, hls⟩ := hread 8 4 (by decide)
  obtain ⟨len, hlen⟩ := hread 12 4 (by decide)
  exact ⟨flags, f, ls, len, hflags, hf, hls, hlen⟩

/-- The model's test of a sample is that of R52. -/
theorem sampleCheck_iff (r : Rom) (h flags ls len : Nat) :
    (r.mappedRange h 16 && len != 0 && r.mappedRange (h + 16) len && !(flags.testBit 14 && len ≤ ls)) = true ↔
      SampleGood r h flags ls len := by
  have hloop : (!(flags.testBit 14 && decide (len ≤ ls))) = true ↔ (flags.testBit 14 = true → ls < len) := by
    simp [imp_iff_not_or]
  rw [SampleGood, Bool.and_eq_true, Bool.and_eq_true, Bool.and_eq_true, Rom.mappedRange_iff, Rom.mappedRange_iff, hloop,
    bne_iff_ne, ← Nat.pos_iff_ne_zero, and_assoc, and_assoc]

theorem resolveSample_of_good (hh : SampleHeader r h flags f ls len) (hgood : SampleGood r h flags ls len) :
    resolveSample r h b = some (.directSample b (flags.testBit 14) (BitVec.ofNat 32 f) (BitVec.ofNat 32 ls)
      (BitVec.ofNat 32 len) (BitVec.ofNat 32 (h + 16))) := by
  rw [resolveSample, hh.flags, hh.f, hh.ls, hh.len]
  exact if_pos ((sampleCheck_iff r h flags ls len).mpr hgood)

theorem resolveSample_of_bad (hh : SampleHeader r h flags f ls len) (hbad : ¬SampleGood r h flags ls len) :
    resolveSample r h b = none := by
  rw [resolveSample, hh.flags, hh.f, hh.ls, hh.len]
  exact if_neg fun hc => hbad ((sampleCheck_iff r h flags ls len).mp hc)

/-- A sample resolves only with a header that was read and passes the checks. -/
theorem resolveSample_some {kind : VoiceKind} (hk : resolveSample r h b = some kind) :
    ∃ flags f ls len, SampleHeader r h flags f ls len ∧ SampleGood r h flags ls len ∧
      kind = .directSample b (flags.testBit 14) (BitVec.ofNat 32 f) (BitVec.ofNat 32 ls) (BitVec.ofNat 32 len)
        (BitVec.ofNat 32 (h + 16)) := by
  have hk' := hk
  simp only [resolveSample, Option.bind_eq_bind, Option.bind_eq_some_iff] at hk'
  obtain ⟨flags, hflags, f, hf, ls, hls, len, hlen, -⟩ := hk'
  have hh : SampleHeader r h flags f ls len := ⟨hflags, hf, hls, hlen⟩
  by_cases hgood : SampleGood r h flags ls len
  · exact ⟨flags, f, ls, len, hh, hgood, Option.some.inj (hk.symm.trans (resolveSample_of_good hh hgood))⟩
  · cases hk.symm.trans (resolveSample_of_bad hh hgood)

theorem resolveSample_unmapped (hu : ∃ n, n < 16 ∧ r.mapped (h + n) = false) : resolveSample r h b = none := by
  cases hk : resolveSample r h b with
  | none => rfl
  | some kind =>
    obtain ⟨_, _, _, _, -, ⟨hm, -⟩, -⟩ := resolveSample_some hk
    obtain ⟨n, hn, hu⟩ := hu
    exact absurd (hm n hn) (hu ▸ Bool.false_ne_true)

end Sample

/-! ### The kind of a voice, by its code (R48, R52) -/

section Kind

variable {r : Rom} {d : List Byte}

theorem resolveKind_square (h : d.getD 0 0 = 0x01) : resolveKind r d = some (.square ((d.getD 4 0).setWidth 2)) := if_pos h

theorem resolveKind_wave (h : d.getD 0 0 = 0x03) :
    resolveKind r d =
      if r.mappedRange (descWord d 4) 16 then some (.programmableWave (BitVec.ofNat 32 (descWord d 4))) else none := by
  have hcode : descByte d 0 = 0x03 := h
  simp [resolveKind, hcode]

theorem resolveKind_noise (h : d.getD 0 0 = 0x04) : resolveKind r d = some (.noise ((d.getD 4 0).getLsbD 0)) := by
  have hcode : descByte d 0 = 0x04 := h
  simp only [resolveKind, hcode]
  rfl

theorem resolveKind_sample (h : d.getD 0 0 = 0x00) :
    resolveKind r d = resolveSample r (descWord d 4) ((d.getD 1 0).setWidth 7) := by
  have hcode : descByte d 0 = 0x00 := h
  simp only [resolveKind, hcode]
  rfl

theorem resolveKind_other (h0 : d.getD 0 0 ≠ 0x00) (h1 : d.getD 0 0 ≠ 0x01) (h3 : d.getD 0 0 ≠ 0x03)
    (h4 : d.getD 0 0 ≠ 0x04) : resolveKind r d = none := by
  rw [resolveKind, descByte, if_neg h1, if_neg h3, if_neg h4, if_neg h0]

/-- The kinds that resolve, each with the checks it has passed. -/
theorem resolveKind_some_cases {kind : VoiceKind} (h : resolveKind r d = some kind) :
    (∃ duty, kind = .square duty) ∨
      (r.mappedRange (descWord d 4) 16 = true ∧ kind = .programmableWave (BitVec.ofNat 32 (descWord d 4))) ∨
      (∃ short, kind = .noise short) ∨ ∃ b, resolveSample r (descWord d 4) b = some kind := by
  unfold resolveKind at h
  simp only at h
  split at h
  · exact .inl ⟨_, (Option.some.inj h).symm⟩
  · split at h
    · split at h
      · exact .inr (.inl ⟨‹_›, (Option.some.inj h).symm⟩)
      · cases h
    · split at h
      · exact .inr (.inr (.inl ⟨_, (Option.some.inj h).symm⟩))
      · split at h
        · exact .inr (.inr (.inr ⟨_, h⟩))
        · cases h

/-- What is said of the kind is said of the voice. -/
theorem describedVoice_of_kind {o : Option VoiceKind} (h : resolveKind r d = o) :
    describedVoice r d = o.map fun kind =>
      ⟨kind, d.getD 8 0, d.getD 9 0, d.getD 10 0, d.getD 11 0⟩ := by rw [describedVoice, h]; rfl

/-- The case of R52 on the kind byte. -/
theorem descriptorGives_describedVoice (r : Rom) (d : List Byte) : DescriptorGives r d (describedVoice r d) := by
  rw [DescriptorGives, u32At_eq_descWord]
  refine ⟨fun hc => describedVoice_of_kind (resolveKind_square hc), fun hc => describedVoice_of_kind (resolveKind_noise hc),
    fun hc hm => ?wave, fun hc hu => ?noWave, fun hc hu => ?noHeader, fun hc hm => ?sample,
    fun h0 h1 h3 h4 => describedVoice_of_kind (resolveKind_other h0 h1 h3 h4)⟩
  case wave =>
    exact describedVoice_of_kind ((resolveKind_wave hc).trans (if_pos ((Rom.mappedRange_iff r _ _).mpr hm)))
  case noWave =>
    obtain ⟨n, hn, hu⟩ := hu
    refine describedVoice_of_kind ((resolveKind_wave hc).trans (if_neg fun hm => ?_))
    exact absurd ((Rom.mappedRange_iff r _ _).mp hm n hn) (hu ▸ Bool.false_ne_true)
  case noHeader => exact describedVoice_of_kind ((resolveKind_sample hc).trans (resolveSample_unmapped hu))
  case sample =>
    obtain ⟨flags, f, ls, len, hh⟩ := exists_sampleHeader hm
    have hnone (hbad : ¬SampleGood r (descWord d 4) flags ls len) : describedVoice r d = none :=
      describedVoice_of_kind ((resolveKind_sample hc).trans (resolveSample_of_bad hh hbad))
    refine ⟨flags, f, ls, len, hh.flags, hh.f, hh.ls, hh.len, fun hlen => ?_, fun ⟨n, hn, hu⟩ => ?_,
      fun hloop hle => ?_, fun hpos hbytes hloop => ?_⟩
    · exact hnone fun ⟨_, hpos, _⟩ => hpos.ne' hlen
    · exact hnone fun ⟨_, _, hbytes, _⟩ => absurd (hbytes n hn) (hu ▸ Bool.false_ne_true)
    · exact hnone fun ⟨_, _, _, hlt⟩ => (hlt hloop).not_ge hle
    · exact describedVoice_of_kind ((resolveKind_sample hc).trans
        (resolveSample_of_good hh ⟨hm, hpos, hbytes, hloop⟩))

end Kind

/-! ### Playable voices (R52, R53) -/

/-- A mapped address is its own 32-bit word: the ROM ends below 2^32 (R38). -/
theorem Rom.toNat_of_mapped {r : Rom} (hsize : r.size ≤ Config.romSizeMax) {a : Nat} (h : r.mapped a = true) :
    (BitVec.ofNat 32 a).toNat = a := by
  obtain ⟨-, ha⟩ := (Rom.mapped_iff r a).mp h
  simp only [Config.romBase, Config.romSizeMax] at ha hsize
  rw [BitVec.toNat_ofNat, Nat.mod_eq_of_lt (by omega)]

/-- What four bytes read as is its own 32-bit word. -/
theorem Rom.toNat_of_read {r : Rom} {a v : Nat} (h : r.read? a 4 = some v) : (BitVec.ofNat 32 v).toNat = v := by
  have hv := Rom.read?_lt h
  rw [BitVec.toNat_ofNat, Nat.mod_eq_of_lt (by omega)]

theorem resolveSample_playable {r : Rom} {h : Nat} {b : Bits7} {kind : VoiceKind} (hsize : r.size ≤ Config.romSizeMax)
    (hk : resolveSample r h b = some kind) : kind.Playable r := by
  obtain ⟨flags, f, ls, len, hh, ⟨-, hpos, hbytes, hloop⟩, rfl⟩ := resolveSample_some hk
  have haddr : (BitVec.ofNat 32 (h + 16)).toNat = h + 16 := Rom.toNat_of_mapped hsize (hbytes 0 hpos)
  rw [VoiceKind.Playable, Rom.toNat_of_read hh.len, Rom.toNat_of_read hh.ls, haddr]
  exact ⟨hpos, hbytes, hloop⟩

theorem resolveKind_playable {r : Rom} {d : List Byte} {kind : VoiceKind} (hsize : r.size ≤ Config.romSizeMax)
    (hk : resolveKind r d = some kind) : kind.Playable r := by
  obtain ⟨_, rfl⟩ | ⟨hrange, rfl⟩ | ⟨_, rfl⟩ | ⟨_, hsample⟩ := resolveKind_some_cases hk
  · trivial
  · have hm := (Rom.mappedRange_iff r _ _).mp hrange
    have haddr : (BitVec.ofNat 32 (descWord d 4)).toNat = descWord d 4 := Rom.toNat_of_mapped hsize (hm 0 (by decide))
    rw [VoiceKind.Playable, haddr]
    exact hm
  · trivial
  · exact resolveSample_playable hsize hsample

theorem resolve_playable {r : Rom} {inst p k : Nat} {v : Voice} (hsize : r.size ≤ Config.romSizeMax)
    (hv : resolve r inst p k = some v) : v.kind.Playable r := by
  rw [resolve_eq_bind] at hv
  obtain ⟨d, -, hd⟩ := Option.bind_eq_some_iff.mp hv
  obtain ⟨kind, hkind, rfl⟩ := Option.map_eq_some_iff.mp hd
  exact resolveKind_playable hsize hkind

/-! ### The statements -/

/-- Settles O8: `resolve` is a selection, read off at each of its steps, followed by the case of R52
(`descriptorGives_describedVoice`). -/
theorem resolveByKindCode : Obligations.ResolveByKindCode := by
  refine fun r inst p k => ⟨resolve_unmapped, fun d hd => ⟨fun hcode => ?plain, fun hcode => ?keySplit⟩⟩
  case plain =>
    rw [resolve_plain hd hcode]
    exact descriptorGives_describedVoice r d
  case keySplit =>
    rw [resolve_keySplit hd hcode, selectSubVoice]
    refine ⟨fun hidx => by rw [hidx]; rfl, fun idx hidx => ?_⟩
    rw [hidx, Option.bind_some]
    refine ⟨fun hsub => by rw [hsub]; rfl, fun sub hsub => ?_⟩
    rw [hsub, Option.bind_some]
    refine ⟨fun hsplit => by rw [if_pos hsplit]; rfl, fun hplain => ?_⟩
    rw [if_neg hplain, Option.bind_some]
    exact descriptorGives_describedVoice r sub

/-- Settles O9: by `resolve_playable`. -/
theorem resolvedVoicesArePlayable : Obligations.ResolvedVoicesArePlayable :=
  fun _ _ _ _ _ hsize hv => resolve_playable hsize hv

end Sys2Proof.Machine
end

