-- ==== Sys2Proof/Proofs/Notes.lean ====
section
/-! PROOF. The note events (spec/41_note_events.md): TIE extends the held channels of its track; NOTE aborts when its
voice does not resolve, and else puts its note on the channel that `allocate` answers, so that the live channels are
counted by that one channel. -/

namespace Sys2Proof.Machine

/-! ### TIE (R96) -/

/-- A channel whose note can be held longer is in one of the phases R96 names. -/
theorem Channel.held_iff (c : Channel) :
    c.held = true ↔ c.state = .attack ∨ c.state = .decay ∨ c.state = .sustain := by
  unfold Channel.held
  cases c.state <;> decide

/-- A held channel of the track: the gate saturates at 65535 and nothing else changes. -/
theorem Channel.extend_held {c : Channel} {i : TrackIdx} (htrack : c.track = i) (hheld : c.held = true) (dur : Byte) :
    ∃ g : Half, c.extend i dur = { c with gate := g } ∧ g.toNat = min 65535 (c.gate.toNat + dur.toNat) := by
  refine ⟨_, if_pos ⟨htrack, hheld⟩, ?_⟩
  rw [BitVec.toNat_ofNat, Nat.mod_eq_of_lt (by omega)]

/-- Any other channel is left alone. -/
theorem Channel.extend_other {c : Channel} {i : TrackIdx} (h : c.track ≠ i ∨ c.held = false) (dur : Byte) :
    c.extend i dur = c := by
  refine if_neg fun ⟨htrack, hheld⟩ => ?_
  obtain hne | hnot := h
  · exact hne htrack
  · exact Bool.false_ne_true (hnot.symm.trans hheld)

/-! ### NOTE (R92, R94) -/

section Note

variable {key vel : Bits7} {gate : Byte} {s : State}

theorem exec_note_unresolved
    (h : resolve s.rom s.song.instTable.toNat s.curTrack.program.toNat key.toNat = none) :
    exec (.note key vel gate) s = .next (s.takeError .parse) := by
  rw [show exec (.note key vel gate) s = execNote key vel gate s from rfl, execNote, h]

theorem exec_note_resolved {v : Voice}
    (h : resolve s.rom s.song.instTable.toNat s.curTrack.program.toNat key.toNat = some v) :
    exec (.note key vel gate) s = .next ((s.allocateNote key vel gate v).setCur
      { s.curTrack.stepOver 4 with
        vib := s.curTrack.vib.restart, trem := s.curTrack.trem.restart, due := gate }) := by
  rw [show exec (.note key vel gate) s = execNote key vel gate s from rfl, execNote, h]

/-- The channels after an allocation: the allocated one takes the note and no other changes. -/
theorem State.allocateNote_ch_get (s : State) (key vel : Bits7) (gate : Byte) (v : Voice) (j : ChanIdx) :
    (s.allocateNote key vel gate v).ch[j] =
      if j = allocate s.ch then newChannel s.cur key vel gate v s.allocSeq else s.ch[j] :=
  table_set_get s.ch (allocate s.ch) j _

end Note

/-! ### Counting the live channels (R88, R89) -/

theorem liveCount_eq_countP (ch : Vector Channel 12) : liveCount ch = ch.toList.countP (·.live) :=
  List.countP_eq_length_filter.symm

theorem liveCount_le (ch : Vector Channel 12) : liveCount ch ≤ 12 := by
  rw [liveCount_eq_countP]
  exact List.countP_le_length.trans_eq ch.length_toList

/-- Every channel is live exactly if twelve are. -/
theorem liveCount_eq_iff (ch : Vector Channel 12) : liveCount ch = 12 ↔ ∀ j : ChanIdx, ch[j].live = true := by
  have hall : ch.toList.countP (·.live) = ch.toList.length ↔ _ := List.countP_eq_length
  rw [ch.length_toList] at hall
  rw [liveCount_eq_countP, hall]
  exact ⟨fun h j => h _ (Vector.mem_toList_iff.mpr (Vector.getElem_mem j.isLt)),
    forall_mem_toList (p := fun c : Channel => c.live = true)⟩

/-- One channel becomes live: the count is one more if it was Idle, and else the same. -/
theorem liveCount_set (ch : Vector Channel 12) (j : ChanIdx) {c : Channel} (hc : c.live = true) :
    liveCount (ch.set j.val c j.isLt) = if ch[j].live then liveCount ch else liveCount ch + 1 := by
  have hj : j.val < ch.toList.length := j.isLt.trans_eq ch.length_toList.symm
  have hget : ch.toList[j.val] = ch[j] := Vector.getElem_toList hj
  have hcount : (ch.set j.val c j.isLt).toList.countP (·.live) =
      ch.toList.countP (·.live) - (if ch[j].live then 1 else 0) + 1 := by
    rw [Vector.toList_set, List.countP_set hj, hget, if_pos hc]
  rw [liveCount_eq_countP, liveCount_eq_countP, hcount]
  cases hlive : ch[j].live with
  | false => rfl
  | true =>
    have hpos : 0 < ch.toList.countP (·.live) := List.countP_pos_iff.mpr ⟨ch[j], hget ▸ List.getElem_mem hj, hlive⟩
    exact Nat.sub_add_cancel hpos

/-- `Allocate()` takes a live channel exactly if every channel is live. -/
theorem allocate_live_iff (ch : Vector Channel 12) : ch[allocate ch].live = true ↔ ∀ j : ChanIdx, ch[j].live = true := by
  have hlive (j : ChanIdx) : ch[j].live = true ↔ ch[j].state ≠ .idle := by simp [Channel.live]
  refine ⟨fun h => ?_, fun h => h _⟩
  obtain ⟨hidle, -⟩ | ⟨hnone, -⟩ := allocate_cases ch
  · exact absurd hidle ((hlive _).mp h)
  · exact fun j => (hlive j).mpr (hnone j)

/-- An allocation leaves one more channel live, up to twelve. -/
theorem liveCount_allocate (ch : Vector Channel 12) {c : Channel} (hc : c.live = true) :
    liveCount (ch.set (allocate ch).val c (allocate ch).isLt) = min 12 (liveCount ch + 1) := by
  have hle := liveCount_le ch
  rw [liveCount_set ch _ hc]
  split
  next h =>
    have hall := (liveCount_eq_iff ch).mpr ((allocate_live_iff ch).mp h)
    omega
  next h =>
    have hnot : liveCount ch ≠ 12 := fun hall => h ((allocate_live_iff ch).mpr ((liveCount_eq_iff ch).mp hall))
    omega

/-! ### The statements -/

/-- Settles O13: TIE maps `Channel.extend` over the channels. -/
theorem tieExtendsHeldNotes : Obligations.TieExtendsHeldNotes := by
  intro dur s
  refine ⟨_, rfl, curTrackBecomes_setCur { s with ch := chanTable fun j => s.ch[j].extend s.cur dur } _, fun j => ?_, rfl, rfl,
    sameElsewhere_with s _ _ _ _⟩
  have hget : (chanTable fun j => s.ch[j].extend s.cur dur)[j] = s.ch[j].extend s.cur dur := chanTable_get _ j
  refine ⟨fun htrack hstate => ?_, fun hother => hget.trans (Channel.extend_other (hother.imp_right fun hstate => ?_) dur)⟩
  · obtain ⟨g, hext, hg⟩ := Channel.extend_held htrack ((Channel.held_iff _).mpr hstate) dur
    exact ⟨g, hget.trans hext, hg⟩
  · unfold Channel.held
    obtain h | h := hstate <;> rw [h]

/-- Settles O14: the channels by `State.allocateNote_ch_get`. -/
theorem noteStartsAChannel : Obligations.NoteStartsAChannel := by
  intro key vel gate s v hv
  have hch := s.allocateNote_ch_get key vel gate v
  rw [newChannel, BitVec.ofNat_toNat] at hch
  exact ⟨_, exec_note_resolved hv, curTrackBecomes_setCur (s.allocateNote key vel gate v) _,
    (hch _).trans (if_pos rfl), fun j hj => (hch j).trans (if_neg hj), rfl, rfl, sameElsewhere_with s _ _ _ _⟩

/-- Settles O15: ParseError is fatal, so the session is aborted, which writes no track and no stamp. -/
theorem noteParseErrorAborts : Obligations.NoteParseErrorAborts := fun _ _ _ s hv =>
  ⟨_, exec_note_unresolved hv, rfl, rfl, rfl, rfl, rfl, rfl, rfl, State.abortSession_ch_get (s.recordError .parse)⟩

/-- Settles O31: NOTE writes the one channel that `allocate` answers, which was live only if all were. -/
theorem notesAreNeverDropped : Obligations.NotesAreNeverDropped := by
  intro key vel gate s t v hv ht
  obtain rfl := Host.Outcome.next.inj ((exec_note_resolved hv).symm.trans ht)
  have hch := s.allocateNote_ch_get key vel gate v
  have hother {j : ChanIdx} (hj : j ≠ allocate s.ch) := (hch j).trans (if_neg hj)
  have hself := (hch (allocate s.ch)).trans (if_pos rfl)
  refine ⟨liveCount_allocate s.ch rfl, fun hroom j hlive => hother fun hj => ?_, allocate s.ch, ?_⟩
  · have hall := (allocate_live_iff s.ch).mp (hj ▸ hlive)
    exact hroom.ne ((liveCount_eq_iff s.ch).mpr hall)
  · exact ⟨congrArg Channel.live hself, congrArg Channel.key hself, congrArg Channel.stamp hself,
      fun i hi => hother hi⟩

end Sys2Proof.Machine
end

