-- ==== Sys2Proof/Proofs/Steps.lean ====
section
/-! PROOF. What holds over every step: the parameters and the ROM stay (spec/20_memory.md, R45 and R55), host operations
are taken in order (spec/40_sequencer.md, R70), a tick takes THR once (R76), and a channel changes only in the ways that
`ChannelChange` lists, from which its envelope transitions are read off (spec/44_channel_engine.md, R113). -/

namespace Sys2Proof.Machine

/-! ### The parameters, the ROM and the host's operations (log entry 5) -/

/-- No instruction writes the parameters, the tick accumulator or the host's lists. -/
theorem exec_frame {i : Instr} {s t : State} (h : exec i s = .next t) :
    t.sampleRate = s.sampleRate ∧ t.rom = s.rom ∧ t.tickAcc = s.tickAcc ∧ t.pending = s.pending ∧
      t.answers = s.answers := by
  obtain ⟨e, rfl⟩ | ⟨_, _, _, _, rfl⟩ := exec_next_shape h
  · exact ⟨s.takeError_sampleRate e, s.takeError_rom e, s.takeError_tickAcc e, s.takeError_pending e,
      s.takeError_answers e⟩
  · exact ⟨rfl, rfl, rfl, rfl, rfl⟩

/-- The operations to come, over one step: as they are, or the first one taken while none is in progress. -/
def PendingFollows (s t : State) : Prop :=
  t.pending = s.pending ∨ (s.control = .idle ∧ ∃ op, s.pending = op :: t.pending)

/-- The answers, over one step: as they are, or one more, which ends the operation in progress. -/
def AnswersFollow (s t : State) : Prop :=
  t.answers = s.answers ∨ (t.control = .idle ∧ ∃ a, t.answers = a :: s.answers)

/-- What every step does to the parameters, to the ROM and to the host's lists (R10, R45, R70). -/
structure StepFrame (s t : State) : Prop where
  sampleRate : t.sampleRate = s.sampleRate
  rom : t.rom = s.rom
  pending : PendingFollows s t
  answers : AnswersFollow s t

theorem State.perform_answersFollow (s : State) (op : HostOp) : AnswersFollow s (s.perform op) := by
  cases op with
  | readReg off size => exact .inr ⟨rfl, _, rfl⟩
  | writeReg off size v => exact .inr ⟨rfl, .written, congrArg _ (s.writeReg_answers off v)⟩
  | renderFrame => exact .inl rfl

theorem step_frame {s t : State} (h : step s = .next t) : StepFrame s t := by
  obtain ⟨-, ⟨hidle, h⟩ | ⟨-, h⟩ | ⟨-, rfl⟩ | ⟨-, h⟩ | ⟨-, rfl⟩⟩ := step_next_cases h
  · obtain ⟨-, rfl⟩ | ⟨op, rest, hpending, -, rfl⟩ := stepIdle_next_cases h
    · exact ⟨rfl, rfl, .inl rfl, .inl rfl⟩
    · exact ⟨State.perform_sampleRate _ op, State.perform_rom _ op,
        .inr ⟨hidle, op, by rw [hpending, State.perform_pending]⟩,
        State.perform_answersFollow { s with pending := rest } op⟩
  · obtain ⟨-, rfl⟩ | ⟨-, -, -, rfl⟩ | ⟨-, -, -, rfl⟩ | ⟨-, -, u, l, r, hmix, rfl⟩ := stepBoundary_next_cases h
    · exact ⟨rfl, rfl, .inl rfl, .inr ⟨rfl, _, rfl⟩⟩
    · exact ⟨rfl, rfl, .inl rfl, .inr ⟨rfl, _, rfl⟩⟩
    · exact ⟨rfl, rfl, .inl rfl, .inl rfl⟩
    · obtain ⟨_, _, -, rfl, -, -⟩ := mix_cases hmix
      exact ⟨rfl, rfl, .inl rfl, .inr ⟨rfl, _, rfl⟩⟩
  · exact ⟨s.enterTrack_sampleRate, s.enterTrack_rom, .inl s.enterTrack_pending, .inl s.enterTrack_answers⟩
  · obtain ⟨-, rfl⟩ | ⟨-, -, i, -, hexec⟩ | ⟨-, -, e, -, rfl⟩ | ⟨-, -, rfl⟩ := stepPull_next_cases h
    · exact ⟨rfl, rfl, .inl rfl, .inr ⟨rfl, _, rfl⟩⟩
    · obtain ⟨hrate, hrom, -, hpending, hanswers⟩ := exec_frame hexec
      exact ⟨hrate, hrom, .inl hpending, .inl hanswers⟩
    · exact ⟨s.takeError_sampleRate e, s.takeError_rom e, .inl (s.takeError_pending e), .inl (s.takeError_answers e)⟩
    · exact ⟨s.nextTrack_sampleRate, s.nextTrack_rom, .inl s.nextTrack_pending, .inl s.nextTrack_answers⟩
  · exact ⟨s.finishTick_sampleRate, s.finishTick_rom, .inl s.finishTick_pending, .inl s.finishTick_answers⟩

/-! ### Inside a tick (R76, R80) -/

/-- Where the machine is between the steps of one tick. -/
def Control.InTick (c : Control) : Prop := c = .enter ∨ c = .pull ∨ c = .post

theorem nextTrack_inTick (s : State) : s.nextTrack.control.InTick := by
  obtain ⟨_, -, -, h⟩ | ⟨-, h⟩ := nextTrack_cases s <;> rw [h]
  · exact .inl rfl
  · exact .inr (.inr rfl)

theorem enterTrack_inTick (s : State) : s.enterTrack.control.InTick := by
  obtain ⟨-, -, h⟩ | ⟨-, -, h⟩ | ⟨-, h⟩ := enterTrack_cases s <;> rw [h]
  · exact .inr (.inl rfl)
  · exact nextTrack_inTick s
  · exact .inr (.inr rfl)

/-- A step inside a tick stays inside it, or goes back to the loop test, or ends the RenderFrame with NONE. -/
def TickGoesOn (s t : State) : Prop :=
  t.control.InTick ∨ t.control = .boundary ∨ (t.control = .idle ∧ t.answers = .noFrame :: s.answers)

/-- No step inside a tick changes the accumulator. -/
theorem step_inTick {s t : State} (hin : s.control.InTick) (h : step s = .next t) :
    t.tickAcc = s.tickAcc ∧ TickGoesOn s t := by
  obtain ⟨-, ⟨hcontrol, -⟩ | ⟨hcontrol, -⟩ | ⟨-, rfl⟩ | ⟨hpull, h⟩ | ⟨-, rfl⟩⟩ := step_next_cases h
  · rw [hcontrol] at hin
    rcases hin with h | h | h <;> cases h
  · rw [hcontrol] at hin
    rcases hin with h | h | h <;> cases h
  · exact ⟨s.enterTrack_tickAcc, .inl (enterTrack_inTick s)⟩
  · obtain ⟨-, rfl⟩ | ⟨-, -, i, -, hexec⟩ | ⟨-, -, e, -, rfl⟩ | ⟨-, -, rfl⟩ := stepPull_next_cases h
    · exact ⟨rfl, .inr (.inr ⟨rfl, rfl⟩)⟩
    · obtain ⟨-, -, hacc, -⟩ := exec_frame hexec
      exact ⟨hacc, .inl (.inr (.inl ((exec_control hexec).trans hpull)))⟩
    · exact ⟨s.takeError_tickAcc e, .inl (.inr (.inl ((s.takeError_control e).trans hpull)))⟩
    · exact ⟨s.nextTrack_tickAcc, .inl (nextTrack_inTick s)⟩
  · exact ⟨s.finishTick_tickAcc, .inr (.inl s.finishTick_control)⟩

/-- The ranges of R10, as arithmetic. -/
theorem wellFormed_iff (sampleRate romSize : Nat) :
    Config.wellFormed sampleRate romSize = true ↔
      256 ≤ sampleRate ∧ sampleRate ≤ 2 ^ 20 ∧ 1 ≤ romSize ∧ romSize ≤ Config.romSizeMax := by
  simp only [Config.wellFormed, Bool.and_eq_true, decide_eq_true_eq, and_assoc]

theorem State.tickDue_iff (s : State) : s.tickDue = true ↔ 60 * s.sampleRate ≤ s.tickAcc.toNat := decide_eq_true_iff

theorem State.beginTick_tickAcc_toNat (s : State) :
    s.beginTick.tickAcc.toNat = s.tickAcc.toNat - 60 * s.sampleRate := by
  have hlt := s.tickAcc.isLt
  show (BitVec.ofNat 32 _).toNat = _
  rw [BitVec.toNat_ofNat, Nat.mod_eq_of_lt (by omega)]

/-- A frame adds less than THR, so a tick that begins leaves the accumulator below THR (R23, R76). -/
theorem State.Inv.beginTick_tickDue {s : State} (h : s.Inv) : s.beginTick.tickDue = false := by
  obtain ⟨hrate, -⟩ := (wellFormed_iff _ _).mp h.config
  have hacc : s.tickAcc.toNat < 60 * s.sampleRate + 48 * 255 := h.session.tickAcc
  refine decide_eq_false ?_
  rw [State.beginTick_tickAcc_toNat]
  show ¬60 * s.sampleRate ≤ _
  omega

/-! ### How a channel changes -/

/-- How one step can change a channel `c` of the state `s`. -/
inductive ChannelChange (s : State) (c : Channel) : Channel → Prop
  | kept : ChannelChange s c c
  | cleared : ChannelChange s c Channel.zero
  | advanced : ChannelChange s c c.frameAdvance
  | extended (dur : Byte) : ChannelChange s c (c.extend s.cur dur)
  | started {key vel : Bits7} {gate : Byte} {v : Voice} (hpull : s.control = .pull)
      (hv : resolve s.rom s.song.instTable.toNat s.curTrack.program.toNat key.toNat = some v) :
      ChannelChange s c (newChannel s.cur key vel gate v s.allocSeq)
  | ticked : ChannelChange s c c.tick
  | recomputed (u : Track) : ChannelChange s c (c.tick.recompute s.sampleRate u)
  | stopped {d : Channel} : ChannelChange s c d → ChannelChange s c d.stop

/-- The channels after an update that leaves them. -/
theorem ChannelChange.of_ch_eq {s t : State} (h : t.ch = s.ch) (j : ChanIdx) : ChannelChange s s.ch[j] t.ch[j] :=
  h ▸ .kept

theorem State.start_ch_get (s : State) (j : ChanIdx) : s.start.ch[j] = Channel.zero := by
  obtain ⟨_, -, h⟩ | ⟨_, -, h⟩ := start_cases s <;> rw [h] <;> exact chanTable_get _ j

/-- A host register write leaves the channels, or is a START, which clears them. -/
theorem State.writeReg_ch_get (s : State) (off : Nat) (v : Word) (j : ChanIdx) :
    (s.writeReg off v).ch[j] = s.ch[j] ∨ (s.writeReg off v).ch[j] = Channel.zero := by
  obtain ⟨-, hw⟩ | ⟨-, hw⟩ | ⟨-, hw⟩ | hw := writeReg_cases s off v <;> rw [hw]
  · obtain ⟨-, hc⟩ | ⟨-, -, -, hc⟩ | ⟨-, -, hc⟩ := writeCtrl_cases s v <;> rw [hc]
    · exact .inr (State.start_ch_get _ j)
    · exact .inl rfl
    · exact .inl rfl
  · exact .inl rfl
  · exact .inl rfl
  · exact .inl rfl

theorem State.takeError_channelChange (s : State) (e : ErrKind) (j : ChanIdx) :
    ChannelChange s s.ch[j] (s.takeError e).ch[j] := by
  obtain ⟨-, h⟩ | ⟨-, h⟩ := takeError_cases s e <;> rw [h]
  · rw [State.abortSession_ch_get]
    exact .stopped .kept
  · exact .kept

/-- Of the instructions, NOTE and TIE alone write channels, but for the abort of an error. -/
theorem exec_channelChange {i : Instr} {s t : State} (hpull : s.control = .pull) (h : exec i s = .next t) (j : ChanIdx) :
    ChannelChange s s.ch[j] t.ch[j] := by
  cases i with
  | note key vel gate =>
    obtain ⟨-, rfl⟩ | ⟨v, hv, rfl⟩ := execNote_next h
    · exact s.takeError_channelChange _ j
    · have hch := s.allocateNote_ch_get key vel gate v j
      rw [State.setCur_ch, hch]
      split
      · exact .started hpull hv
      · exact .kept
  | tie dur =>
    obtain rfl := execTie_next h
    have hch : (chanTable fun j => s.ch[j].extend s.cur dur)[j] = s.ch[j].extend s.cur dur := chanTable_get _ j
    rw [State.setCur_ch, hch]
    exact .extended dur
  | jump a =>
    obtain ⟨-, rfl⟩ | ⟨-, rfl⟩ := execJump_next h
    · exact .kept
    · exact s.takeError_channelChange _ j
  | call a =>
    obtain ⟨-, rfl⟩ | ⟨-, -, rfl⟩ | ⟨-, -, rfl⟩ := execCall_next h
    · exact s.takeError_channelChange _ j
    · exact .kept
    · exact s.takeError_channelChange _ j
  | ret =>
    obtain ⟨-, rfl⟩ | ⟨-, rfl⟩ := execRet_next h
    · exact s.takeError_channelChange _ j
    · exact .kept
  | rest _ => exact .of_ch_eq (execRest_next h ▸ rfl) j
  | eot => exact .of_ch_eq (execEot_next h ▸ rfl) j
  | tempo _ => exact .of_ch_eq (execTempo_next h ▸ rfl) j
  | prog _ => exact .of_ch_eq (execProg_next h ▸ rfl) j
  | vol _ => exact .of_ch_eq (execVol_next h ▸ rfl) j
  | pan _ => exact .of_ch_eq (execPan_next h ▸ rfl) j
  | bend _ => exact .of_ch_eq (execBend_next h ▸ rfl) j
  | vib _ _ _ => exact .of_ch_eq (execVib_next h ▸ rfl) j
  | trem _ _ _ => exact .of_ch_eq (execTrem_next h ▸ rfl) j

/-- A channel after phases 3 and 4 of the tick: ticked, and recomputed under its track if it is still live (R80). -/
theorem State.recomputePhase_ch_get (s : State) (j : ChanIdx) :
    s.lfoPhase.envelopePhase.recomputePhase.ch[j] =
      if s.ch[j].tick.live then s.ch[j].tick.recompute s.sampleRate s.lfoPhase.trk[s.ch[j].track]
      else s.ch[j].tick := by
  have htick : s.lfoPhase.envelopePhase.ch[j] = s.ch[j].tick := chanTable_get _ j
  have hget : s.lfoPhase.envelopePhase.recomputePhase.ch[j] =
      if s.lfoPhase.envelopePhase.ch[j].live then s.lfoPhase.envelopePhase.ch[j].recompute s.sampleRate
        s.lfoPhase.trk[s.lfoPhase.envelopePhase.ch[j].track] else s.lfoPhase.envelopePhase.ch[j] := chanTable_get _ j
  simp only [hget, htick, Channel.tick_track]

/-- The end of the song frees every channel (R84). -/
theorem State.finishTick_ch_get (s : State) (j : ChanIdx) :
    s.finishTick.ch[j] =
      if s.lfoPhase.allInactive then s.lfoPhase.envelopePhase.recomputePhase.ch[j].stop
      else s.lfoPhase.envelopePhase.recomputePhase.ch[j] := by
  obtain ⟨hall, h⟩ | ⟨hall, h⟩ := endPhase_cases s.lfoPhase.envelopePhase.recomputePhase.countPhase <;>
    rw [State.finishTick_eq, h]
  · exact (chanTable_get _ j).trans (if_pos hall).symm
  · exact (if_neg (Bool.not_eq_true _ ▸ hall)).symm

theorem State.finishTick_channelChange (s : State) (j : ChanIdx) : ChannelChange s s.ch[j] s.finishTick.ch[j] := by
  have hphase : ChannelChange s s.ch[j] s.lfoPhase.envelopePhase.recomputePhase.ch[j] := by
    rw [State.recomputePhase_ch_get]
    split
    · exact .recomputed _
    · exact .ticked
  rw [State.finishTick_ch_get]
  split
  · exact .stopped hphase
  · exact hphase

/-- Every step changes every channel in a way that `ChannelChange` lists. -/
theorem step_channelChange {s t : State} (h : step s = .next t) (j : ChanIdx) : ChannelChange s s.ch[j] t.ch[j] := by
  obtain ⟨-, ⟨-, h⟩ | ⟨-, h⟩ | ⟨-, rfl⟩ | ⟨hpull, h⟩ | ⟨-, rfl⟩⟩ := step_next_cases h
  · obtain ⟨-, rfl⟩ | ⟨op, rest, -, -, rfl⟩ := stepIdle_next_cases h
    · exact .kept
    · cases op with
      | readReg off size => exact .kept
      | writeReg off size v =>
        obtain hw | hw := State.writeReg_ch_get { s with pending := rest } off v j
        · exact hw ▸ .kept
        · exact hw ▸ .cleared
      | renderFrame => exact .kept
  · obtain ⟨-, rfl⟩ | ⟨-, -, -, rfl⟩ | ⟨-, -, -, rfl⟩ | ⟨-, -, u, l, r, hmix, rfl⟩ := stepBoundary_next_cases h
    · exact .kept
    · have hstop : s.honourStop.ch[j] = s.ch[j].stop := chanTable_get _ j
      rw [State.answer_ch, hstop]
      exact .stopped .kept
    · exact .kept
    · obtain ⟨_, _, -, rfl, -, -⟩ := mix_cases hmix
      have hadvance : (chanTable fun j => s.ch[j].frameAdvance)[j] = s.ch[j].frameAdvance := chanTable_get _ j
      rw [State.answer_ch, State.accumulate_ch, hadvance]
      exact .advanced
  · exact .of_ch_eq s.enterTrack_ch j
  · obtain ⟨-, rfl⟩ | ⟨-, -, i, -, hexec⟩ | ⟨-, -, e, -, rfl⟩ | ⟨-, -, rfl⟩ := stepPull_next_cases h
    · exact .kept
    · exact exec_channelChange hpull hexec j
    · exact s.takeError_channelChange e j
    · exact .of_ch_eq s.nextTrack_ch j
  · exact s.finishTick_channelChange j

/-! ### The envelope transitions (R113) -/

/-- A tick leaves the phase, or takes it along R113's transitions, none of which leads into Attack. -/
theorem Channel.tick_state_follows (c : Channel) :
    EnvFollows c.state c.tick.state ∧ (c.tick.state = .attack → c.state = .attack) := by
  by_cases hrelease : c.state = .release ∨ (c.state ≠ .idle ∧ c.gate = 0)
  · have hlive : c.state ≠ .idle := by
      intro hidle
      simp [hidle] at hrelease
    rw [Channel.tick_release hrelease, EnvFollows]
    split
    · simp
    · cases hc : c.state <;> simp_all
  · rw [not_or, not_and_or, not_not] at hrelease
    obtain ⟨hrel, hgate⟩ := hrelease
    cases hc : c.state with
    | idle => rw [Channel.tick_idle hc, hc]; exact ⟨.inl rfl, id⟩
    | release => exact absurd hc hrel
    | attack =>
      rw [Channel.tick_attack hc (by simpa [hc] using hgate), EnvFollows]
      split <;> simp
    | decay =>
      rw [Channel.tick_decay hc (by simpa [hc] using hgate), EnvFollows]
      split <;> simp
    | sustain =>
      rw [Channel.tick_sustain hc (by simpa [hc] using hgate), hc, EnvFollows]
      simp

/-- The phases a channel changes between follow R113, and it enters Attack at a pull loop alone. -/
theorem ChannelChange.state_follows {s : State} {c d : Channel} (h : ChannelChange s c d) :
    EnvFollows c.state d.state ∧ (d.state = .attack → c.state ≠ .attack → s.control = .pull) := by
  induction h with
  | kept => exact ⟨.inl rfl, fun ha hn => absurd ha hn⟩
  | cleared | stopped => exact ⟨.inr (.inl rfl), nofun⟩
  | advanced =>
    obtain h | h := c.frameAdvance_state <;> rw [h]
    · exact ⟨.inl rfl, fun ha hn => absurd ha hn⟩
    · exact ⟨.inr (.inl rfl), nofun⟩
  | extended dur =>
    have hstate : (c.extend s.cur dur).state = c.state := by unfold Channel.extend; split <;> rfl
    rw [hstate]
    exact ⟨.inl rfl, fun ha hn => absurd ha hn⟩
  | started hpull => exact ⟨.inr (.inr (.inl rfl)), fun _ _ => hpull⟩
  | ticked | recomputed =>
    obtain ⟨hfollows, hattack⟩ := c.tick_state_follows
    exact ⟨hfollows, fun ha hn => absurd (hattack ha) hn⟩

/-! ### The statements -/

/-- Settles O7: no step changes the ROM at all. -/
theorem noStepWritesTheRom : Obligations.NoStepWritesTheRom := by
  intro s t h
  obtain ⟨hrate, hrom, -, -⟩ := step_frame h
  exact ⟨hrate, by rw [hrom], fun a => by rw [hrom]⟩

/-- Settles O34: the changes of `ChannelChange`, by the phase each leads to. -/
theorem envelopeTransitionsAreListed : Obligations.EnvelopeTransitionsAreListed :=
  fun _ _ j h => (step_channelChange h j).state_follows

/-- Settles O49: where a step takes an operation, and where it answers one. -/
theorem hostOperationsInOrder : Obligations.HostOperationsInOrder :=
  fun _ _ h => ⟨(step_frame h).pending, (step_frame h).answers⟩

/-- Settles O52: of the steps at the loop test only `beginTick` enters a tick; inside it, `step_inTick`. -/
theorem atMostOneTickPerFrame : Obligations.AtMostOneTickPerFrame := by
  refine ⟨fun s t hinv hcontrol h henter => ?_, fun s t hin h => ?_⟩
  · rw [step_boundary hinv.config hcontrol] at h
    obtain ⟨-, rfl⟩ | ⟨-, -, -, rfl⟩ | ⟨-, -, -, rfl⟩ | ⟨-, -, u, l, r, -, rfl⟩ := stepBoundary_next_cases h
    · cases henter
    · cases henter
    · exact hinv.beginTick_tickDue
    · cases henter
  · obtain ⟨hacc, hgoes⟩ := step_inTick hin h
    refine ⟨hacc, (step_frame h).sampleRate, ?_⟩
    obtain hin | hgoes := hgoes
    · exact hin.imp_right (Or.imp_right .inl)
    · exact .inr (.inr (.inr hgoes))

end Sys2Proof.Machine
end

