-- ==== Sys2Proof/Proofs/Oscillators.lean ====
section
/-! PROOF. The voices of a channel (spec/44_channel_engine.md, R122 to R128): the pitch increment doubles per octave up to
the rounding of one division; the noise register keeps a bit set in the part that its mode feeds back; a sample position
is a pair of an index and a fraction, each of which an advance gives. -/

namespace Sys2Proof.Machine

/-! ### The pitch increment (R123) -/

/-- Doubling a dividend doubles the quotient, up to its rounding. -/
theorem double_div_bounds (x : Nat) {d : Nat} (hd : 0 < d) : 2 * (x / d) ≤ 2 * x / d ∧ 2 * x / d ≤ 2 * (x / d) + 1 := by
  constructor
  · rw [Nat.le_div_iff_mul_le hd, mul_assoc]
    exact Nat.mul_le_mul_left 2 (Nat.div_mul_le_self x d)
  · have hlt : x < x / d * d + d := Nat.lt_div_mul_add hd
    rw [← Nat.lt_succ_iff, Nat.div_lt_iff_lt_mul hd]
    linarith

/-- At a voice's own key the multiplier is 1 and eleven octaves are above the lowest. -/
theorem pitchInc_base (sampleRate f b : Nat) :
    pitchInc sampleRate f b (64 * b) = f * 2 ^ 22 / sampleRate := by
  have hq : 64 * b + 8448 - 64 * b = 8448 := by omega
  have hscale : f * 65536 * 2 ^ 11 = 32 * (f * 2 ^ 22) := by ring
  have hm : pitchMultiplier (8448 / 64 % 12) (8448 % 64) = 65536 := by decide
  rw [pitchInc, hq]
  show f * pitchMultiplier (8448 / 64 % 12) (8448 % 64) * 2 ^ 11 / (32 * sampleRate) = _
  rw [hm, hscale, Nat.mul_div_mul_left _ _ (by decide)]

/-- Twelve semitones up the same multiplier meets one octave more. -/
theorem pitchInc_octave {sampleRate : Nat} (hrate : 1 ≤ sampleRate) (f : Nat) {b : Nat} (hb : b ≤ 127) (p : Nat) :
    2 * pitchInc sampleRate f b p ≤ pitchInc sampleRate f b (p + 768) ∧
      pitchInc sampleRate f b (p + 768) ≤ 2 * pitchInc sampleRate f b p + 1 := by
  have hq : p + 768 + 8448 - 64 * b = p + 8448 - 64 * b + 64 * 12 := by omega
  generalize hQ : p + 8448 - 64 * b = q at hq
  have hsemi : (q + 64 * 12) / 64 = q / 64 + 12 := by omega
  have hfrac : (q + 64 * 12) % 64 = q % 64 := by omega
  have hup : pitchInc sampleRate f b (p + 768) =
      2 * (f * pitchMultiplier (q / 64 % 12) (q % 64) * 2 ^ (q / 64 / 12)) / (32 * sampleRate) := by
    rw [pitchInc, hq, hsemi, hfrac, Nat.add_mod_right, Nat.add_div_right _ (by decide), Nat.pow_succ]
    congr 1
    ring
  have hhere : pitchInc sampleRate f b p =
      f * pitchMultiplier (q / 64 % 12) (q % 64) * 2 ^ (q / 64 / 12) / (32 * sampleRate) := by rw [pitchInc, hQ]
  rw [hup, hhere]
  exact double_div_bounds _ (by omega)

/-! ### Square and ProgrammableWave (R125, R126) -/

theorem dutyEighths_getD (duty : BitVec 2) :
    dutyEighths.getD duty.toNat 0 = if duty = 0 then 1 else if duty = 1 then 2 else if duty = 2 then 4 else 6 := by
  revert duty; decide

section Kinds

variable {c : Channel}

theorem Channel.sample_square {duty : BitVec 2} (h : c.voice.kind = .square duty) (r : Rom) :
    c.sample r = some (squareSample duty c.phase) := by rw [Channel.sample, h]

theorem Channel.sample_wave {w : Word} (h : c.voice.kind = .programmableWave w) (r : Rom) :
    c.sample r = waveSample r w c.phase := by rw [Channel.sample, h]

theorem Channel.sample_noise {short : Bool} (h : c.voice.kind = .noise short) (r : Rom) :
    c.sample r = some (noiseSample c.lfsr) := by rw [Channel.sample, h]

theorem Channel.advance_square {duty : BitVec 2} (h : c.voice.kind = .square duty) : c.advance = c.advancePhase := by
  rw [Channel.advance, h]

theorem Channel.advance_wave {w : Word} (h : c.voice.kind = .programmableWave w) : c.advance = c.advancePhase := by
  rw [Channel.advance, h]

theorem Channel.advance_noise {short : Bool} (h : c.voice.kind = .noise short) : c.advance = c.advanceNoise short := by
  rw [Channel.advance, h]

/-- An advance of a Square or a ProgrammableWave is that of its phase. -/
theorem Channel.advance_phaseOnly (h : c.advance = c.advancePhase) :
    PhaseAdvances c c.advance ∧ c.advance = { c with phase := c.advance.phase } := by
  rw [h]
  exact ⟨c.advancePhase_phaseAdvances, rfl⟩

end Kinds

/-! ### Noise (R127) -/

/-- How many bits of the noise register its mode feeds back: a register that runs has one of them set. -/
def lfsrWidth (short : Bool) : Nat := if short then 7 else 15

/-- A number has a bit below `w` set when it is not 0 modulo 2^w. -/
theorem mod_two_pow_ne_zero_iff (x w : Nat) : x % 2 ^ w ≠ 0 ↔ ∃ k, k < w ∧ x.testBit k = true := by
  constructor
  · intro h
    obtain ⟨k, hk⟩ := Nat.exists_testBit_of_ne_zero h
    rw [Nat.testBit_mod_two_pow, Bool.and_eq_true, decide_eq_true_eq] at hk
    exact ⟨k, hk⟩
  · rintro ⟨k, hk, hbit⟩ h0
    have hzero : (x % 2 ^ w).testBit k = false := by rw [h0, Nat.zero_testBit]
    rw [Nat.testBit_mod_two_pow, hbit, decide_eq_true hk] at hzero
    cases hzero

theorem lfsrRunning_iff (short : Bool) (x : BitVec 15) :
    LfsrRunning short x ↔ ∃ k, k < lfsrWidth short ∧ x.getLsbD k = true := by
  have hbits := mod_two_pow_ne_zero_iff x.toNat (lfsrWidth short)
  simp only [BitVec.testBit_toNat] at hbits
  rw [← hbits]
  cases short with
  | true => rfl
  | false =>
    show x ≠ 0 ↔ x.toNat % 2 ^ 15 ≠ 0
    rw [Nat.mod_eq_of_lt x.isLt, Ne, ← BitVec.toNat_inj]
    rfl

/-- A bit of the shifted register, within the part the mode feeds back. -/
theorem lfsrShift_getLsbD (short : Bool) (x : BitVec 15) {k : Nat} (hk : k < 15) :
    (lfsrShift short x).getLsbD k =
      if k = 14 ∨ (short = true ∧ k = 6) then x.getLsbD 0 != x.getLsbD 1 else x.getLsbD (k + 1) := by
  obtain rfl | hne := eq_or_ne k 14
  · rw [if_pos (.inl rfl), lfsrShift_top]
  · rw [lfsrShift_bit short x (by omega)]
    simp [hne]

/-- The bit fed back stands at the top of the part. -/
theorem lfsrShift_feedback (short : Bool) (x : BitVec 15) :
    (lfsrShift short x).getLsbD (lfsrWidth short - 1) = (x.getLsbD 0 != x.getLsbD 1) := by
  cases short with
  | true => exact (lfsrShift_getLsbD true x (by decide : 6 < 15)).trans (if_pos (.inr ⟨rfl, rfl⟩))
  | false => exact lfsrShift_top false x

/-- A bit of the part above the lowest moves down within it. -/
theorem lfsrShift_down (short : Bool) (x : BitVec 15) {k : Nat} (hk : k + 1 < lfsrWidth short) :
    (lfsrShift short x).getLsbD k = x.getLsbD (k + 1) := by
  have hlt : k < 14 := by cases short <;> simp [lfsrWidth] at hk <;> omega
  rw [lfsrShift_bit short x hlt, if_neg]
  intro h
  cases short <;> simp_all [lfsrWidth]

/-- A shift keeps a bit of the part set: one above the lowest moves down, and the lowest is fed back unless the next one
moves into its place. -/
theorem lfsrShift_running {short : Bool} {x : BitVec 15} (h : LfsrRunning short x) :
    LfsrRunning short (lfsrShift short x) := by
  have hwidth : 1 < lfsrWidth short := by cases short <;> decide
  obtain ⟨k, hk, hbit⟩ := (lfsrRunning_iff short x).mp h
  refine (lfsrRunning_iff short _).mpr ?_
  cases k with
  | succ k => exact ⟨k, by omega, (lfsrShift_down short x hk).trans hbit⟩
  | zero =>
    cases hnext : x.getLsbD 1 with
    | true => exact ⟨0, by omega, (lfsrShift_down short x hwidth).trans hnext⟩
    | false => exact ⟨lfsrWidth short - 1, by omega, by rw [lfsrShift_feedback, hbit, hnext]; rfl⟩

theorem lfsrShifts_running {short : Bool} {x : BitVec 15} (h : LfsrRunning short x) (n : Nat) :
    LfsrRunning short (lfsrShifts short n x) := by
  induction n generalizing x with
  | zero => exact h
  | succ n ih => exact ih (lfsrShift_running h)

/-- The register of a new note runs in either mode (R92). -/
theorem lfsrRunning_start (short : Bool) : LfsrRunning short 0x7FFF :=
  (lfsrRunning_iff short _).mpr ⟨0, by cases short <;> decide, rfl⟩

/-- A register that runs is not 0. -/
theorem LfsrRunning.ne_zero {short : Bool} {x : BitVec 15} (h : LfsrRunning short x) : x ≠ 0 := by
  rintro rfl
  obtain ⟨k, -, hbit⟩ := (lfsrRunning_iff short 0).mp h
  simp at hbit

/-- The 7-bit mode returns after 127 shifts to its state after the first one. -/
theorem lfsrShifts_short_cycle : lfsrShifts true 128 0x7FFF = lfsrShifts true 1 0x7FFF :=
  have h32 : lfsrShifts true 32 0x7FFF = 0x27A7 := by simp [lfsrShifts, lfsrShift]
  have h64 : lfsrShifts true 32 0x27A7 = 0x3838 := by simp [lfsrShifts, lfsrShift]
  have h96 : lfsrShifts true 32 0x3838 = 0x31B1 := by simp [lfsrShifts, lfsrShift]
  have h128 : lfsrShifts true 32 0x31B1 = 0x3FBF := by simp [lfsrShifts, lfsrShift]
  calc lfsrShifts true (32 + (32 + (32 + 32))) 0x7FFF
    _ = 0x3FBF := by rw [lfsrShifts_add, lfsrShifts_add, lfsrShifts_add, h32, h64, h96, h128]
    _ = lfsrShifts true 1 0x7FFF := by decide

/-! ### DirectSample (R128) -/

/-- The index and the fraction of a position. -/
theorem position_parts {i f : Nat} (hi : i < 2 ^ 32) (hf : f < 2 ^ 32) :
    sampleIndex (BitVec.ofNat 64 (2 ^ 32 * i + f)) = i ∧ (BitVec.ofNat 64 (2 ^ 32 * i + f)).toNat % 2 ^ 32 = f := by
  have hlt : 2 ^ 32 * i + f < 2 ^ 64 := by omega
  rw [sampleIndex, BitVec.toNat_ofNat, Nat.mod_eq_of_lt hlt]
  omega

section Sample

variable {c : Channel} {b : Bits7} {loop : Bool} {f loopStart length dataAddr : Word}

theorem Channel.sample_directSample (h : c.voice.kind = .directSample b loop f loopStart length dataAddr) (r : Rom) :
    c.sample r = directSample r dataAddr c.pos := by rw [Channel.sample, h]

theorem Channel.advance_directSample (h : c.voice.kind = .directSample b loop f loopStart length dataAddr) :
    c.advance = c.advanceSample loop loopStart.toNat length.toNat := by rw [Channel.advance, h]

end Sample

section Advance

variable {c : Channel} {loop : Bool} {loopStart length : Nat}

/-- The sample index after an advance, before it wraps or runs out. -/
def Channel.nextIndex (c : Channel) : Nat := (c.pos.toNat + c.inc.toNat) / 2 ^ 32

/-- The fraction after an advance. -/
def Channel.nextFraction (c : Channel) : Nat := (c.pos.toNat + c.inc.toNat) % 2 ^ 32

/-- Where a loop wraps to. -/
def Channel.wrappedIndex (c : Channel) (loopStart length : Nat) : Nat :=
  loopStart + (c.nextIndex - length) % (length - loopStart)

theorem Channel.advanceSample_keeps (c : Channel) (loop : Bool) (loopStart length : Nat) :
    c.advanceSample loop loopStart length = { c with
      pos := (c.advanceSample loop loopStart length).pos, state := (c.advanceSample loop loopStart length).state } := by
  unfold Channel.advanceSample
  simp only
  split
  · rfl
  · split <;> rfl

theorem Channel.advanceSample_inside (h : c.nextIndex < length) :
    c.advanceSample loop loopStart length =
      { c with pos := BitVec.ofNat 64 (2 ^ 32 * c.nextIndex + c.nextFraction) } := by
  rw [Channel.nextIndex, Channel.nextFraction, Nat.div_add_mod]
  exact if_pos h

theorem Channel.advanceSample_wraps (h : length ≤ c.nextIndex) :
    c.advanceSample true loopStart length =
      { c with pos := BitVec.ofNat 64 (2 ^ 32 * c.wrappedIndex loopStart length + c.nextFraction) } := if_neg h.not_gt

theorem Channel.advanceSample_ends (h : length ≤ c.nextIndex) :
    c.advanceSample false loopStart length =
      { c with pos := BitVec.ofNat 64 (c.pos.toNat + c.inc.toNat), state := .idle } := if_neg h.not_gt

theorem Channel.wrappedIndex_lt (c : Channel) (h : loopStart < length) : c.wrappedIndex loopStart length < length := by
  have hmod : (c.nextIndex - length) % (length - loopStart) < length - loopStart := Nat.mod_lt _ (by omega)
  rw [Channel.wrappedIndex]
  omega

theorem Channel.nextFraction_lt (c : Channel) : c.nextFraction < 2 ^ 32 := Nat.mod_lt _ (by decide)

end Advance

/-! ### The statements -/

/-- Settles O37: the procedure is the model's; then `pitchInc_base` and `pitchInc_octave`. -/
theorem pitchAtBaseKeyAndOctave : Obligations.PitchAtBaseKeyAndOctave := fun _ f _ hrate hb =>
  ⟨fun _ => rfl, pitchInc_base _ f _, pitchInc_octave hrate f hb⟩

/-- Settles O39: a register that runs stays running (`lfsrShifts_running`), and the cycle closes once
(`lfsrShifts_short_cycle`), so that it closes after any number of further shifts. -/
theorem noiseRegisterNeverZero : Obligations.NoiseRegisterNeverZero := by
  refine ⟨fun r c short hkind => ⟨?sample, ?phase, ?advance⟩, fun short x k hk => lfsrShift_getLsbD short x hk,
    fun short n => ?nonzero, fun n => ?cycle⟩
  case sample =>
    rw [Channel.sample_noise hkind, noiseSample]
    cases c.lfsr.getLsbD 0 <;> rfl
  case phase =>
    rw [Channel.advance_noise hkind]
    exact c.advancePhase_phaseAdvances
  case advance =>
    rw [Channel.advance_noise hkind, lfsrShift_iterate]
    rfl
  case nonzero =>
    rw [lfsrShift_iterate]
    exact (lfsrShifts_running (lfsrRunning_start short) n).ne_zero
  case cycle =>
    rw [show n + 1 + 127 = 128 + n by omega, Nat.add_comm n 1, lfsrShift_iterate, lfsrShift_iterate, lfsrShifts_add,
      lfsrShifts_add, lfsrShifts_short_cycle]

/-- Settles O40: Square and ProgrammableWave by their sample and `Channel.advance_phaseOnly`; a DirectSample by the three
equations of `Channel.advanceSample`, whose positions `position_parts` takes apart. -/
theorem samplePlayerStaysInside : Obligations.SamplePlayerStaysInside := by
  refine ⟨fun r c duty hkind => ⟨?square, Channel.advance_phaseOnly (Channel.advance_square hkind)⟩,
    fun r c w hkind => ⟨fun y hy => ?wave, Channel.advance_phaseOnly (Channel.advance_wave hkind)⟩,
    fun c b loop f loopStart length dataAddr hkind => ?direct⟩
  case square => rw [Channel.sample_square hkind, squareSample, dutyEighths_getD]
  case wave => rw [Channel.sample_wave hkind, waveSample]; simp only [hy]
  case direct =>
    rw [Channel.advance_directSample hkind]
    refine ⟨fun r y hy => ?_, c.advanceSample_keeps loop _ _, fun hloop _ =>
      ⟨fun hx => ?_, fun hx hlooped => ?_, fun hx hended => ?_⟩⟩
    · rw [Channel.sample_directSample hkind, directSample, sampleIndex, hy, Option.map_some, sext8_eq_toInt]
    · rw [Channel.advanceSample_inside hx]
      exact ⟨rfl, position_parts (hx.trans length.isLt) c.nextFraction_lt⟩
    · have hlt := c.wrappedIndex_lt (hloop hlooped)
      obtain ⟨hindex, hfraction⟩ := position_parts (hlt.trans length.isLt) c.nextFraction_lt
      rw [hlooped, Channel.advanceSample_wraps hx]
      exact ⟨rfl, hfraction, hindex, hindex.trans_lt hlt⟩
    · rw [hended, Channel.advanceSample_ends hx]
      exact ⟨rfl, BitVec.toNat_ofNat _ _⟩

end Sys2Proof.Machine
end

