-- ==== Sys2Proof/Proofs/Reverb.lean ====
section
/-! PROOF. The reverb (spec/45_mixer.md, R131): the output is written over the one entry it was read from. -/

namespace Sys2Proof.Machine

/-- `asr` by 7 is the floor of the quotient by 128 (R13). -/
theorem asr_seven (x : Int) : asr x 7 = Int.fdiv x 128 := (Int.fdiv_eq_ediv_of_nonneg x (by decide)).symm

theorem reverbSide_toInt (acc : Int) (line : Half) (d : Nat) :
    (reverbSide acc line d).toInt = min 32767 (max (-32768) (acc + Int.fdiv (line.toInt * d) 128)) := by
  rw [reverbSide, sat16_toInt, asr_seven]

/-- An entry of the line after one of them was replaced. -/
theorem getD_set_of_lt {l : List Half} {i : Nat} (hi : i < l.length) (x : Half) (k : Nat) :
    (l.set i x).getD k 0 = if k = i then x else l.getD k 0 := by
  obtain rfl | hk := eq_or_ne k i
  · rw [if_pos rfl, List.getD_eq_getElem?_getD, List.getElem?_set_self hi, Option.getD_some]
  · rw [if_neg hk, List.getD_eq_getElem?_getD, List.getElem?_set_ne hk.symm, List.getD_eq_getElem?_getD]

/-- The floor keeps a tail of -1: for d from 1 to 127 the floor of -d/128 is -1. -/
theorem reverbSide_tail {d : Nat} (hlo : 1 ≤ d) (hhi : d ≤ 127) : (reverbSide 0 (BitVec.ofInt 16 (-1)) d).toInt = -1 := by
  have hone : (BitVec.ofInt 16 (-1)).toInt = -1 := by decide
  have hfloor : asr (-1 * (d : Int)) 7 = -1 := by unfold asr; omega
  rw [reverbSide, sat16_toInt, hone, hfloor]
  decide

/-- Settles O41: both sides by `reverbSide_toInt`, the line by `getD_set_of_lt`. -/
theorem reverbFeedsBack : Obligations.ReverbFeedsBack := by
  refine ⟨fun v w n d accL accR l r hdl hdr h => ?_, fun d hlo hhi => reverbSide_tail hlo hhi⟩
  obtain ⟨rfl, rfl, rfl⟩ : _ = l ∧ _ = r ∧ _ = w := by simpa only [ReverbLine.apply, Prod.mk.injEq] using h
  exact ⟨reverbSide_toInt .., reverbSide_toInt .., rfl, List.length_set, List.length_set,
    fun k => ⟨getD_set_of_lt hdl _ k, getD_set_of_lt hdr _ k⟩⟩

end Sys2Proof.Machine
end

