-- ==== Sys2Proof/Proofs/HostRegisters.lean ====
section
/-! PROOF. The host register window (spec/10_state.md, R33 to R35) and a START whose load succeeds (spec/40_sequencer.md,
R72 and R74): a field of a word is a division and a remainder of its value; a mask shows its list bit by bit; a host
operation is performed beside the operations still to come, which no write reads. -/

namespace Sys2Proof.Machine

/-! ### Fields and bits of a word -/

/-- A field of a word is known when its value is. -/
theorem extractLsb'_eq_of_toNat {x : Word} {start len v : Nat} (h : x.toNat / 2 ^ start % 2 ^ len = v) :
    x.extractLsb' start len = BitVec.ofNat len v := by
  apply BitVec.eq_of_toNat_eq
  rw [BitVec.extractLsb'_toNat, BitVec.toNat_ofNat, Nat.shiftRight_eq_div_pow, h, ← h, Nat.mod_mod]

/-- A bit of a mask register, for a table of at most 32 entries (R33). -/
theorem maskWord_getLsbD {α : Type} {n : Nat} (hn : n ≤ 32) (v : Vector α n) (p : α → Bool) (k : Nat) :
    (BitVec.ofNat 32 (maskValue (v.toList.map p))).getLsbD k = if h : k < n then p v[k] else false := by
  rw [BitVec.getLsbD_ofNat, maskValue_testBit, List.getD_eq_getElem?_getD, List.getElem?_map]
  by_cases hk : k < n
  · rw [dif_pos hk, List.getElem?_eq_getElem (by simpa using hk), Vector.getElem_toList,
      decide_eq_true (hk.trans_le hn)]
    rfl
  · rw [dif_neg hk, List.getElem?_eq_none (by simpa using hk)]
    exact Bool.and_false _

theorem Channel.live_eq_decide (c : Channel) : c.live = decide (c.state ≠ .idle) := by
  unfold Channel.live
  cases c.state <;> rfl

/-- The fields of STATUS that are numbers, and its reserved bits (R33). -/
theorem State.readReg_status_fields (s : State) :
    (s.readReg 0x04).extractLsb' 6 2 = 0 ∧ (s.readReg 0x04).extractLsb' 12 4 = 0 ∧
      ((s.readReg 0x04).extractLsb' 16 4).toNat = s.err.track.val ∧ (s.readReg 0x04).extractLsb' 20 12 = 0 := by
  have hflags := s.maskValue_sessionFlags_lt
  have hvalue := s.readReg_status_toNat
  have hcode := s.err.code.isLt
  have htrack := s.err.track.isLt
  refine ⟨extractLsb'_eq_of_toNat (v := 0) (by omega), extractLsb'_eq_of_toNat (v := 0) (by omega), ?_,
    extractLsb'_eq_of_toNat (v := 0) (by omega)⟩
  rw [BitVec.extractLsb'_toNat, Nat.shiftRight_eq_div_pow]
  omega

/-- The bytes of SONG_INFO (R33). -/
theorem State.readReg_songInfo_fields (s : State) :
    (s.readReg 0x20).extractLsb' 0 8 = s.song.numTracks ∧ (s.readReg 0x20).extractLsb' 8 8 = s.song.priority ∧
      (s.readReg 0x20).extractLsb' 16 8 = s.song.reverb ∧ (s.readReg 0x20).extractLsb' 24 8 = s.tempo := by
  have hvalue := leValue_word s.song.numTracks s.song.priority s.song.reverb s.tempo
  rw [← State.songInfoValue, ← State.readReg_songInfo] at hvalue
  have h0 := s.song.numTracks.isLt
  have h1 := s.song.priority.isLt
  have h2 := s.song.reverb.isLt
  have h3 := s.tempo.isLt
  have hfield {k : Nat} {b : Byte} (h : (s.readReg 0x20).toNat / 2 ^ k % 2 ^ 8 = b.toNat) :
      (s.readReg 0x20).extractLsb' k 8 = b := (extractLsb'_eq_of_toNat h).trans (BitVec.ofNat_toNat 8 b ▸ BitVec.setWidth_eq b)
  exact ⟨hfield (by omega), hfield (by omega), hfield (by omega), hfield (by omega)⟩

theorem State.readReg_ctrl_toNat (s : State) : (s.readReg 0x00).toNat = if s.policy then 4 else 0 := by
  rw [State.readReg_ctrl, State.ctrlValue]
  cases s.policy <;> rfl

/-! ### Writes (R33 to R35) -/

/-- A write to CTRL sets POLICY, whatever else it does (R71). -/
theorem State.writeCtrl_policy (s : State) (v : Word) : (s.writeCtrl v).policy = v.getLsbD 2 := by
  obtain ⟨-, h⟩ | ⟨-, -, -, h⟩ | ⟨-, -, h⟩ := writeCtrl_cases s v <;> rw [h]
  exact State.start_policy _

theorem State.writeReg_songTable (s : State) (v : Word) : s.writeReg 0x08 v = { s with songTable := v } := by
  unfold State.writeReg; rfl

theorem State.writeReg_songIndex (s : State) (v : Word) : s.writeReg 0x0C v = { s with songIndex := v } := by
  unfold State.writeReg; rfl

theorem State.writeReg_status (s : State) (v : Word) : s.writeReg 0x04 v = s := by
  unfold State.writeReg; rfl

section WithPending

variable (s : State) (rest : List HostOp)

theorem State.start_withPending :
    ({ s with pending := rest } : State).start = { s.start with pending := rest } := by
  rw [State.start, State.start]
  show (match loadSong s.rom s.songTable.toNat s.songIndex.toNat with
    | .error e => ({ s with pending := rest } : State).clearSession.failLoad e
    | .ok l => ({ s with pending := rest } : State).clearSession.beginSession l) = _
  cases loadSong s.rom s.songTable.toNat s.songIndex.toNat <;> rfl

theorem State.writeCtrl_withPending (v : Word) :
    ({ s with pending := rest } : State).writeCtrl v = { s.writeCtrl v with pending := rest } := by
  unfold State.writeCtrl
  dsimp only
  split
  · exact State.start_withPending { s with policy := v.getLsbD 2 } rest
  · split <;> rfl

/-- No register write reads or writes the operations still to come. -/
theorem State.writeReg_withPending (off : Nat) (v : Word) :
    ({ s with pending := rest } : State).writeReg off v = { s.writeReg off v with pending := rest } := by
  unfold State.writeReg
  split
  · exact s.writeCtrl_withPending rest v
  · rfl
  · rfl
  · rfl

end WithPending

/-! ### The access of a host operation (R34) -/

theorem regAccessOk_iff (off : Nat) (size : AccessSize) :
    regAccessOk off size = true ↔ size = .word ∧ off % 4 = 0 ∧ off ≤ 0x3C := by
  rw [regAccessOk, Bool.and_eq_true, Bool.and_eq_true, beq_iff_eq, beq_iff_eq, decide_eq_true_iff, and_assoc]
  rfl

section Access

variable {s : State} {op : HostOp} {rest : List HostOp}

theorem step_op_performed (hwf : Config.wellFormed s.sampleRate s.rom.size = true) (hidle : s.control = .idle)
    (hpending : s.pending = op :: rest) (hop : op.wellFormed = true) :
    step s = .next (({ s with pending := rest } : State).perform op) := by
  rw [step_idle hwf hidle, stepIdle]
  simp only [hpending, hop, if_true]

theorem step_op_refused (hwf : Config.wellFormed s.sampleRate s.rom.size = true) (hidle : s.control = .idle)
    (hpending : s.pending = op :: rest) (hop : op.wellFormed = false) : step s = .refused op.refusal := by
  rw [step_idle hwf hidle, stepIdle]
  simp only [hpending, hop, Bool.false_eq_true, if_false]

/-- An answer ends an operation that began between operations. -/
theorem State.answer_of_idle (h : s.control = .idle) (a : Answer) : s.answer a = { s with answers := a :: s.answers } := by
  rw [State.answer, ← h]

end Access

/-! ### The statements -/

/-- Settles O42: STATUS and SONG_INFO by their fields, the masks by `maskWord_getLsbD`. -/
theorem registerMapReadsTheFields : Obligations.RegisterMapReadsTheFields := by
  intro s
  have hflag {k : Nat} (hk : k < 8) := s.readReg_status_flag hk
  obtain ⟨hreserved, hmiddle, htrack, htop⟩ := s.readReg_status_fields
  refine ⟨s.readReg_ctrl_toNat, ⟨hflag (by decide), hflag (by decide), hflag (by decide), hflag (by decide),
    hflag (by decide), hflag (by decide), hreserved, s.readReg_status_code, hmiddle, htrack, htop⟩,
    s.readReg_songTable, s.readReg_songIndex, s.readReg_errAddr, ?opcode, s.readReg_songTicks, fun k => ?halted,
    s.readReg_songInfo_fields, fun k => ?active, fun k => ?live⟩
  case opcode =>
    have hlt := s.err.opcode.isLt
    rw [State.readReg_errOpcode, BitVec.toNat_ofNat, Nat.mod_eq_of_lt (by omega)]
  case halted => rw [State.readReg_haltedMask]; exact maskWord_getLsbD (by decide) s.trk (·.halted) k
  case active => rw [State.readReg_activeMask]; exact maskWord_getLsbD (by decide) s.trk (·.active) k
  case live =>
    simp only [← Channel.live_eq_decide]
    rw [State.readReg_channelMask]
    exact maskWord_getLsbD (by decide) s.ch (·.live) k

/-- Settles O43: each write by its register, an access by `regAccessOk_iff`. -/
theorem registerWindowIsWholeWords : Obligations.RegisterWindowIsWholeWords := by
  refine ⟨fun s v => ⟨s.writeReg_songTable v, s.writeReg_songIndex v, ?ctrl⟩, fun s off v hoff => ?readOnly,
    fun s off v hlo _ _ => ⟨s.readReg_other hlo, s.writeReg_other (by omega) v⟩,
    fun s off size v rest hwf hidle hbad => ?refused, fun s off v rest hwf hidle hle halign => ?performed⟩
  case ctrl => rw [State.readReg_ctrl_toNat, State.writeReg_ctrl, State.writeCtrl_policy]
  case readOnly =>
    obtain rfl | ⟨hlo, -, -⟩ := hoff
    · exact s.writeReg_status v
    · exact s.writeReg_other hlo v
  case refused =>
    have hnot : regAccessOk off size = false := by
      refine Bool.eq_false_iff.mpr fun h => ?_
      obtain ⟨hsize, halign, -⟩ := (regAccessOk_iff off size).mp h
      exact hbad.elim (· hsize) (· halign)
    exact ⟨fun hpending => step_op_refused hwf hidle hpending hnot,
      fun hpending => step_op_refused hwf hidle hpending hnot⟩
  case performed =>
    have hok : regAccessOk off .word = true := (regAccessOk_iff off .word).mpr ⟨rfl, halign, hle⟩
    refine ⟨fun hpending => ?_, fun hpending => ?_⟩
    · exact (step_op_performed hwf hidle hpending hok).trans
        (congrArg Host.Outcome.next (State.answer_of_idle (s := { s with pending := rest }) hidle _))
    · have hanswer := State.answer_of_idle (s := { s.writeReg off v with pending := rest })
        ((s.writeReg_control off v).trans hidle) .written
      rw [step_op_performed hwf hidle hpending hok, State.perform, State.writeReg_withPending]
      exact congrArg Host.Outcome.next (hanswer.trans (congrArg
        (fun l => { s.writeReg off v with pending := rest, answers := .written :: l }) (s.writeReg_answers off v)))

/-- Settles O46: the START is `beginSession` on a cleared session. -/
theorem startBeginsTheSession : Obligations.StartBeginsTheSession := by
  intro s l hwf hload t
  have ht : t = s.clearSession.beginSession l := by
    show s.start = _
    rw [State.start, hload]
  obtain ⟨-, hrate, -, -⟩ := (wellFormed_iff _ _).mp hwf
  have hacc : t.tickAcc.toNat = 60 * s.sampleRate := by
    rw [ht, State.beginSession_tickAcc, BitVec.toNat_ofNat]
    exact Nat.mod_eq_of_lt (by simp only [Config.thr, State.clearSession_sampleRate]; omega)
  have hdue : t.tickDue = true := (State.tickDue_iff t).mpr (by rw [hacc, ht]; exact le_rfl)
  rw [ht] at hacc hdue ⊢
  refine ⟨rfl, rfl, rfl, rfl, rfl, rfl, rfl, rfl, fun i => ?tracks, fun j => ?channels, rfl, rfl, rfl, hacc, hdue, rfl,
    rfl, rfl, rfl, rfl, rfl, rfl, rfl⟩
  case tracks => exact trackTable_get _ i
  case channels =>
    have hch : (s.clearSession.beginSession l).ch[j] = Channel.zero := chanTable_get _ j
    rw [hch]
    rfl

end Sys2Proof.Machine
end

