-- ==== Sys2Proof/Proofs/Ticks.lean ====
section
/-! PROOF. The frame step and the tick (spec/40_sequencer.md, R76 to R84): the loop test by its four cases, with the frame
sums as sums over the channels; phase 1 by its due counter; phases 2 to 6 by what each writes of a track or a channel. -/

namespace Sys2Proof.Machine

/-! ### The steps by where the machine is -/

section Step

variable {s : State}

theorem step_enter (hwf : Config.wellFormed s.sampleRate s.rom.size = true) (hcontrol : s.control = .enter) :
    step s = .next s.enterTrack := by
  rw [step, if_pos hwf, hcontrol]

theorem step_pull (hwf : Config.wellFormed s.sampleRate s.rom.size = true) (hcontrol : s.control = .pull) :
    step s = stepPull s := by
  rw [step, if_pos hwf, hcontrol]

theorem stepPull_stopped (hplaying : s.playing = false) : stepPull s = .next (s.answer .noFrame) := by
  rw [stepPull, hplaying]
  rfl

theorem stepPull_waiting (hplaying : s.playing = true) (hpulls : s.pulls = false) : stepPull s = .next s.nextTrack := by
  rw [stepPull, hplaying, hpulls]
  rfl

theorem stepBoundary_stop (hplaying : s.playing = true) (hdue : s.tickDue = true) (hstop : s.stopReq = true) :
    stepBoundary s = .next (s.honourStop.answer .noFrame) := by
  rw [stepBoundary, hplaying, hdue, hstop]
  rfl

theorem stepBoundary_tick (hplaying : s.playing = true) (hdue : s.tickDue = true) (hstop : s.stopReq = false) :
    stepBoundary s = .next s.beginTick := by
  rw [stepBoundary, hplaying, hdue, hstop]
  rfl

end Step

/-! ### The frame sums (R129) -/

theorem Channel.live_iff (c : Channel) : c.live = true ↔ c.state ≠ .idle := by simp [Channel.live]

/-- What a channel with sample `x` and gain `g` adds to one side. -/
def Channel.adds (c : Channel) (x : Int) (g : Byte) : Int := if c.state = .idle then 0 else x * g.toNat

/-- The accumulators are sums over the channels. -/
theorem mixSum_ofFn (r : Rom) {n : Nat} (c : Fin n → Channel) (x : Fin n → Int)
    (h : ∀ j, (c j).state ≠ .idle → (c j).sample r = some (x j)) :
    mixSum r (List.ofFn c) = some (∑ j, (c j).adds (x j) (c j).gL, ∑ j, (c j).adds (x j) (c j).gR) := by
  induction n with
  | zero => rfl
  | succ n ih =>
    rw [List.ofFn_succ, mixSum, ih (fun j => c j.succ) (fun j => x j.succ) fun j => h j.succ, Fin.sum_univ_succ,
      Fin.sum_univ_succ]
    by_cases hidle : (c 0).state = .idle
    · have hlive : (c 0).live = false := Bool.eq_false_iff.mpr fun hl => (Channel.live_iff _).mp hl hidle
      simp only [hlive, Channel.adds, hidle, if_true, zero_add]
      rfl
    · have hlive : (c 0).live = true := (Channel.live_iff _).mpr hidle
      simp only [hlive, h 0 hidle, Channel.adds, hidle, if_true, if_false]

theorem toList_eq_ofFn (ch : Vector Channel 12) : ch.toList = List.ofFn fun j : ChanIdx => ch[j] := by
  apply List.ext_getElem
  · simp
  · intro i h _
    rw [List.getElem_ofFn, Vector.getElem_toList]
    rfl

/-- The advance of a frame leaves an Idle channel alone. -/
theorem Channel.frameAdvance_eq (c : Channel) : c.frameAdvance = if c.state = .idle then c else c.advance := by
  unfold Channel.frameAdvance
  by_cases h : c.state = .idle
  · rw [if_pos h, if_neg fun hl => (Channel.live_iff c).mp hl h]
  · rw [if_neg h, if_pos ((Channel.live_iff c).mpr h)]

/-- A frame adds 48 times the tempo, without overflow below THR. -/
theorem State.accumulate_tickAcc_toNat {s : State} (hwf : Config.wellFormed s.sampleRate s.rom.size = true)
    (hacc : s.tickAcc.toNat < 60 * s.sampleRate) :
    s.accumulate.tickAcc.toNat = s.tickAcc.toNat + 48 * s.tempo.toNat := by
  obtain ⟨-, hrate, -, -⟩ := (wellFormed_iff _ _).mp hwf
  have htempo := s.tempo.isLt
  show (BitVec.ofNat 32 (s.tickAcc.toNat + 48 * s.tempo.toNat)).toNat = _
  rw [BitVec.toNat_ofNat, Nat.mod_eq_of_lt (by omega)]

/-! ### Phase 1 of the tick (R80, R81) -/

theorem nextTrack_phaseOneGoesOn (s : State) : PhaseOneGoesOn s s.nextTrack := by
  obtain ⟨c, hc, hlt, h⟩ | ⟨hge, h⟩ := nextTrack_cases s <;> rw [h]
  · exact ⟨rfl, (if_pos (hc ▸ hlt)).mpr ⟨rfl, hc⟩⟩
  · exact ⟨rfl, (if_neg hge.not_gt).mpr rfl⟩

theorem Track.countDown_keeps (t : Track) : t.countDown = { t with due := t.countDown.due } := by
  unfold Track.countDown
  split <;> rfl

/-- The due counter goes down to 0 and stays there. -/
theorem Track.countDown_due_toNat (t : Track) : t.countDown.due.toNat = t.due.toNat - 1 := by
  unfold Track.countDown
  split
  · show (t.due - 1).toNat = _
    bv_omega
  · omega

/-- The state in which phase 1 has counted the executing track's due counter down. -/
def State.counted (s : State) : State := { s.setCur s.curTrack.countDown with control := .pull }

section PhaseOne

variable {s : State}

theorem State.counted_curTrack (s : State) : s.counted.curTrack = s.curTrack.countDown := s.setCur_curTrack _

theorem enterTrack_active (hloaded : s.cur.val < s.trackCount) (hactive : s.curTrack.active = true) :
    s.enterTrack = s.counted := by
  rw [State.enterTrack, if_pos hloaded, if_pos hactive, State.counted]

theorem enterTrack_inactive (hloaded : s.cur.val < s.trackCount) (hactive : s.curTrack.active = false) :
    s.enterTrack = s.nextTrack := by
  rw [State.enterTrack, if_pos hloaded, if_neg (Bool.not_eq_true _ ▸ hactive)]

/-- A pull loop takes an instruction of an active track that is due. -/
theorem State.pulls_iff (s : State) : s.pulls = true ↔ s.curTrack.active = true ∧ s.curTrack.due.toNat = 0 := by
  rw [State.pulls, Bool.and_eq_true, beq_iff_eq, ← BitVec.toNat_inj]
  rfl

theorem State.not_pulls (h : s.curTrack.active = false ∨ 1 ≤ s.curTrack.due.toNat) : s.pulls = false := by
  refine Bool.eq_false_iff.mpr fun hpulls => ?_
  obtain ⟨hactive, hdue⟩ := s.pulls_iff.mp hpulls
  obtain hinactive | hwait := h
  · exact Bool.false_ne_true (hinactive.symm.trans hactive)
  · omega

theorem State.counted_active (s : State) : s.counted.curTrack.active = s.curTrack.active := by
  rw [State.counted_curTrack, Track.countDown_keeps]

theorem State.counted_due_toNat (s : State) : s.counted.curTrack.due.toNat = s.curTrack.due.toNat - 1 := by
  rw [State.counted_curTrack, Track.countDown_due_toNat]

theorem State.counted_becomes {d : Byte} (hd : d.toNat = s.curTrack.due.toNat - 1) :
    CurTrackBecomes s s.counted { s.curTrack with due := d } := by
  have hdue : s.curTrack.countDown.due = d := BitVec.eq_of_toNat_eq ((Track.countDown_due_toNat _).trans hd.symm)
  have htrack : s.curTrack.countDown = { s.curTrack with due := d } := by rw [Track.countDown_keeps, hdue]
  exact htrack ▸ curTrackBecomes_setCur s s.curTrack.countDown

end PhaseOne

/-! ### Phases 2 to 6 (R80, R121) -/

theorem State.allInactive_iff (s : State) :
    s.allInactive = true ↔ ∀ i : TrackIdx, i.val < s.song.numTracks.toNat → s.trk[i].active = false := by
  have hone (i : TrackIdx) : (!(decide (i.val < s.song.numTracks.toNat) && s.trk[i].active)) = true ↔
      (i.val < s.song.numTracks.toNat → s.trk[i].active = false) := by simp [imp_iff_not_or]
  rw [State.allInactive, List.all_eq_true]
  exact ⟨fun h i => (hone i).mp (h i (mem_trackIndices i)), fun h i _ => (hone i).mpr (h i)⟩

/-- Phase 2 writes the LFOs of a track alone. -/
theorem State.lfoPhase_active (s : State) (i : TrackIdx) : s.lfoPhase.trk[i].active = s.trk[i].active := by
  rw [State.lfoPhase_trk_get]
  split <;> rfl

theorem State.lfoPhase_allInactive (s : State) : s.lfoPhase.allInactive = s.allInactive := by
  rw [Bool.eq_iff_iff, State.allInactive_iff, State.allInactive_iff]
  simp only [State.lfoPhase_active]
  rfl

theorem State.finishTick_of_active {s : State} (h : s.allInactive = false) :
    s.finishTick = { s.lfoPhase.envelopePhase.recomputePhase.countPhase with control := .boundary } := by
  have hall : s.lfoPhase.envelopePhase.recomputePhase.countPhase.allInactive = false :=
    s.lfoPhase_allInactive.trans h
  rw [State.finishTick_eq, State.endPhase, hall]
  rfl

theorem State.finishTick_of_inactive {s : State} (h : s.allInactive = true) :
    s.finishTick = { s.lfoPhase.envelopePhase.recomputePhase.countPhase.songEnd with control := .boundary } := by
  have hall : s.lfoPhase.envelopePhase.recomputePhase.countPhase.allInactive = true :=
    s.lfoPhase_allInactive.trans h
  rw [State.finishTick_eq, State.endPhase, hall]
  rfl

/-! ### Recompute (R121) -/

theorem toNat_clamp {v : Int} {hi : Nat} : ((clamp v 0 hi).toNat : Int) = min (hi : Int) (max 0 v) :=
  Int.toNat_of_nonneg (le_min (Int.natCast_nonneg hi) (le_max_left 0 v))

theorem pitchPosition_eq (t : Track) (key : Bits7) :
    (pitchPosition t key : Int) = min 8191 (max 0 (64 * (key.toNat : Int) + 2 * t.bend.toInt + t.vib.offset)) :=
  toNat_clamp (hi := 8191)

theorem effectiveVolume_eq (t : Track) :
    (effectiveVolume t : Int) = min 127 (max 0 ((t.volume.toNat : Int) + t.trem.offset)) := toNat_clamp (hi := 127)

theorem pitchBase_lt (v : VoiceKind) : v.pitchBase.1 < 2 ^ 32 := by
  cases v with
  | directSample _ _ f _ _ _ => exact f.isLt
  | square | programmableWave => exact (by decide : Config.oscF1024 < 2 ^ 32)
  | noise => exact (by decide : Config.noiseF1024 < 2 ^ 32)

section Recompute

variable (c : Channel) (t : Track)

theorem Channel.amp_le : c.amp t ≤ 251 := by
  have hve := effectiveVolume_eq t
  exact amplitude_le (Nat.le_of_lt_succ c.env.isLt) (Nat.le_of_lt_succ c.vel.isLt) (by omega)

/-- The gains of a recompute fit their registers, and share out the amplitude. -/
theorem Channel.gains_le : gainLeft (c.amp t) t.pan.toNat + gainRight (c.amp t) t.pan.toNat ≤ 251 :=
  (gainLeft_add_gainRight_le _ t.pan.isLt.le).trans (c.amp_le t)

theorem Channel.recompute_gL (sampleRate : Nat) :
    (c.recompute sampleRate t).gL.toNat = gainLeft (c.amp t) t.pan.toNat := by
  have := c.gains_le t
  exact level_toNat (by omega)

theorem Channel.recompute_gR (sampleRate : Nat) :
    (c.recompute sampleRate t).gR.toNat = gainRight (c.amp t) t.pan.toNat := by
  have := c.gains_le t
  exact level_toNat (by omega)

theorem Channel.recompute_inc {sampleRate : Nat} (hrate : 256 ≤ sampleRate) :
    (c.recompute sampleRate t).inc.toNat =
      pitchInc sampleRate c.voice.kind.pitchBase.1 c.voice.kind.pitchBase.2 (pitchPosition t c.key) := by
  have hp := pitchPosition_eq t c.key
  have hlt := pitchInc_lt (p := pitchPosition t c.key) c.voice.kind.pitchBase.2 hrate
    (pitchBase_lt c.voice.kind) (by omega)
  exact (BitVec.toNat_ofNat _ 57).trans (Nat.mod_eq_of_lt hlt)

theorem Channel.recompute_recomputesTo {sampleRate : Nat} (hrate : 256 ≤ sampleRate) :
    RecomputesTo sampleRate t c (c.recompute sampleRate t) :=
  ⟨pitchPosition t c.key, effectiveVolume t, pitchPosition_eq t c.key, effectiveVolume_eq t, rfl,
    pitchParameters_eq_pitchBase c.voice.kind ▸ c.recompute_inc t hrate, c.recompute_gR t sampleRate,
    c.recompute_gL t sampleRate⟩

end Recompute

/-! ### The statements -/

/-- Settles O50: the four cases of the loop test; the frame's sums by `mixSum_ofFn`. -/
theorem frameStepCases : Obligations.FrameStepCases := by
  intro s hwf hcontrol
  rw [step_boundary hwf hcontrol]
  refine ⟨stepBoundary_stopped, fun hplaying hdue hstop => ?stop, fun hplaying hdue hstop => ?tick,
    fun hplaying hacc x hx => ?frame⟩
  case stop =>
    exact ⟨_, stepBoundary_stop hplaying (s.tickDue_iff.mpr hdue) hstop, rfl, rfl, rfl, rfl, rfl, rfl, rfl, rfl,
      fun j => chanTable_get (fun j => s.ch[j].stop) j⟩
  case tick =>
    exact ⟨_, stepBoundary_tick hplaying (s.tickDue_iff.mpr hdue) hstop, s.beginTick_tickAcc_toNat, rfl, rfl, rfl, rfl,
      rfl, hplaying⟩
  case frame =>
    intro accL accR
    have hdue : s.tickDue = false := Bool.eq_false_iff.mpr fun h => hacc.not_ge (s.tickDue_iff.mp h)
    have hsum : mixSum s.rom s.ch.toList = some (accL, accR) := by
      rw [toList_eq_ofFn]
      exact mixSum_ofFn s.rom (fun j : ChanIdx => s.ch[j]) x hx
    have hmix : s.mix = some ({ s with
        ch := chanTable fun j => s.ch[j].frameAdvance, rv := (s.outputFrame accL accR).2.2 },
        (s.outputFrame accL accR).1, (s.outputFrame accL accR).2.1) := by rw [State.mix, hsum]
    refine ⟨_, stepBoundary_frame hplaying hdue hmix, hplaying, rfl,
      State.accumulate_tickAcc_toNat (s := s) hwf hacc, rfl, rfl,
      ⟨_, _, rfl, fun hoff => ?_, fun hon => ?_⟩, fun j => (chanTable_get _ j).trans s.ch[j].frameAdvance_eq⟩
    · have hout : s.outputFrame accL accR = (sat16 accL, sat16 accR, s.rv) := if_neg (Bool.not_eq_true _ ▸ hoff)
      rw [hout]
      exact ⟨rfl, sat16_toInt accL, sat16_toInt accR⟩
    · have hout : s.outputFrame accL accR = s.rv.apply (s.sampleRate / 60) (s.song.reverb.toNat % 128) accL accR :=
        if_pos hon
      exact hout.symm

/-- Settles O53: a loaded track is counted down or passed over, and `nextTrack_phaseOneGoesOn`. -/
theorem dueCounterDrivesTheTrack : Obligations.DueCounterDrivesTheTrack := by
  refine ⟨fun s hwf hcontrol hplaying hcur => ?enter, fun s hwf hcontrol => ?pull⟩
  case enter =>
    have hloaded : s.cur.val < s.trackCount := lt_min hcur s.cur.isLt
    have henter := step_enter hwf hcontrol
    refine ⟨fun hactive => ?_, fun hactive hdue => ?_, fun hactive hdue => ?_⟩
    · rw [enterTrack_inactive hloaded hactive] at henter
      exact ⟨_, henter, nextTrack_phaseOneGoesOn s⟩
    · rw [enterTrack_active hloaded hactive] at henter
      have hpulls : s.counted.pulls = true :=
        s.counted.pulls_iff.mpr ⟨s.counted_active.trans hactive, s.counted_due_toNat.trans (Nat.sub_eq_zero_of_le hdue)⟩
      exact ⟨_, henter, ⟨hwf, rfl, hplaying, hpulls⟩,
        State.counted_becomes (d := 0) (Nat.sub_eq_zero_of_le hdue).symm, rfl, rfl⟩
    · rw [enterTrack_active hloaded hactive] at henter
      have hwaits : 1 ≤ s.counted.curTrack.due.toNat := s.counted_due_toNat ▸ Nat.le_sub_of_add_le hdue
      have hpull : step s.counted = .next s.counted.nextTrack :=
        (step_pull (s := s.counted) hwf rfl).trans (stepPull_waiting hplaying (State.not_pulls (.inr hwaits)))
      refine ⟨_, run_two henter hpull, ⟨s.curTrack.countDown.due, ?_, ?_⟩, ?_⟩
      · have hcount := s.curTrack.countDown_due_toNat
        have hdue' : 2 ≤ s.curTrack.due.toNat := hdue
        show s.curTrack.countDown.due.toNat + 1 = s.curTrack.due.toNat
        omega
      · rw [CurTrackBecomes, State.nextTrack_trk]
        exact State.counted_becomes s.curTrack.countDown_due_toNat
      · have hgoes := nextTrack_phaseOneGoesOn s.counted
        rw [State.nextTrack_trk]
        exact hgoes
  case pull =>
    rw [step_pull hwf hcontrol]
    exact ⟨fun hplaying hwaits => ⟨_, stepPull_waiting hplaying (State.not_pulls hwaits), nextTrack_phaseOneGoesOn s⟩,
      stepPull_stopped⟩

/-- Settles O54: the tracks by phase 2, the channels by `State.recomputePhase_ch_get`, the end of the song by phase 6. -/
theorem tickPhasesTwoToSix : Obligations.TickPhasesTwoToSix := by
  intro s hwf hpost
  obtain ⟨hrate, -⟩ := (wellFormed_iff _ _).mp hwf
  refine ⟨s.finishTick, step_post hwf hpost, fun i => ?tracks, s.finishTick_songTicks, rfl, s.finishTick_answers,
    s.finishTick_tickAcc, fun ⟨i, hloaded, hactive⟩ => ?goesOn, fun hnone => ?ends⟩
  case tracks =>
    rw [State.finishTick_trk, State.lfoPhase_trk_get]
    rfl
  case goesOn =>
    have hall : s.allInactive = false := Bool.eq_false_iff.mpr fun h =>
      Bool.false_ne_true ((s.allInactive_iff.mp h i hloaded).symm.trans hactive)
    rw [State.finishTick_of_active hall]
    refine ⟨rfl, rfl, fun j => ⟨fun hidle => ?_, fun hlive => ?_⟩⟩
    · exact (s.recomputePhase_ch_get j).trans (if_neg fun h => (Channel.live_iff _).mp h hidle)
    · have hch := (s.recomputePhase_ch_get j).trans (if_pos ((Channel.live_iff _).mpr hlive))
      have hto := s.ch[j].tick.recompute_recomputesTo s.lfoPhase.trk[s.ch[j].track] hrate
      rwa [← hch] at hto
  case ends =>
    rw [State.finishTick_of_inactive (s.allInactive_iff.mpr hnone)]
    exact ⟨rfl, rfl, fun j => congrArg Channel.state (chanTable_get _ j)⟩

end Sys2Proof.Machine
end

