-- ==== Sys2Proof/Proofs/Invariant.lean ====
section
/-! PROOF. The invariant (spec/10_state.md sections 2 to 6): the parameters and the ROM by `StepFrame`, the channels by
`ChannelChange`, and then, operation by operation, the tracks with the session (`State.SongInv`) and the control fields. -/

namespace Sys2Proof.Machine

/-! ### What holds of a channel -/

theorem Channel.Inv.of_not_live {r : Rom} {c : Channel} (hlive : c.live = false) (hgains : c.gL.toNat + c.gR.toNat ≤ 251) :
    c.Inv r :=
  ⟨fun h => absurd h (hlive ▸ Bool.false_ne_true), fun h => absurd h (hlive ▸ Bool.false_ne_true), hgains⟩

/-- The position of a new note is one that any playable voice allows (R92). -/
theorem newChannel_positionOk {r : Rom} {v : Voice} (hplay : v.kind.Playable r) (i : TrackIdx) (key vel : Bits7)
    (gate : Byte) (stamp : Word) : (newChannel i key vel gate v stamp).PositionOk := by
  show match v.kind with
    | .square _ => True
    | .programmableWave _ => True
    | .noise short => LfsrRunning short 0x7FFF
    | .directSample _ _ _ _ length _ => sampleIndex 0 < length.toNat
  cases hkind : v.kind with
  | square | programmableWave => trivial
  | noise short => exact lfsrRunning_start short
  | directSample =>
    rw [hkind] at hplay
    exact hplay.1

/-- Whether the position is allowed depends on the voice, the noise register and the position alone. -/
theorem Channel.PositionOk.congr {c d : Channel} (h : c.PositionOk) (hvoice : d.voice = c.voice) (hlfsr : d.lfsr = c.lfsr)
    (hpos : d.pos = c.pos) : d.PositionOk := by
  unfold Channel.PositionOk at h ⊢
  rwa [hvoice, hlfsr, hpos]

/-- A tick keeps what holds of a channel. -/
theorem Channel.Inv.tick {r : Rom} {c : Channel} (h : c.Inv r) : c.tick.Inv r where
  playable hlive := c.tick_voice ▸ h.playable (Channel.live_of_tick_live hlive)
  position hlive := (h.position (Channel.live_of_tick_live hlive)).congr c.tick_voice c.tick_lfsr c.tick_pos
  gains := by
    rw [Channel.tick_gL, Channel.tick_gR]
    exact h.gains

/-- A recompute writes gains that fit (R130). -/
theorem Channel.Inv.recompute {r : Rom} {c : Channel} (h : c.Inv r) (sampleRate : Nat) (u : Track) :
    (c.recompute sampleRate u).Inv r where
  playable := h.playable
  position := h.position
  gains := by
    rw [Channel.recompute_gL, Channel.recompute_gR]
    exact c.gains_le u

/-- A channel that is live after its advance is at a position that its voice allows (R127, R128). -/
theorem Channel.PositionOk.advance {r : Rom} {c : Channel} (h : c.PositionOk) (hplay : c.voice.kind.Playable r)
    (hlive : c.advance.live = true) : c.advance.PositionOk := by
  unfold Channel.PositionOk at h ⊢
  rw [Channel.advance_voice]
  cases hkind : c.voice.kind with
  | square | programmableWave => trivial
  | noise short =>
    rw [hkind] at h
    rw [Channel.advance_noise hkind]
    exact lfsrShifts_running h _
  | directSample b loop f loopStart length dataAddr =>
    rw [hkind] at hplay
    obtain ⟨-, -, hloop⟩ := hplay
    rw [Channel.advance_directSample hkind] at hlive ⊢
    obtain hx | hx := Nat.lt_or_ge c.nextIndex length.toNat
    · rw [Channel.advanceSample_inside hx]
      exact (position_parts (hx.trans length.isLt) c.nextFraction_lt).1.trans_lt hx
    · cases loop with
      | true =>
        have hlt := c.wrappedIndex_lt (hloop rfl)
        rw [Channel.advanceSample_wraps hx]
        exact (position_parts (hlt.trans length.isLt) c.nextFraction_lt).1.trans_lt hlt
      | false =>
        rw [Channel.advanceSample_ends hx] at hlive
        cases hlive

theorem Channel.Inv.frameAdvance {r : Rom} {c : Channel} (h : c.Inv r) : c.frameAdvance.Inv r := by
  unfold Channel.frameAdvance
  split
  next hlive =>
    have hplay := h.playable hlive
    refine ⟨fun _ => c.advance_voice ▸ hplay, (h.position hlive).advance hplay, ?_⟩
    rw [Channel.advance_gL, Channel.advance_gR]
    exact h.gains
  next => exact h

theorem Channel.Inv.extend {r : Rom} {c : Channel} (h : c.Inv r) (i : TrackIdx) (dur : Byte) : (c.extend i dur).Inv r := by
  unfold Channel.extend
  split
  · exact { h with }
  · exact h

/-- Every change of a channel keeps what holds of it. -/
theorem ChannelChange.inv {s : State} {c d : Channel} (h : ChannelChange s c d) (hsize : s.rom.size ≤ Config.romSizeMax)
    (hc : c.Inv s.rom) : d.Inv s.rom := by
  induction h with
  | kept => exact hc
  | cleared => exact .of_not_live rfl (by decide)
  | advanced => exact hc.frameAdvance
  | extended dur => exact hc.extend s.cur dur
  | started _ hv =>
    have hplay := resolve_playable hsize hv
    exact ⟨fun _ => hplay, fun _ => newChannel_positionOk hplay _ _ _ _ _, Nat.zero_le _⟩
  | ticked => exact hc.tick
  | recomputed u => exact hc.tick.recompute s.sampleRate u
  | stopped _ ih => exact .of_not_live rfl ih.gains

theorem State.Inv.romSize_le {s : State} (h : s.Inv) : s.rom.size ≤ Config.romSizeMax := by
  obtain ⟨-, -, -, hsize⟩ := (wellFormed_iff _ _).mp h.config
  exact hsize

theorem State.Inv.step_channels {s t : State} (h : s.Inv) (hstep : step s = .next t) (j : ChanIdx) :
    t.ch[j].Inv t.rom := by
  rw [(step_frame hstep).rom]
  exact (step_channelChange hstep j).inv h.romSize_le (h.channels j)

/-! ### What holds of a track -/

theorem Track.zero_stackAt {k : Nat} (hk : k < 3) : Track.zero.stackAt k = 0 := by
  interval_cases k <;> rfl

theorem Lfo.zero_inRange : Lfo.zero.InRange := Lfo.inRange_of_offset_zero rfl

theorem Track.zero_inv (r : Rom) : Track.zero.Inv r where
  cursor := Nat.lt_add_left _ (by decide)
  stack k hk := by
    rw [Track.zero_stackAt hk]
    exact Nat.lt_add_left _ (by decide)
  vib := Lfo.zero_inRange
  trem := Lfo.zero_inRange
  flags := by rintro ⟨h, -⟩; cases h

/-- Up to five bytes after a mapped address is within the bound (R27). -/
theorem Rom.lt_cursorBound {r : Rom} {a n : Nat} (h : r.mapped a = true) (hn : n ≤ 5) : a + n < r.cursorBound := by
  obtain ⟨-, ha⟩ := (Rom.mapped_iff r a).mp h
  rw [Rom.cursorBound]
  omega

theorem Track.loaded_inv {r : Rom} {p : Word} (h : r.mapped p.toNat = true) : (Track.loaded p).Inv r :=
  { Track.zero_inv r with
    cursor := Rom.lt_cursorBound h (Nat.zero_le 5)
    flags := by rintro ⟨-, h⟩; cases h }

/-- What a write of a register file keeps: the invariant, `halted`, and that an inactive track stays so. -/
structure Track.Keeps (r : Rom) (c u : Track) : Prop where
  inv : c.Inv r → u.Inv r
  halted : u.halted = c.halted
  active : u.active = true → c.active = true

section Tracks

variable {r : Rom} {t : Track}

theorem Track.Inv.stepOver (h : t.Inv r) (hm : r.mapped t.cursor.toNat = true) {n : Nat} (hn : n ≤ 5) :
    (t.stepOver n).Inv r :=
  { h with
    cursor := by
      have hbound := Rom.lt_cursorBound hm hn
      rw [Track.stepOver_cursor, BitVec.toNat_add, BitVec.toNat_ofNat, Nat.add_mod_mod]
      exact (Nat.mod_le _ _).trans_lt hbound }

theorem Track.Inv.enterCall (h : t.Inv r) (hm : r.mapped t.cursor.toNat = true) {addr : Word}
    (haddr : r.mapped addr.toNat = true) : (t.enterCall addr).Inv r :=
  { h with
    cursor := Rom.lt_cursorBound haddr (Nat.zero_le 5)
    stack := fun k hk => by
      rw [Track.stackAt_get _ ⟨k, hk⟩, Track.enterCall_stack_get]
      split
      · exact (h.stepOver hm (n := 5) le_rfl).cursor
      · rw [← Track.stackAt_get]
        exact h.stack k hk }

theorem Track.Inv.leaveCall (h : t.Inv r) (hsp : t.sp ≠ 0) : t.leaveCall.Inv r :=
  { h with cursor := h.stack _ (by have := t.sp.isLt; bv_omega) }

theorem Lfo.InRange.restart {l : Lfo} (h : l.InRange) : l.restart.InRange := h

theorem Lfo.InRange.set {l : Lfo} (h : l.InRange) (depth rate delay : Byte) : (l.set depth rate delay).InRange := h

theorem Track.countDown_keepsInv (r : Rom) (t : Track) : Track.Keeps r t t.countDown := by
  rw [Track.countDown_keeps]
  exact ⟨fun h => { h with }, rfl, id⟩

theorem Track.lfoStep_keepsInv (r : Rom) (t : Track) : Track.Keeps r t t.lfoStep :=
  ⟨fun h => { h with vib := t.vib.step_inRange, trem := t.trem.step_inRange }, rfl, id⟩

end Tracks

/-- An instruction takes an error, or writes the executing track's register file with one that keeps the invariant, and
channels, `tempo` and `alloc_seq`. -/
theorem exec_track {i : Instr} {s t : State} (hm : s.rom.mapped s.curAddr = true) (h : exec i s = .next t) :
    (∃ e, t = s.takeError e) ∨ ∃ u ch tempo seq, t = { s.setCur u with ch := ch, tempo := tempo, allocSeq := seq } ∧
      Track.Keeps s.rom s.curTrack u := by
  have h2 (hc : s.curTrack.Inv s.rom) := hc.stepOver hm (n := 2) (by decide)
  have h4 (hc : s.curTrack.Inv s.rom) := hc.stepOver hm (n := 4) (by decide)
  cases i with
  | rest _ => exact .inr ⟨_, _, _, _, execRest_next h, ⟨fun hc => { h2 hc with }, rfl, id⟩⟩
  | eot => exact .inr ⟨_, _, _, _, execEot_next h, ⟨fun hc => { hc with flags := by rintro ⟨h, -⟩; cases h }, rfl, nofun⟩⟩
  | jump _ =>
    obtain ⟨ha, h⟩ | ⟨-, h⟩ := execJump_next h
    · exact .inr ⟨_, _, _, _, h, ⟨fun hc => { hc with cursor := Rom.lt_cursorBound ha (Nat.zero_le 5) }, rfl, id⟩⟩
    · exact .inl ⟨_, h⟩
  | call _ =>
    obtain ⟨-, h⟩ | ⟨-, ha, h⟩ | ⟨-, -, h⟩ := execCall_next h
    · exact .inl ⟨_, h⟩
    · exact .inr ⟨_, _, _, _, h, ⟨fun hc => hc.enterCall hm ha, rfl, id⟩⟩
    · exact .inl ⟨_, h⟩
  | ret =>
    obtain ⟨-, h⟩ | ⟨hsp, h⟩ := execRet_next h
    · exact .inl ⟨_, h⟩
    · exact .inr ⟨_, _, _, _, h, ⟨fun hc => hc.leaveCall hsp, rfl, id⟩⟩
  | tempo _ => exact .inr ⟨_, _, _, _, execTempo_next h, ⟨h2, rfl, id⟩⟩
  | prog _ => exact .inr ⟨_, _, _, _, execProg_next h, ⟨fun hc => { h2 hc with }, rfl, id⟩⟩
  | vol _ => exact .inr ⟨_, _, _, _, execVol_next h, ⟨fun hc => { h2 hc with }, rfl, id⟩⟩
  | pan _ => exact .inr ⟨_, _, _, _, execPan_next h, ⟨fun hc => { h2 hc with }, rfl, id⟩⟩
  | bend _ => exact .inr ⟨_, _, _, _, execBend_next h, ⟨fun hc => { h2 hc with }, rfl, id⟩⟩
  | vib _ _ _ => exact .inr ⟨_, _, _, _, execVib_next h, ⟨fun hc => { h4 hc with vib := hc.vib.set _ _ _ }, rfl, id⟩⟩
  | trem _ _ _ => exact .inr ⟨_, _, _, _, execTrem_next h, ⟨fun hc => { h4 hc with trem := hc.trem.set _ _ _ }, rfl, id⟩⟩
  | tie _ => exact .inr ⟨_, _, _, _, execTie_next h, ⟨fun hc => { h2 hc with }, rfl, id⟩⟩
  | note _ _ _ =>
    obtain ⟨-, h⟩ | ⟨v, -, h⟩ := execNote_next h
    · exact .inl ⟨_, h⟩
    · exact .inr ⟨_, _, _, _, h,
        ⟨fun hc => { h4 hc with vib := hc.vib.restart, trem := hc.trem.restart }, rfl, id⟩⟩

/-! ### The tracks and the session, operation by operation -/

/-- The part of the invariant about the tracks and the session. -/
structure State.SongInv (s : State) : Prop where
  tracks : ∀ i : TrackIdx, s.trk[i].Inv s.rom
  session : s.SessionInv

theorem State.Inv.song {s : State} (h : s.Inv) : s.SongInv := ⟨h.tracks, h.session⟩

section Operations

variable {s : State}

/-- A write of the executing track that keeps the invariant, in a session that plays. -/
theorem State.Inv.setCur_song (h : s.Inv) (hplaying : s.playing = true) {u : Track}
    (hu : Track.Keeps s.rom s.curTrack u) (ch : Vector Channel 12) (tempo : Byte) (seq : Word) :
    State.SongInv { s.setCur u with ch := ch, tempo := tempo, allocSeq := seq } := by
  have hget (i : TrackIdx) := s.setCur_trk_get u i
  have hhalted (i : TrackIdx) : (s.setCur u).trk[i].halted = s.trk[i].halted := by
    rw [hget]
    split
    next hi => exact hi ▸ hu.halted
    next => rfl
  refine ⟨fun i => ?_, { h.session with
    silent := fun hstopped => absurd hplaying (Bool.not_eq_true _ ▸ hstopped)
    unloaded := fun i hi => ?_
    trackErr := h.session.trackErr.trans (exists_congr fun i => (hhalted i) ▸ Iff.rfl) }⟩
  · show ((s.setCur u).trk[i]).Inv s.rom
    rw [hget]
    split
    · exact hu.inv (h.tracks s.cur)
    · exact h.tracks i
  · have hinactive := h.session.unloaded i hi
    show ((s.setCur u).trk[i]).active = false
    rw [hget]
    split
    next hcur =>
      refine Bool.eq_false_iff.mpr fun hactive => ?_
      exact Bool.false_ne_true (hinactive.symm.trans (hcur ▸ hu.active hactive))
    next => exact hinactive

theorem ErrKind.code_le (e : ErrKind) : e.code.toNat ≤ 6 := by cases e <;> decide

/-- An error in a session that plays ends it with every channel freed, or halts the executing track (R140). -/
theorem State.Inv.takeError_song (h : s.Inv) (hplaying : s.playing = true) (e : ErrKind) : (s.takeError e).SongInv := by
  obtain ⟨hended, -⟩ := h.session.playing hplaying
  obtain ⟨-, ht⟩ | ⟨-, ht⟩ := takeError_cases s e <;> rw [ht]
  · exact ⟨h.tracks, { h.session with
      someTrack := nofun
      playing := nofun
      outcome := fun ⟨hend, _⟩ => Bool.false_ne_true (hended.symm.trans hend)
      loadErr := fun _ => rfl
      stopReq := nofun
      silent := fun _ j => State.silence_live (s.recordError e) j
      errCode := e.code_le }⟩
  · have hget (i : TrackIdx) : (s.recordError e).haltTrack.trk[i] =
        if i = s.cur then { s.curTrack with active := false, halted := true } else s.trk[i] :=
      State.setCur_trk_get (s.recordError e) _ i
    refine ⟨fun i => ?_, { h.session with
      unloaded := fun i hi => ?_
      trackErr := iff_of_true rfl ⟨s.cur, by rw [hget, if_pos rfl]⟩
      errCode := e.code_le }⟩
    · rw [hget]
      split
      · exact { h.tracks s.cur with flags := by rintro ⟨h, -⟩; cases h }
      · exact h.tracks i
    · rw [hget]
      split
      · rfl
      · exact h.session.unloaded i hi

/-- A STOP that is honoured (R75). -/
theorem State.Inv.honourStop_song (h : s.Inv) : s.honourStop.SongInv :=
  ⟨h.tracks, { h.session with
    someTrack := nofun
    playing := nofun
    stopReq := nofun
    silent := fun _ => State.silence_live s }⟩

theorem State.Inv.beginTick_song (h : s.Inv) : s.beginTick.SongInv :=
  ⟨h.tracks, { h.session with
    tickAcc := by
      have hacc := h.session.tickAcc
      rw [State.beginTick_tickAcc_toNat]
      exact (Nat.sub_le _ _).trans_lt hacc }⟩

/-- The reverb line keeps its length, and its index stays inside (R32, R131). -/
theorem outputFrame_line (h : s.SessionInv) (accL accR : Int) :
    (s.outputFrame accL accR).2.2.dl.length = Config.reverbDelayFrames s.sampleRate ∧
      (s.outputFrame accL accR).2.2.dr.length = Config.reverbDelayFrames s.sampleRate ∧
        (s.outputFrame accL accR).2.2.idx < Config.reverbDelayFrames s.sampleRate := by
  unfold State.outputFrame
  split
  · exact ⟨List.length_set.trans h.lineL, List.length_set.trans h.lineR, Nat.mod_lt _ (Nat.zero_lt_of_lt h.lineIdx)⟩
  · exact ⟨h.lineL, h.lineR, h.lineIdx⟩

/-- A frame of a session that plays, with no tick due (R76, R129). -/
theorem State.Inv.frame_song (h : s.Inv) (hplaying : s.playing = true) (hdue : s.tickDue = false) {u : State} {l r : Half}
    (hmix : s.mix = some (u, l, r)) : u.accumulate.SongInv := by
  obtain ⟨accL, accR, -, rfl, -, -⟩ := mix_cases hmix
  obtain ⟨hL, hR, hidx⟩ := outputFrame_line h.session accL accR
  have hacc : s.tickAcc.toNat < 60 * s.sampleRate := by
    rw [← not_le, ← State.tickDue_iff, hdue]
    exact Bool.false_ne_true
  refine ⟨h.tracks, { h.session with
    tickAcc := ?_
    silent := fun hstopped => absurd hplaying (Bool.not_eq_true _ ▸ hstopped)
    lineL := hL
    lineR := hR
    lineIdx := hidx }⟩
  have htempo := s.tempo.isLt
  show s.accumulate.tickAcc.toNat < 60 * s.sampleRate + 48 * 255
  rw [State.accumulate_tickAcc_toNat h.config hacc]
  omega

/-- The line of a block that runs has an entry: SAMPLE_RATE is at least 256 (R10, R32). -/
theorem reverbDelayFrames_pos {sampleRate romSize : Nat} (hwf : Config.wellFormed sampleRate romSize = true) :
    0 < Config.reverbDelayFrames sampleRate := by
  obtain ⟨hrate, -⟩ := (wellFormed_iff _ _).mp hwf
  exact Nat.div_pos (by omega) (by decide)

theorem clearSession_trk_get (s : State) (i : TrackIdx) : s.clearSession.trk[i] = Track.zero := trackTable_get _ i

/-- The cleared session of a START (R72). -/
theorem clearSession_song (hwf : Config.wellFormed s.sampleRate s.rom.size = true) : s.clearSession.SongInv := by
  refine ⟨fun i => clearSession_trk_get s i ▸ Track.zero_inv _, ?_⟩
  exact {
    tickAcc := Nat.lt_add_left _ (by decide : 0 < Config.accPerTempo * 255)
    maxTracks := Nat.zero_le _
    someTrack := nofun
    playing := nofun
    outcome := fun ⟨h, _⟩ => Bool.false_ne_true h
    loadErr := nofun
    stopReq := nofun
    silent := fun _ j => congrArg Channel.live (chanTable_get (fun _ => Channel.zero) j)
    unloaded := fun i _ => congrArg Track.active (clearSession_trk_get s i)
    trackErr := iff_of_false Bool.false_ne_true fun ⟨i, hi⟩ =>
      Bool.false_ne_true ((congrArg Track.halted (clearSession_trk_get s i)).symm.trans hi)
    errCode := Nat.zero_le _
    lineL := List.length_replicate
    lineR := List.length_replicate
    lineIdx := reverbDelayFrames_pos hwf }

theorem failLoad_song (h : s.SongInv) (hended : s.ended = false) (hplaying : s.playing = false) (e : LoadError) :
    (s.failLoad e).SongInv :=
  ⟨h.tracks, { h.session with
    playing := fun hp => absurd hp (hplaying ▸ Bool.false_ne_true)
    outcome := fun ⟨hend, _⟩ => Bool.false_ne_true (hended.symm.trans hend)
    loadErr := fun _ => rfl
    errCode := e.kind.code_le }⟩

theorem loadedTracks_get_cases (ptrs : List Word) (i : TrackIdx) :
    (∃ p ∈ ptrs, i.val < ptrs.length ∧ (loadedTracks ptrs)[i] = Track.loaded p) ∨
      (ptrs.length ≤ i.val ∧ (loadedTracks ptrs)[i] = Track.zero) := by
  have hget : (loadedTracks ptrs)[i] = match ptrs[i.val]? with
    | some p => Track.loaded p
    | none => Track.zero := trackTable_get _ i
  cases hp : ptrs[i.val]? with
  | some p =>
    obtain ⟨hlt, rfl⟩ := List.getElem?_eq_some_iff.mp hp
    exact .inl ⟨_, List.getElem_mem hlt, hlt, by rw [hget, hp]⟩
  | none => exact .inr ⟨List.getElem?_eq_none_iff.mp hp, by rw [hget, hp]⟩

/-- The session a START begins on a cleared one: its tracks are at mapped pointers (R73, R74). -/
theorem beginSession_song (hwf : Config.wellFormed s.sampleRate s.rom.size = true) {t k : Nat} {l : Loaded}
    (hload : loadSong s.rom t k = .ok l) : (s.clearSession.beginSession l).SongInv := by
  obtain ⟨-, hrate, -, hsize⟩ := (wellFormed_iff _ _).mp hwf
  obtain ⟨hpos, hmax, hlen, hmapped⟩ := loadSong_ok hsize hload
  have hclear := clearSession_song hwf
  refine ⟨fun i => ?_, { hclear.session with
    tickAcc := ?_
    maxTracks := hmax
    someTrack := fun _ => hpos
    playing := fun _ => ⟨rfl, rfl⟩
    stopReq := nofun
    silent := nofun
    unloaded := fun i hi => ?_
    trackErr := iff_of_false Bool.false_ne_true fun ⟨i, hi⟩ => ?_ }⟩
  · show ((loadedTracks l.tracks)[i]).Inv s.rom
    obtain ⟨p, hp, -, hget⟩ | ⟨-, hget⟩ := loadedTracks_get_cases l.tracks i <;> rw [hget]
    · exact Track.loaded_inv (hmapped p hp)
    · exact Track.zero_inv _
  · show (BitVec.ofNat 32 (60 * s.sampleRate)).toNat < 60 * s.sampleRate + 48 * 255
    rw [BitVec.toNat_ofNat, Nat.mod_eq_of_lt (by omega)]
    omega
  · show ((loadedTracks l.tracks)[i]).active = false
    obtain ⟨p, -, hlt, -⟩ | ⟨-, hget⟩ := loadedTracks_get_cases l.tracks i
    · exact absurd hi (hlen ▸ hlt).not_ge
    · rw [hget]
      rfl
  · change ((loadedTracks l.tracks)[i]).halted = true at hi
    obtain ⟨p, -, -, hget⟩ | ⟨-, hget⟩ := loadedTracks_get_cases l.tracks i <;> rw [hget] at hi <;> cases hi

theorem start_song (hwf : Config.wellFormed s.sampleRate s.rom.size = true) : s.start.SongInv := by
  obtain ⟨e, -, h⟩ | ⟨l, hload, h⟩ := start_cases s <;> rw [h]
  · exact failLoad_song (clearSession_song hwf) rfl rfl e
  · exact beginSession_song hwf hload

theorem State.Inv.writeReg_song (h : s.Inv) (off : Nat) (v : Word) : (s.writeReg off v).SongInv := by
  obtain ⟨-, hw⟩ | ⟨-, hw⟩ | ⟨-, hw⟩ | hw := writeReg_cases s off v <;> rw [hw]
  · obtain ⟨-, hc⟩ | ⟨-, -, hplaying, hc⟩ | ⟨-, -, hc⟩ := writeCtrl_cases s v <;> rw [hc]
    · exact start_song (s := { s with policy := v.getLsbD 2 }) h.config
    · exact ⟨h.tracks, { h.session with stopReq := fun _ => hplaying }⟩
    · exact ⟨h.tracks, { h.session with }⟩
  · exact ⟨h.tracks, { h.session with }⟩
  · exact ⟨h.tracks, { h.session with }⟩
  · exact h.song

theorem State.lfoPhase_keeps (s : State) (i : TrackIdx) : Track.Keeps s.rom s.trk[i] s.lfoPhase.trk[i] := by
  rw [State.lfoPhase_trk_get]
  split
  · exact Track.lfoStep_keepsInv s.rom _
  · exact ⟨id, rfl, id⟩

/-- Phase 2 writes the LFOs of a track alone (R80). -/
theorem State.SongInv.lfoPhase (h : s.SongInv) : s.lfoPhase.SongInv :=
  ⟨fun i => (s.lfoPhase_keeps i).inv (h.tracks i), { h.session with
    unloaded := fun i hi => (s.lfoPhase_active i).trans (h.session.unloaded i hi)
    trackErr := h.session.trackErr.trans (exists_congr fun i => (s.lfoPhase_keeps i).halted ▸ Iff.rfl) }⟩

/-- While a session plays, nothing is said here of its channels. -/
theorem State.SongInv.withChannels (h : s.SongInv) (hplaying : s.playing = true) (ch : Vector Channel 12) :
    State.SongInv { s with ch := ch } :=
  ⟨h.tracks, { h.session with silent := fun hstopped => absurd hplaying (Bool.not_eq_true _ ▸ hstopped) }⟩

theorem State.SongInv.countPhase (h : s.SongInv) : s.countPhase.SongInv := ⟨h.tracks, { h.session with }⟩

/-- The end of a song, with no STOP pending (R84). -/
theorem State.SongInv.songEnd (h : s.SongInv) (haborted : s.aborted = false) (hnoStop : s.stopReq = false) :
    s.songEnd.SongInv :=
  ⟨h.tracks, { h.session with
    someTrack := nofun
    playing := nofun
    outcome := fun ⟨_, habort⟩ => Bool.false_ne_true (haborted.symm.trans habort)
    stopReq := fun hstop => absurd hstop (hnoStop ▸ Bool.false_ne_true)
    silent := fun _ => State.silence_live s }⟩

/-- Phases 2 to 6 of the tick of a session that plays. -/
theorem State.Inv.finishTick_song (h : s.Inv) (hpost : s.control = .post) : s.finishTick.SongInv := by
  have hplaying := h.control.playing (.inr hpost)
  have hnoStop := h.control.noStop (.inr (.inr hpost))
  obtain ⟨-, haborted⟩ := h.session.playing hplaying
  have hticked : s.lfoPhase.envelopePhase.SongInv := h.song.lfoPhase.withChannels hplaying _
  have hphases : s.lfoPhase.envelopePhase.recomputePhase.countPhase.SongInv :=
    (hticked.withChannels hplaying _).countPhase
  obtain hall | hall := s.allInactive.eq_false_or_eq_true
  · have hends := hphases.songEnd haborted hnoStop
    rw [State.finishTick_of_inactive hall]
    exact ⟨hends.tracks, { hends.session with }⟩
  · rw [State.finishTick_of_active hall]
    exact ⟨hphases.tracks, { hphases.session with }⟩

end Operations

/-- Every step keeps the part of the invariant about the tracks and the session. -/
theorem State.Inv.step_song {s t : State} (h : s.Inv) (hstep : step s = .next t) : t.SongInv := by
  obtain ⟨-, ⟨-, hstep⟩ | ⟨-, hstep⟩ | ⟨henter, rfl⟩ | ⟨-, hstep⟩ | ⟨hpost, rfl⟩⟩ := step_next_cases hstep
  · obtain ⟨-, rfl⟩ | ⟨op, rest, -, -, rfl⟩ := stepIdle_next_cases hstep
    · exact h.song
    · cases op with
      | readReg off size => exact ⟨h.tracks, { h.session with }⟩
      | renderFrame => exact ⟨h.tracks, { h.session with }⟩
      | writeReg off size v =>
        have hw := h.writeReg_song off v
        rw [State.perform, State.writeReg_withPending]
        exact ⟨hw.tracks, { hw.session with }⟩
  · obtain ⟨-, rfl⟩ | ⟨-, -, -, rfl⟩ | ⟨-, -, -, rfl⟩ | ⟨hplaying, hdue, u, l, r, hmix, rfl⟩ :=
      stepBoundary_next_cases hstep
    · exact ⟨h.tracks, { h.session with }⟩
    · have hstop := h.honourStop_song
      exact ⟨hstop.tracks, { hstop.session with }⟩
    · exact h.beginTick_song
    · have hframe := h.frame_song hplaying hdue hmix
      exact ⟨hframe.tracks, { hframe.session with }⟩
  · have hnext : s.nextTrack.SongInv := by
      obtain ⟨_, -, -, hn⟩ | ⟨-, hn⟩ := nextTrack_cases s <;> rw [hn] <;> exact ⟨h.tracks, { h.session with }⟩
    obtain ⟨-, -, he⟩ | ⟨-, -, he⟩ | ⟨-, he⟩ := enterTrack_cases s <;> rw [he]
    · have hset := h.setCur_song (h.control.playing (.inl henter)) (s.curTrack.countDown_keepsInv s.rom) s.ch s.tempo
        s.allocSeq
      exact ⟨hset.tracks, { hset.session with }⟩
    · exact hnext
    · exact ⟨h.tracks, { h.session with }⟩
  · obtain ⟨-, rfl⟩ | ⟨hplaying, -, i, hfetch, hexec⟩ | ⟨hplaying, -, e, -, rfl⟩ | ⟨-, -, rfl⟩ :=
      stepPull_next_cases hstep
    · exact ⟨h.tracks, { h.session with }⟩
    · obtain ⟨e, rfl⟩ | ⟨u, ch, tempo, seq, rfl, hu⟩ := exec_track (mapped_of_fetch hfetch) hexec
      · exact h.takeError_song hplaying e
      · exact h.setCur_song hplaying hu ch tempo seq
    · exact h.takeError_song hplaying e
    · obtain ⟨_, -, -, hn⟩ | ⟨-, hn⟩ := nextTrack_cases s <;> rw [hn] <;> exact ⟨h.tracks, { h.session with }⟩
  · exact h.finishTick_song hpost

end Sys2Proof.Machine
end

