-- ==== Sys2Proof/Proofs/Runs.lean ====
section
/-! PROOF. The invariant over whole runs: it holds after power-on reset, every step keeps it, and under it the machine
steps on (spec/40_sequencer.md, section 1; spec/70_reset_and_hazards.md, sections 1 and 3). -/

namespace Sys2Proof.Machine

/-! ### The control fields (log entry 6) -/

/-- Outside a tick nothing is asked of the control fields. -/
theorem State.ControlInv.of_outside {s : State} (h : s.control = .idle ∨ s.control = .boundary) : s.ControlInv := by
  constructor <;> intro hin <;> rcases h with h | h <;> simp [h] at hin

section Control

variable {s : State}

/-- Phase 1 of the tick of a session that plays goes on to a loaded track, or to the later phases. -/
theorem State.ControlInv.nextTrack (hplaying : s.playing = true) (hnoStop : s.stopReq = false) : s.nextTrack.ControlInv := by
  obtain ⟨c, -, hlt, h⟩ | ⟨-, h⟩ := nextTrack_cases s <;> rw [h]
  · exact ⟨fun _ => hlt.trans_le (Nat.min_le_left _ _), fun _ => hplaying, fun _ => hnoStop⟩
  · exact ⟨(by rintro (h | h) <;> cases h), fun _ => hplaying, fun _ => hnoStop⟩

/-- An instruction or an error at a pull loop leaves the loop where it is, and no STOP pending. -/
theorem State.ControlInv.of_pull {t : State} (h : s.ControlInv) (hpull : s.control = .pull) (hcontrol : t.control = .pull)
    (hcur : t.cur = s.cur) (hsong : t.song = s.song) (hstop : t.stopReq = true → s.stopReq = true) : t.ControlInv where
  loaded _ := by
    rw [hcur, hsong]
    exact h.loaded (.inr hpull)
  playing hin := by rw [hcontrol] at hin; rcases hin with h | h <;> cases h
  noStop _ := Bool.eq_false_iff.mpr fun ht =>
    Bool.false_ne_true ((h.noStop (.inr (.inl hpull))).symm.trans (hstop ht))

theorem State.takeError_stopReq_of (s : State) (e : ErrKind) (h : (s.takeError e).stopReq = true) : s.stopReq = true := by
  obtain ⟨-, ht⟩ | ⟨-, ht⟩ := takeError_cases s e <;> rw [ht] at h
  · cases h
  · exact h

theorem State.ControlInv.takeError (h : s.ControlInv) (hpull : s.control = .pull) (e : ErrKind) :
    (s.takeError e).ControlInv :=
  h.of_pull hpull ((s.takeError_control e).trans hpull) (s.takeError_cur e) (s.takeError_song e)
    (s.takeError_stopReq_of e)

theorem State.ControlInv.exec (h : s.ControlInv) (hpull : s.control = .pull) {i : Instr} {t : State}
    (hexec : exec i s = .next t) : t.ControlInv := by
  obtain ⟨e, rfl⟩ | ⟨_, _, _, _, rfl⟩ := exec_next_shape hexec
  · exact h.takeError hpull e
  · exact h.of_pull hpull hpull rfl rfl id

end Control

/-- Every step keeps the control fields consistent. -/
theorem State.Inv.step_control {s t : State} (h : s.Inv) (hstep : step s = .next t) : t.ControlInv := by
  obtain ⟨-, ⟨hidle, hstep⟩ | ⟨-, hstep⟩ | ⟨henter, rfl⟩ | ⟨hpull, hstep⟩ | ⟨-, rfl⟩⟩ := step_next_cases hstep
  · obtain ⟨-, rfl⟩ | ⟨op, rest, -, -, rfl⟩ := stepIdle_next_cases hstep
    · exact .of_outside (.inl hidle)
    · cases op with
      | readReg off size => exact .of_outside (.inl rfl)
      | writeReg off size v => exact .of_outside (.inl rfl)
      | renderFrame => exact .of_outside (.inr rfl)
  · obtain ⟨-, rfl⟩ | ⟨-, -, -, rfl⟩ | ⟨hplaying, -, hnoStop, rfl⟩ | ⟨-, -, u, l, r, -, rfl⟩ :=
      stepBoundary_next_cases hstep
    · exact .of_outside (.inl rfl)
    · exact .of_outside (.inl rfl)
    · exact ⟨fun _ => h.session.someTrack hplaying, fun _ => hplaying, fun _ => hnoStop⟩
    · exact .of_outside (.inl rfl)
  · have hplaying := h.control.playing (.inl henter)
    have hnoStop := h.control.noStop (.inl henter)
    obtain ⟨hlt, -, he⟩ | ⟨-, -, he⟩ | ⟨-, he⟩ := enterTrack_cases s <;> rw [he]
    · exact ⟨fun _ => hlt.trans_le (Nat.min_le_left _ _), fun _ => hplaying, fun _ => hnoStop⟩
    · exact .nextTrack hplaying hnoStop
    · exact ⟨(by rintro (h | h) <;> cases h), fun _ => hplaying, fun _ => hnoStop⟩
  · obtain ⟨-, rfl⟩ | ⟨-, -, i, -, hexec⟩ | ⟨-, -, e, -, rfl⟩ | ⟨hplaying, -, rfl⟩ := stepPull_next_cases hstep
    · exact .of_outside (.inl rfl)
    · exact h.control.exec hpull hexec
    · exact h.control.takeError hpull e
    · exact .nextTrack hplaying (h.control.noStop (.inr (.inl hpull)))
  · exact .of_outside (.inr rfl)

/-! ### The invariant -/

theorem State.Inv.step {s t : State} (h : s.Inv) (hstep : Machine.step s = .next t) : t.Inv := by
  obtain ⟨hrate, hrom, -, -⟩ := step_frame hstep
  obtain ⟨htracks, hsession⟩ := h.step_song hstep
  refine ⟨?_, ?_, htracks, h.step_channels hstep, hsession, h.step_control hstep⟩
  · rw [hrate, hrom]
    exact h.config
  · rw [hrom]
    exact h.rom

/-- Power-on leaves what a START clears, with no operation in progress (R155). -/
theorem powerOn_inv {sampleRate : Nat} {rom : Rom} (hwf : Config.wellFormed sampleRate rom.size = true) (hrom : rom.wf)
    (ops : List HostOp) : State.Inv { State.powerOn sampleRate rom with pending := ops } := by
  have hclear := clearSession_song (s := State.powerOn sampleRate rom) hwf
  have hchannel (j : ChanIdx) : (State.powerOn sampleRate rom).ch[j].Inv rom := by
    rw [State.powerOn_ch_get]
    exact .of_not_live rfl (by decide)
  exact ⟨hwf, hrom, hclear.tracks, hchannel, { hclear.session with }, .of_outside (.inl rfl)⟩

/-! ### The machine steps on -/

/-- Every instruction answers a next state from every state. -/
theorem exec_answers (i : Instr) (s : State) : ∃ t, exec i s = .next t := by
  cases i with
  | jump a =>
    obtain hm | hm := (s.rom.mapped a.toNat).eq_false_or_eq_true
    · exact ⟨_, exec_jump_mapped hm⟩
    · exact ⟨_, exec_jump_unmapped hm⟩
  | call a =>
    obtain hfull | hroom := (Nat.le_of_lt_succ s.curTrack.sp.isLt : _ ≤ Config.callDepth).eq_or_lt
    · exact ⟨_, exec_call_full hfull⟩
    · obtain hm | hm := (s.rom.mapped a.toNat).eq_false_or_eq_true
      · exact ⟨_, exec_call_mapped hroom hm⟩
      · exact ⟨_, exec_call_unmapped hroom hm⟩
  | ret =>
    by_cases hsp : s.curTrack.sp = 0
    · exact ⟨_, exec_ret_empty hsp⟩
    · exact ⟨_, exec_ret_nonempty hsp⟩
  | note key vel gate =>
    cases hv : resolve s.rom s.song.instTable.toNat s.curTrack.program.toNat key.toNat with
    | none => exact ⟨_, exec_note_unresolved hv⟩
    | some v => exact ⟨_, exec_note_resolved hv⟩
  | rest | eot | tempo | prog | vol | pan | bend | vib | trem | tie => exact ⟨_, rfl⟩

section Answers

variable {s : State}

theorem stepPull_answers (s : State) : ∃ t, stepPull s = .next t := by
  obtain hplaying | hplaying := s.playing.eq_false_or_eq_true
  · obtain hpulls | hpulls := s.pulls.eq_false_or_eq_true
    · rw [stepPull, hplaying, hpulls]
      cases s.fetch with
      | ok i => exact exec_answers i s
      | error e => exact ⟨_, rfl⟩
    · exact ⟨_, stepPull_waiting hplaying hpulls⟩
  · exact ⟨_, stepPull_stopped hplaying⟩

theorem State.Inv.stepBoundary_answers (h : s.Inv) : ∃ t, stepBoundary s = .next t := by
  obtain hplaying | hplaying := s.playing.eq_false_or_eq_true
  · obtain hdue | hdue := s.tickDue.eq_false_or_eq_true
    · obtain hstop | hstop := s.stopReq.eq_false_or_eq_true
      · exact ⟨_, stepBoundary_stop hplaying hdue hstop⟩
      · exact ⟨_, stepBoundary_tick hplaying hdue hstop⟩
    · obtain ⟨u, l, r, hmix⟩ := h.mix_eq_some
      exact ⟨_, stepBoundary_frame hplaying hdue hmix⟩
  · exact ⟨_, stepBoundary_stopped hplaying⟩

/-- An operation that is not well formed is a register access. -/
theorem HostOp.refusal_of_not_wellFormed {op : HostOp} (h : op.wellFormed = false) :
    ∃ off size, op.refusal = .badRegisterAccess off size := by
  cases op with
  | readReg off size => exact ⟨off, size, rfl⟩
  | writeReg off size v => exact ⟨off, size, rfl⟩
  | renderFrame => cases h

/-- Under the invariant a step answers, or the next operation is not well formed. -/
theorem State.Inv.step_answers (h : s.Inv) :
    (∃ t, Machine.step s = .next t) ∨
      ∃ op rest, s.control = .idle ∧ s.pending = op :: rest ∧ op.wellFormed = false := by
  cases hcontrol : s.control with
  | idle =>
    cases hpending : s.pending with
    | nil => exact .inl ⟨s, (step_idle h.config hcontrol).trans (by rw [stepIdle, hpending])⟩
    | cons op rest =>
      obtain hop | hop := op.wellFormed.eq_false_or_eq_true
      · exact .inl ⟨_, step_op_performed h.config hcontrol hpending hop⟩
      · exact .inr ⟨op, rest, rfl, rfl, hop⟩
  | boundary => exact .inl ((step_boundary h.config hcontrol).symm ▸ h.stepBoundary_answers)
  | enter => exact .inl ⟨_, step_enter h.config hcontrol⟩
  | pull => exact .inl ((step_pull h.config hcontrol).symm ▸ stepPull_answers s)
  | post => exact .inl ⟨_, step_post h.config hcontrol⟩

/-- A step leaves the operations to come well formed. -/
theorem step_pending_wellFormed {t : State} (hops : ∀ op ∈ s.pending, op.wellFormed = true)
    (hstep : Machine.step s = .next t) : ∀ op ∈ t.pending, op.wellFormed = true := by
  obtain heq | ⟨-, op, heq⟩ := (step_frame hstep).pending
  · rwa [heq]
  · rw [heq] at hops
    exact (List.forall_mem_cons.mp hops).2

/-- Any number of steps under the invariant, with well-formed operations to come. -/
theorem State.Inv.run_answers (h : s.Inv) (hops : ∀ op ∈ s.pending, op.wellFormed = true) (k : Nat) :
    AnswersNext (Sys2Proof.core.run k s) State.Inv := by
  induction k generalizing s with
  | zero => exact ⟨s, rfl, h⟩
  | succ k ih =>
    obtain ⟨t, hstep⟩ | ⟨op, rest, -, hpending, hop⟩ := h.step_answers
    · have hcore : Sys2Proof.core.step s = .next t := hstep
      simp only [Host.Core.run, hcore]
      exact ih (h.step hstep) (step_pending_wellFormed hops hstep)
    · rw [hpending] at hops
      exact absurd (hops op List.mem_cons_self) (hop ▸ Bool.false_ne_true)

end Answers

/-! ### Halted tracks (R146) -/

/-- The host operation to come is a write to CTRL with START set. -/
def State.AtStart (s : State) : Prop :=
  ∃ size v rest, s.control = .idle ∧ s.pending = .writeReg 0 size v :: rest ∧ v.getLsbD 0 = true

/-- Every track that is halted in `s` is halted in `t`. -/
def StaysHalted (s t : State) : Prop := ∀ i : TrackIdx, s.trk[i].halted = true → t.trk[i].halted = true

section Halted

variable {s t : State}

theorem StaysHalted.of_trk_eq (h : t.trk = s.trk) : StaysHalted s t := fun i hi => by rwa [h]

theorem StaysHalted.setCur {u : Track} (hu : u.halted = s.curTrack.halted) (ht : t.trk = (s.setCur u).trk) :
    StaysHalted s t := by
  intro i hi
  have hget := s.setCur_trk_get u i
  rw [ht, hget]
  split
  next hcur =>
    subst hcur
    exact hu.trans hi
  next => exact hi

theorem StaysHalted.takeError (s : State) (e : ErrKind) : StaysHalted s (s.takeError e) := by
  intro i hi
  obtain h | ⟨-, -, h⟩ := s.takeError_trk_get e i <;> rw [h]
  exact hi

/-- A register write that is no START leaves the tracks. -/
theorem writeReg_trk (s : State) (off : Nat) (v : Word) :
    (off = 0 ∧ v.getLsbD 0 = true) ∨ (s.writeReg off v).trk = s.trk := by
  obtain ⟨hoff, hw⟩ | ⟨-, hw⟩ | ⟨-, hw⟩ | hw := writeReg_cases s off v <;> rw [hw]
  · obtain ⟨hbit, -⟩ | ⟨-, -, -, hc⟩ | ⟨-, -, hc⟩ := writeCtrl_cases s v
    · exact .inl ⟨hoff, hbit⟩
    · exact .inr (hc ▸ rfl)
    · exact .inr (hc ▸ rfl)
  · exact .inr rfl
  · exact .inr rfl
  · exact .inr rfl

/-- A step that is no START leaves every halted track halted. -/
theorem step_staysHalted (hstep : step s = .next t) : s.AtStart ∨ StaysHalted s t := by
  obtain ⟨-, ⟨hidle, hstep⟩ | ⟨-, hstep⟩ | ⟨-, rfl⟩ | ⟨-, hstep⟩ | ⟨-, rfl⟩⟩ := step_next_cases hstep
  · obtain ⟨-, rfl⟩ | ⟨op, rest, hpending, -, rfl⟩ := stepIdle_next_cases hstep
    · exact .inr (.of_trk_eq rfl)
    · cases op with
      | readReg off size => exact .inr (.of_trk_eq rfl)
      | renderFrame => exact .inr (.of_trk_eq rfl)
      | writeReg off size v =>
        obtain ⟨rfl, hbit⟩ | htrk := writeReg_trk { s with pending := rest } off v
        · exact .inl ⟨size, v, rest, hidle, hpending, hbit⟩
        · exact .inr (.of_trk_eq htrk)
  · obtain ⟨-, rfl⟩ | ⟨-, -, -, rfl⟩ | ⟨-, -, -, rfl⟩ | ⟨-, -, u, l, r, hmix, rfl⟩ := stepBoundary_next_cases hstep
    · exact .inr (.of_trk_eq rfl)
    · exact .inr (.of_trk_eq rfl)
    · exact .inr (.of_trk_eq rfl)
    · obtain ⟨_, _, -, rfl, -, -⟩ := mix_cases hmix
      exact .inr (.of_trk_eq rfl)
  · obtain ⟨-, -, he⟩ | ⟨-, -, he⟩ | ⟨-, he⟩ := enterTrack_cases s <;> rw [he]
    · exact .inr (.setCur (s.curTrack.countDown_keepsInv s.rom).halted rfl)
    · exact .inr (.of_trk_eq s.nextTrack_trk)
    · exact .inr (.of_trk_eq rfl)
  · obtain ⟨-, rfl⟩ | ⟨-, -, i, hfetch, hexec⟩ | ⟨-, -, e, -, rfl⟩ | ⟨-, -, rfl⟩ := stepPull_next_cases hstep
    · exact .inr (.of_trk_eq rfl)
    · obtain ⟨e, rfl⟩ | ⟨u, ch, tempo, seq, rfl, hu⟩ := exec_track (mapped_of_fetch hfetch) hexec
      · exact .inr (.takeError s e)
      · exact .inr (.setCur hu.halted rfl)
    · exact .inr (.takeError s e)
    · exact .inr (.of_trk_eq s.nextTrack_trk)
  · refine .inr fun i hi => ?_
    rw [State.finishTick_trk]
    exact (s.lfoPhase_keeps i).halted.trans hi

/-- A step that is no START begins no session. -/
theorem State.Inv.step_staysStopped (h : s.Inv) (hstopped : s.playing = false) (hstep : Machine.step s = .next t) :
    s.AtStart ∨ t.playing = false := by
  have houtside (hcontrol : s.control = .idle ∨ s.control = .boundary) : s.AtStart ∨ t.playing = false := by
    obtain ⟨size, v, rest, l, hidle, hpending, hbit, -⟩ | ⟨ht, -⟩ := step_begins_or_stopped hstopped hcontrol hstep
    · exact .inl ⟨size, v, rest, hidle, hpending, hbit⟩
    · exact .inr ht
  have hplays (hp : s.playing = true) : s.AtStart ∨ t.playing = false :=
    absurd hp (hstopped ▸ Bool.false_ne_true)
  cases hcontrol : s.control with
  | idle => exact houtside (.inl hcontrol)
  | boundary => exact houtside (.inr hcontrol)
  | enter => exact hplays (h.control.playing (.inl hcontrol))
  | post => exact hplays (h.control.playing (.inr hcontrol))
  | pull =>
    obtain rfl := Host.Outcome.next.inj
      (((step_pull h.config hcontrol).trans (stepPull_stopped hstopped)).symm.trans hstep)
    exact .inr hstopped

end Halted

/-! ### Frames at tempo 0 (R163) -/

/-- A frame leaves the level, the gains and the increment of a channel. -/
theorem Channel.frameAdvance_keeps (c : Channel) :
    c.frameAdvance.env = c.env ∧ c.frameAdvance.gL = c.gL ∧ c.frameAdvance.gR = c.gR ∧ c.frameAdvance.inc = c.inc := by
  unfold Channel.frameAdvance
  split
  · exact ⟨c.advance_env, c.advance_gL, c.advance_gR, c.advance_inc⟩
  · exact ⟨rfl, rfl, rfl, rfl⟩

/-- What a run of frames at tempo 0 leaves as it was. -/
structure Frozen (s t : State) : Prop where
  playing : t.playing = true
  control : t.control = .idle
  tempo : t.tempo = 0
  tickDue : t.tickDue = false
  trk : t.trk = s.trk
  songTicks : t.songTicks = s.songTicks
  stopReq : t.stopReq = s.stopReq
  channels : ∀ j : ChanIdx, t.ch[j].env = s.ch[j].env ∧ t.ch[j].gL = s.ch[j].gL ∧ t.ch[j].gR = s.ch[j].gR ∧
    t.ch[j].inc = s.ch[j].inc

theorem Frozen.trans {s t u : State} (h : Frozen s t) (h' : Frozen t u) : Frozen s u where
  playing := h'.playing
  control := h'.control
  tempo := h'.tempo
  tickDue := h'.tickDue
  trk := h'.trk.trans h.trk
  songTicks := h'.songTicks.trans h.songTicks
  stopReq := h'.stopReq.trans h.stopReq
  channels j := by
    obtain ⟨henv, hL, hR, hinc⟩ := h.channels j
    obtain ⟨henv', hL', hR', hinc'⟩ := h'.channels j
    exact ⟨henv'.trans henv, hL'.trans hL, hR'.trans hR, hinc'.trans hinc⟩

section TempoZero

variable {s : State} {rest : List HostOp}

/-- One RenderFrame at tempo 0: two steps to a frame, after which no tick is due. -/
theorem State.Inv.run_frame_tempoZero (h : s.Inv) (hs : Frozen s s) (hpending : s.pending = .renderFrame :: rest) :
    ∃ (t : State) (l r : Half), Sys2Proof.core.run 2 s = .next t ∧ t.Inv ∧ Frozen s t ∧ t.pending = rest ∧
      t.answers = .frame l r :: s.answers := by
  have hfirst := step_idle_renderFrame h.config hs.control hpending
  have hinv := h.step hfirst
  obtain ⟨u, l, r, hmix⟩ := hinv.mix_eq_some
  have hsecond := (step_boundary hinv.config rfl).trans (stepBoundary_frame hs.playing hs.tickDue hmix)
  obtain ⟨accL, accR, -, rfl, -, -⟩ := mix_cases hmix
  refine ⟨_, l, r, run_two hfirst hsecond, hinv.step hsecond, ?_, rfl, rfl⟩
  have hacc : s.tickAcc.toNat < 60 * s.sampleRate := by
    rw [← not_le, ← State.tickDue_iff, hs.tickDue]
    exact Bool.false_ne_true
  refine ⟨hs.playing, rfl, hs.tempo, ?_, rfl, rfl, rfl, fun j => ?_⟩
  · refine decide_eq_false ?_
    show ¬60 * s.sampleRate ≤ s.accumulate.tickAcc.toNat
    rw [State.accumulate_tickAcc_toNat h.config hacc, hs.tempo]
    exact hacc.not_ge
  · have hget : (chanTable fun j => s.ch[j].frameAdvance)[j] = s.ch[j].frameAdvance := chanTable_get _ j
    have hkeeps := s.ch[j].frameAdvance_keeps
    rwa [← hget] at hkeeps

/-- Any number of RenderFrames at tempo 0. -/
theorem State.Inv.run_frames_tempoZero (h : s.Inv) (hs : Frozen s s) {n : Nat}
    (hpending : s.pending = List.replicate n .renderFrame ++ rest) :
    ∃ (t : State) (frames : List (Half × Half)), Sys2Proof.core.run (2 * n) s = .next t ∧ Frozen s t ∧
      t.pending = rest ∧ frames.length = n ∧
        t.answers = (frames.map fun f => Answer.frame f.1 f.2) ++ s.answers := by
  induction n generalizing s with
  | zero => exact ⟨s, [], rfl, hs, hpending, rfl, rfl⟩
  | succ n ih =>
    obtain ⟨t, l, r, hrun, hinv, hfrozen, hrest, hanswers⟩ := h.run_frame_tempoZero hs hpending
    have ht : Frozen t t := { hfrozen with
      trk := rfl, songTicks := rfl, stopReq := rfl, channels := fun _ => ⟨rfl, rfl, rfl, rfl⟩ }
    obtain ⟨u, frames, hruns, hmore, hpend, hlen, hlist⟩ := ih hinv ht hrest
    refine ⟨u, frames ++ [(l, r)], ?_, hfrozen.trans hmore, hpend, by simp [hlen], ?_⟩
    · rw [Nat.mul_succ, Nat.add_comm, run_add_of_run hrun, hruns]
    · rw [hlist, hanswers, List.map_append, List.append_assoc]
      rfl

end TempoZero

/-! ### The statements -/

/-- Settles O57: by `powerOn_inv`; the reset state is power-on with one choice of parameters. -/
theorem powerOnHasTheInvariant : Obligations.PowerOnHasTheInvariant :=
  ⟨powerOn_inv (by decide) ⟨.nil, fun _ hc => absurd hc List.not_mem_nil⟩ [], fun _ _ ops hwf hrom => powerOn_inv hwf hrom ops⟩

/-- Settles O58: each part of the invariant over a step (`State.Inv.step`). -/
theorem everyStepKeepsTheInvariant : Obligations.EveryStepKeepsTheInvariant := fun _ _ h hstep => h.step hstep

/-- Settles O59: by `State.Inv.step_answers`, and the refusal of an operation that is not well formed. -/
theorem invariantStatesRun : Obligations.InvariantStatesRun := by
  intro s h
  obtain hnext | ⟨op, rest, hidle, hpending, hop⟩ := h.step_answers
  · exact .inl hnext
  · obtain ⟨off, size, hrefusal⟩ := HostOp.refusal_of_not_wellFormed hop
    exact .inr ⟨op, rest, off, size, hidle, hpending, hop,
      hrefusal ▸ step_op_refused h.config hidle hpending hop⟩

/-- Settles O60: the invariant holds after power-on and along the run. -/
theorem runsFromPowerOnAreSafe : Obligations.RunsFromPowerOnAreSafe :=
  fun _ _ ops k hwf hrom hops => (powerOn_inv hwf hrom ops).run_answers hops k

/-- Settles O29: a track that stays halted is inactive by the invariant of the next state. -/
theorem onlyStartRevives : Obligations.OnlyStartRevives := by
  intro s t h hstep
  obtain hstart | hhalted := step_staysHalted hstep
  · exact .inl hstart
  · by_cases hstart : s.AtStart
    · exact .inl hstart
    · refine .inr ⟨fun i hi => ⟨hhalted i hi, ?_⟩, fun hstopped =>
        (h.step_staysStopped hstopped hstep).resolve_left hstart⟩
      exact Bool.eq_false_iff.mpr fun hactive => ((h.step hstep).tracks i).flags ⟨hactive, hhalted i hi⟩

/-- Settles O56: by `State.Inv.run_frames_tempoZero`. -/
theorem tempoZeroFreezesTheSong : Obligations.TempoZeroFreezesTheSong := by
  intro n s rest h hidle hplaying htempo hdue hpending
  have hs : Frozen s s := ⟨hplaying, hidle, htempo, hdue, rfl, rfl, rfl, fun _ => ⟨rfl, rfl, rfl, rfl⟩⟩
  obtain ⟨t, frames, hrun, ht, hrest, hlen, hanswers⟩ := h.run_frames_tempoZero hs hpending
  exact ⟨t, hrun, ht.playing, ht.control, hrest, ht.trk, ht.songTicks, ht.stopReq, ht.tickDue, ht.channels, frames, hlen,
    hanswers⟩

end Sys2Proof.Machine
end
